-- ==== Sys2Proof/Word.lean ====
section
/-! DEFINITION. The word types of the register window (10_state.md R49) and of packed bitstreams (20_memory.md R88). -/

namespace Sys2Proof

/-- A 64-bit window register or command word (20_memory.md R83). -/
abbrev Word := BitVec 64

/-- One byte of a packed bitstream (20_memory.md R88). -/
abbrev Byte := BitVec 8

end Sys2Proof
end

