-- ==== Sys2Proof/Syntax.lean ====
section
/-! DEFINITION. The six commands of the opcode table (30_encoding.md R125), one constructor a row. -/

namespace Sys2Proof

/-- A decoded command. The two start commands carry the PREC field (R122). The other operand of a command is not in
its word: it is ARG0 as latched into ARG_L (R121). -/
inductive Instr where
  | encStart (prec : Nat)
  | encode
  | finish
  | decStart (prec : Nat)
  | decode
  | abort
  deriving DecidableEq, Repr

end Sys2Proof
end

