-- ==== Sys2Proof/WellFormed.lean ====
section
/-! DEFINITION. Which commands have an encoding: PREC is a 7-bit field (30_encoding.md R122, R130). -/

namespace Sys2Proof

/-- The PREC operand fits its 7-bit field (R122: bits 14:8; R130: less than 128). That P is a legal precision is not an
encoding rule: the start command checks it when it runs (R201). -/
def Instr.wf : Instr → Bool
  | .encStart prec => decide (prec < 128)
  | .encode => true
  | .finish => true
  | .decStart prec => decide (prec < 128)
  | .decode => true
  | .abort => true

end Sys2Proof
end

