-- ==== Sys2Proof/Decode.lean ====
section
/-! DEFINITION. The command decoder and encoder (30_encoding.md R120-R128). -/

namespace Sys2Proof

/-- Why a word decodes to ILLEGAL (R126). -/
inductive DecodeError where
  /-- The OP value is not in the opcode map (R125). -/
  | unassignedOpcode (op : BitVec 8)
  /-- A listed OP with a nonzero reserved bit (R126). -/
  | reservedBits (op : BitVec 8)
  deriving DecidableEq, Repr

/-- OP, bits 7:0 (R120). -/
def opField (w : Word) : BitVec 8 := w.extractLsb' 0 8

/-- PREC of format S, bits 14:8 (R120, R122). -/
def precField (w : Word) : BitVec 7 := w.extractLsb' 8 7

/-- RSV of format S, bits 63:15 (R120). -/
def rsvFieldS (w : Word) : BitVec 49 := w.extractLsb' 15 49

/-- RSV of format N, bits 63:8 (R120). -/
def rsvFieldN (w : Word) : BitVec 56 := w.extractLsb' 8 56

/-- The OP values of the opcode map (R125). -/
def assignedOps : List (BitVec 8) := [0x01#8, 0x02#8, 0x03#8, 0x11#8, 0x12#8, 0x20#8]

/-- The decoder of R124. It reads the word alone and is total: a word is one command or ILLEGAL, with its reason. -/
def decode (w : Word) : Except DecodeError Instr :=
  if opField w = 0x01#8 ∧ rsvFieldS w = 0#49 then .ok (.encStart (precField w).toNat)
  else if opField w = 0x11#8 ∧ rsvFieldS w = 0#49 then .ok (.decStart (precField w).toNat)
  else if opField w = 0x02#8 ∧ rsvFieldN w = 0#56 then .ok .encode
  else if opField w = 0x03#8 ∧ rsvFieldN w = 0#56 then .ok .finish
  else if opField w = 0x12#8 ∧ rsvFieldN w = 0#56 then .ok .decode
  else if opField w = 0x20#8 ∧ rsvFieldN w = 0#56 then .ok .abort
  else if opField w ∈ assignedOps then .error (.reservedBits (opField w))
  else .error (.unassignedOpcode (opField w))

/-- A format S word: RSV = 0, PREC in bits 14:8, OP in bits 7:0 (R120). -/
def formatS (op : BitVec 8) (prec : Nat) : Word := 0#49 ++ BitVec.ofNat 7 prec ++ op

/-- A format N word: RSV = 0, OP in bits 7:0 (R120). -/
def formatN (op : BitVec 8) : Word := 0#56 ++ op

/-- The word of a command, from the opcode map (R125). It drops PREC bits above the field, so it is meant for
well-formed commands only. -/
def encode : Instr → Word
  | .encStart prec => formatS 0x01#8 prec
  | .encode => formatN 0x02#8
  | .finish => formatN 0x03#8
  | .decStart prec => formatS 0x11#8 prec
  | .decode => formatN 0x12#8
  | .abort => formatN 0x20#8

/-- One row of R125's table of exact word patterns. -/
structure OpcodeRow where
  mnemonic : String
  pattern : Word
  mask : Word
  deriving DecidableEq, Repr

/-- A word fits a row when its masked bits are the row's pattern (R125). -/
def OpcodeRow.fits (r : OpcodeRow) (w : Word) : Bool := decide (w &&& r.mask = r.pattern)

/-- R125's table of exact word patterns, in the order of the table. -/
def opcodeRows : List OpcodeRow :=
  [ ⟨"ENC_START", 0x0000000000000001#64, 0xFFFFFFFFFFFF80FF#64⟩,
    ⟨"ENCODE", 0x0000000000000002#64, 0xFFFFFFFFFFFFFFFF#64⟩,
    ⟨"FINISH", 0x0000000000000003#64, 0xFFFFFFFFFFFFFFFF#64⟩,
    ⟨"DEC_START", 0x0000000000000011#64, 0xFFFFFFFFFFFF80FF#64⟩,
    ⟨"DECODE", 0x0000000000000012#64, 0xFFFFFFFFFFFFFFFF#64⟩,
    ⟨"ABORT", 0x0000000000000020#64, 0xFFFFFFFFFFFFFFFF#64⟩ ]

/-- The row of R125's table a command belongs to. -/
def Instr.row : Instr → OpcodeRow
  | .encStart _ => ⟨"ENC_START", 0x0000000000000001#64, 0xFFFFFFFFFFFF80FF#64⟩
  | .encode => ⟨"ENCODE", 0x0000000000000002#64, 0xFFFFFFFFFFFFFFFF#64⟩
  | .finish => ⟨"FINISH", 0x0000000000000003#64, 0xFFFFFFFFFFFFFFFF#64⟩
  | .decStart _ => ⟨"DEC_START", 0x0000000000000011#64, 0xFFFFFFFFFFFF80FF#64⟩
  | .decode => ⟨"DECODE", 0x0000000000000012#64, 0xFFFFFFFFFFFFFFFF#64⟩
  | .abort => ⟨"ABORT", 0x0000000000000020#64, 0xFFFFFFFFFFFFFFFF#64⟩

/-- The 64-bit command word whose bits are the low `nbits` bits of `w`, numbered as the opcode table numbers them. Every
command is one 64-bit word (R128), and the bits above `nbits` are 0. -/
def tableWord (nbits w : Nat) : Word := BitVec.ofNat 64 (w % 2 ^ nbits)

/-- What the decoder reads from an opcode-table word; none where the word is ILLEGAL. -/
def decodeTableWord (nbits w : Nat) : Option Instr :=
  match decode (tableWord nbits w) with
  | .ok i => some i
  | .error _ => none

end Sys2Proof
end

