-- ==== Sys2Proof/Config.lean ====
section
/-! DEFINITION. What a build fixes (00_scope.md R6, R7; 20_memory.md R80), the constants of the command set, and the
free values of reads made while a command is in progress (45_host_commands.md R286). -/

namespace Sys2Proof

/-- The build parameters. They ride in State so that a statement about every state is one about every build (log 1). -/
structure Build where
  /-- PMAX, the largest precision (R6). -/
  pmax : Nat
  /-- PEND_W, the width of the pending-bit counter (R7). -/
  pendW : Nat
  /-- WINDOW_BASE, the host address of offset 0x00 (R80, OPEN-1; log 2). -/
  windowBase : Nat
  deriving DecidableEq, Repr

/-- The ranges of R6 and R7. -/
def Build.wf (b : Build) : Bool :=
  decide (2 ≤ b.pmax) && decide (b.pmax ≤ 64) && decide (1 ≤ b.pendW) && decide (b.pendW ≤ 64)

/-- The reference values of R6 and R7. DESIGN CHOICE: window base 0 (log 2). -/
def Build.reference : Build := { pmax := 64, pendW := 32, windowBase := 0 }

/-- CAPS.EDITION (10_state.md R51). -/
def Config.edition : Nat := 1

/-- PAD_BIT (00_scope.md R11). -/
def Config.padBit : Bool := false

/-- The value of an "any value" register read while BUSY = 1 (R286), one for each count of `drawn` (log 6). -/
opaque Config.freeRead : Nat → Word

/-- Whether a read of STATUS.EXHAUSTED while BUSY = 1 gives the value from before the command (R286; log 7). -/
opaque Config.freeShowsOld : Nat → Bool

end Sys2Proof
end

