-- ==== Sys2Proof/Machine/HostSyntax.lean ====
section
/-! DEFINITION. The names of the window registers (10_state.md R49) and the host's language (30_encoding.md R129-R136). -/

namespace Sys2Proof.Machine

/-- The named window registers (R129). -/
inductive WinReg where
  | caps | cmd | arg0 | status | result | low | high | code | pending | maxtot | bitcnt | symcnt | padcnt
  deriving DecidableEq, Repr

/-- A host machine instruction with its label resolved to a line number (R129). `k` is a bit number of the 64-bit `acc`. -/
inductive HostInstr where
  | wr (reg : WinReg) (imm : Word)
  | rd (reg : WinReg)
  | jbs (k : Fin 64) (target : Nat)
  | jbc (k : Fin 64) (target : Nat)
  | jmp (target : Nat)
  | halt
  deriving DecidableEq, Repr

/-- A line of a host program as written: the instructions of R129 and the pseudo-instructions of R131-R135. A label is a
number (log 13). -/
inductive Line where
  | label (l : Nat)
  | wr (reg : WinReg) (imm : Nat)
  | rd (reg : WinReg)
  | jbs (k : Nat) (l : Nat)
  | jbc (k : Nat) (l : Nat)
  | jmp (l : Nat)
  | halt
  | wait
  | encStart (p m : Nat)
  | encode (s : Nat)
  | finish
  | decStart (p m : Nat)
  | decode
  | abort
  | checkOk (lerr : Nat)
  | result
  deriving DecidableEq, Repr

/-- Why the assembler refuses a line (R130). -/
inductive AsmReason where
  /-- An `imm` of 2^64 or more. -/
  | immTooLarge
  /-- A PREC operand of 128 or more. -/
  | precTooLarge
  /-- A label defined more than once. -/
  | labelDefinedTwice
  /-- A label that no line defines. -/
  | labelUndefined
  /-- A bit number of 64 or more; `acc` has 64 bits (R129; log 13). -/
  | bitNumberTooLarge
  deriving DecidableEq, Repr

/-- A refusal names the line (R130), counted from 0. -/
structure AsmError where
  line : Nat
  reason : AsmReason
  deriving DecidableEq, Repr

/-- The host agent: its assembled program, the next line, `acc`, and whether it has executed `halt` (R129). -/
structure HostAgent where
  prog : List HostInstr
  pc : Nat
  acc : Word
  halted : Bool
  deriving DecidableEq, Repr

end Sys2Proof.Machine
end

