-- ==== Sys2Proof/Machine/Ports.lean ====
section
/-! DEFINITION. The transactions of the three ports (20_memory.md R82): requests, answers, and the agents' coming answers. -/

namespace Sys2Proof.Machine

/-- The model's answer to FREQ(s) (40_model_port.md R150). -/
inductive FreqAnswer where
  | freqOk (cl ch t : Word)
  | unknown
  deriving DecidableEq, Repr

/-- The model's answer SYMBOL_OK to SYMBOL(v, t) (R152). -/
structure SymbolAnswer where
  symbol : Word
  cl : Word
  ch : Word
  eos : Bool
  deriving DecidableEq, Repr

/-- The sink's answer to WRITE_BIT or FLUSH (44_bit_adaptors.md R260). -/
inductive SinkAnswer where
  | ok
  | error
  deriving DecidableEq, Repr

/-- The source's answer to READ_BIT (R266): BIT(b), END or ERROR. -/
inductive SourceAnswer where
  | bit (b : Bool)
  | endOfInput
  | error
  deriving DecidableEq, Repr

/-- A port request the block issues (20_memory.md R82). -/
inductive Request where
  | freq (symbol : Word)
  | total
  | symbol (v t : Word)
  | writeBit (b : Bool)
  | flush
  | readBit
  deriving DecidableEq, Repr

/-- One finished transaction: a request with its answer. -/
inductive Transaction where
  | freq (symbol : Word) (a : FreqAnswer)
  | total (t : Word)
  | symbol (v t : Word) (a : SymbolAnswer)
  | writeBit (b : Bool) (a : SinkAnswer)
  | flush (a : SinkAnswer)
  | readBit (a : SourceAnswer)
  deriving DecidableEq, Repr

/-- An answer that an agent makes available on its port. -/
inductive Answer where
  | freq (a : FreqAnswer)
  | total (t : Word)
  | symbol (a : SymbolAnswer)
  | sink (a : SinkAnswer)
  | source (a : SourceAnswer)
  deriving DecidableEq, Repr

/-- The answers the agents will give, oldest first, one list for each kind of request. An empty list is an agent that
does not answer (log 5). Each request gets one response (20_memory.md R93). -/
structure Ports where
  freq : List FreqAnswer
  total : List Word
  symbol : List SymbolAnswer
  sink : List SinkAnswer
  source : List SourceAnswer
  deriving DecidableEq, Repr

end Sys2Proof.Machine
end

