-- ==== Sys2Proof/Machine/State.lean ====
section
/-! DEFINITION. The state of the machine: the block's registers and hidden state (10_state.md), the agents' coming answers,
the host, and the order of events, all plain data. -/

namespace Sys2Proof.Machine

/-- STATE (R31). The values 5 to 7 are never held. -/
inductive Session where
  | idle | enc | dec | done | failed
  deriving DecidableEq, Repr

/-- KIND (R46). -/
inductive Kind where
  | encode | decode
  deriving DecidableEq, Repr

/-- The error codes of STATUS.ERR (60_exceptions.md R300). -/
inductive ErrCode where
  | ok | illegalCmd | badState | precision | unknownSymbol | modelProtocol | ioError | pendingOverflow
  deriving DecidableEq, Repr

/-- The block's registers and flags (10_state.md R31-R48), but for BUSY and ARG0. -/
structure Regs where
  state : Session
  eos : Bool
  kind : Kind
  overrun : Bool
  exhausted : Bool
  err : ErrCode
  prec : BitVec 7
  low : Word
  high : Word
  code : Word
  pending : Word
  maxtot : Word
  bitcnt : Word
  symcnt : Word
  padcnt : Word
  result : Word
  deriving DecidableEq, Repr

/-- The values of R60. -/
def Regs.reset : Regs :=
  { state := .idle, eos := false, kind := .encode, overrun := false, exhausted := false, err := .ok, prec := 0, low := 0,
    high := 0, code := 0, pending := 0, maxtot := 0, bitcnt := 0, symcnt := 0, padcnt := 0, result := 0 }

/-- A host access by host address, of any width and alignment, so that the accesses of 20_memory.md R84 can be made.
`write` holds the value of a write; a read has none. -/
structure Access where
  addr : Nat
  bytes : Nat
  write : Option Word
  deriving DecidableEq, Repr

/-- What happens next, as seen from outside the block (log 4). -/
inductive Input where
  /-- The block goes on with the command in progress. -/
  | block
  /-- The host executes its next line. -/
  | host
  /-- A host access of any form. -/
  | access (a : Access)
  /-- The reset input is asserted (70_reset_and_hazards.md R340). -/
  | reset
  /-- An agent makes its next answer available. -/
  | answer (a : Answer)
  /-- The response to a request that reset abandoned arrives (R340). -/
  | late (t : Transaction)
  deriving DecidableEq, Repr

/-- The whole machine. INVENTORY.md lists the fields with their rules. -/
structure State where
  build : Build
  regs : Regs
  arg0 : Word
  argL : Word
  /-- The latched CMD word of the command in progress (log 19). -/
  cmd : Word
  busy : Bool
  ports : Ports
  /-- The finished transactions of the command in progress, in order: how far it has got (log 3). -/
  live : List Transaction
  outstanding : Option Request
  abandoned : List Request
  /-- The transactions of earlier commands, in order (log 9). -/
  trace : List Transaction
  host : HostAgent
  inputs : List Input
  /-- How many free values have been drawn (log 6). -/
  drawn : Nat
  deriving DecidableEq, Repr

/-- The machine stops with a fault. No arm of exec faults on every path. -/
inductive Fault where
  /-- A host access that is misaligned or not 8 bytes wide: a bus error, no block state changes (20_memory.md R84, R313).
  Raised by a host access. Safe. -/
  | busError (offset : Nat) (bytes : Nat)
  /-- A host access outside the 128-byte window, which is not addressed to the block (R80). Raised by a host access. Safe
  (log 11). -/
  | outsideWindow (addr : Nat)
  /-- The interval engine left the bounds of 41_interval_core.md R172, R175 or R184. No state that meets the invariant of
  Safety.lean raises it; R307 asks for a fault. Raised by NARROW, VALUE and RENORM. Safe (log 12). -/
  | arithmetic
  deriving DecidableEq, Repr

/-- The machine gives an instruction no meaning. -/
inductive Refusal where
  /-- An instruction with no meaning yet. No arm of exec raises it: every command is modelled. Safe. -/
  | notModelled (mnemonic : String)
  deriving DecidableEq, Repr

/-- No agent answers anything. -/
def Ports.none : Ports := { freq := [], total := [], symbol := [], sink := [], source := [] }

/-- A host with no program (log 13). -/
def HostAgent.none : HostAgent := { prog := [], pc := 0, acc := 0, halted := false }

/-- The machine right after reset: every block register at the value of R60, no command in progress, the reference build.
What is outside the block is empty (DESIGN CHOICE, logs 2, 4, 5, 6, 9 and 13). -/
def State.reset : State :=
  { build := Build.reference, regs := Regs.reset, arg0 := 0, argL := 0, cmd := 0, busy := false, ports := Ports.none,
    live := [], outstanding := Option.none, abandoned := [], trace := [], host := HostAgent.none, inputs := [], drawn := 0 }

end Sys2Proof.Machine
end

