-- ==== Sys2Proof/Machine/Flags.lean ====
section
/-! DEFINITION. The codes of the status fields, and the STATUS and CAPS words (10_state.md R31, R46, R50, R51; 60_exceptions.md R300, R302). -/

namespace Sys2Proof.Machine

/-- STATUS.STATE (R31). -/
def Session.toBits : Session → BitVec 3
  | .idle => 0
  | .enc => 1
  | .dec => 2
  | .done => 3
  | .failed => 4

/-- STATUS.KIND (R46). -/
def Kind.toBit : Kind → BitVec 1
  | .encode => 0
  | .decode => 1

/-- STATUS.ERR (R300). -/
def ErrCode.toBits : ErrCode → BitVec 8
  | .ok => 0x00
  | .illegalCmd => 0x01
  | .badState => 0x02
  | .precision => 0x03
  | .unknownSymbol => 0x04
  | .modelProtocol => 0x05
  | .ioError => 0x06
  | .pendingOverflow => 0x07

/-- The errors that end the session in FAILED (R302). -/
def ErrCode.fatal : ErrCode → Bool
  | .modelProtocol | .ioError | .pendingOverflow => true
  | .ok | .illegalCmd | .badState | .precision | .unknownSymbol => false

/-- A session is live in ENC and DEC (R31, R283). -/
def Session.live : Session → Bool
  | .enc | .dec => true
  | .idle | .done | .failed => false

/-- The STATUS word of R50, bits 63:23 zero, from the registers, BUSY and the EXHAUSTED bit to show. -/
def statusWord (r : Regs) (busy exhausted : Bool) : Word :=
  0#41 ++ r.prec ++ r.err.toBits ++ BitVec.ofBool exhausted ++ BitVec.ofBool r.overrun ++ r.kind.toBit ++
    BitVec.ofBool r.eos ++ BitVec.ofBool busy ++ r.state.toBits

/-- The CAPS word of R51. -/
def capsWord (b : Build) : Word :=
  0#40 ++ BitVec.ofNat 8 Config.edition ++ 0#1 ++ BitVec.ofNat 7 b.pendW ++ 0#1 ++ BitVec.ofNat 7 b.pmax

/-- The low `n` bits of a register, zero above (R49: "LOW[P-1:0], zero above"). -/
def lowBits (n : Nat) (w : Word) : Word := BitVec.ofNat 64 (w.toNat % 2 ^ n)

end Sys2Proof.Machine
end

