-- ==== Sys2Proof/Machine/Operands.lean ====
section
/-! DEFINITION. The operand forms of the command set (30_encoding.md R121, R123): the PREC field, and ARG_L as MAX_TOTAL or
as a symbol; and the check of the start commands' operands (42_encoder.md R201). -/

namespace Sys2Proof.Machine

/-- MAX_TOTAL, the operand of the start commands (R121). -/
def maxTotalOperand (s : State) : Word := s.argL

/-- The symbol that ENCODE encodes, an opaque 64-bit value (R121, R10). -/
def symbolOperand (s : State) : Word := s.argL

/-- The precision check of R201: 2 <= P <= PMAX and 1 <= M <= 2^(P-2). -/
def precisionOk (b : Build) (p : Nat) (m : Word) : Bool :=
  decide (2 ≤ p) && decide (p ≤ b.pmax) && decide (1 ≤ m.toNat) && decide (m.toNat ≤ 2 ^ (p - 2))

end Sys2Proof.Machine
end

