-- ==== Sys2Proof/Machine/Ops.lean ====
section
/-! DEFINITION. How a command starts, goes on, waits and completes (45_host_commands.md R280-R290), the port requests
(40_model_port.md, 44_bit_adaptors.md), and reset (70_reset_and_hazards.md R340). -/

namespace Sys2Proof.Machine

/-- What a stretch of a command's pseudocode comes to. -/
inductive Flow (α : Type) where
  /-- It goes on, with a value. -/
  | go (a : α) (s : State)
  /-- `raise E` (R289). -/
  | raised (e : ErrCode) (s : State)
  /-- A request its agent has not answered (R161, R264, R270). -/
  | stalled (q : Request) (s : State)
  /-- The model left the rules' bounds (R307). -/
  | fault (f : Fault)

/-- One stretch of pseudocode after another. -/
def Flow.andThen {α β : Type} (x : Flow α) (f : α → State → Flow β) : Flow β :=
  match x with
  | .go a s => f a s
  | .raised e s => .raised e s
  | .stalled q s => .stalled q s
  | .fault r => .fault r

/-- How a command that met no error ends: `complete(OK)` or `complete_end(OK)` (R289). -/
inductive Ending where
  | normal
  | endOfStream
  deriving DecidableEq, Repr

/-- `complete(e)`, and `complete_end(e)` when `eos` is true (R289). The command's transactions become history. -/
def complete (e : ErrCode) (eos : Bool) (s : State) : State :=
  { s with
    regs := { s.regs with err := e, eos := eos }
    busy := false
    trace := s.trace ++ s.live
    live := []
    outstanding := none }

/-- STATE <- FAILED for a fatal error, nothing for a recoverable one (R289, R302). -/
def failIfFatal (e : ErrCode) (s : State) : State :=
  if e.fatal then { s with regs := { s.regs with state := .failed } } else s

/-- `raise E` (R289): this hardware's whole way of taking an exception (60_exceptions.md R310, R311). -/
def raise (e : ErrCode) (s : State) : State := complete e false (failIfFatal e s)

/-- The command waits at request `q`: it stays in progress, BUSY = 1 (R44), and no register update is visible yet (R289,
R286). Its transactions so far have happened. It takes up again from its first line with the same answers (log 3). -/
def suspend (q : Request) (soFar s : State) : State := { s with busy := true, live := soFar.live, outstanding := some q }

/-- A command at its first line: none of its transactions counts yet. -/
def fresh (s : State) : State := { s with live := [], outstanding := none }

/-- Run the pseudocode of a command from its start to its completion, or to a request that is not answered (R280, R281). -/
def runCommand (body : State → Flow Ending) (s : State) : Host.Outcome State Fault Refusal :=
  match body (fresh s) with
  | .go ending s' => .next (complete .ok (decide (ending = .endOfStream)) s')
  | .raised e s' => .next (raise e s')
  | .stalled q s' => .next (suspend q s' s)
  | .fault f => .fault f

/-- `if not c: raise e`. -/
def require (c : Bool) (e : ErrCode) (s : State) : Flow Unit := if c then .go () s else .raised e s

/-- A finished transaction of the command in progress. -/
def record (t : Transaction) (s : State) : State := { s with live := s.live ++ [t] }

/-- `ModelReq(FREQ, symbol)` (R150). -/
def askFreq (symbol : Word) (s : State) : Flow FreqAnswer :=
  match s.ports.freq with
  | [] => .stalled (.freq symbol) s
  | a :: rest => .go a (record (.freq symbol a) { s with ports := { s.ports with freq := rest } })

/-- `ModelReq(TOTAL)` (R151). -/
def askTotal (s : State) : Flow Word :=
  match s.ports.total with
  | [] => .stalled .total s
  | t :: rest => .go t (record (.total t) { s with ports := { s.ports with total := rest } })

/-- `ModelReq(SYMBOL, v, t)` (R152). -/
def askSymbol (v t : Word) (s : State) : Flow SymbolAnswer :=
  match s.ports.symbol with
  | [] => .stalled (.symbol v t) s
  | a :: rest => .go a (record (.symbol v t a) { s with ports := { s.ports with symbol := rest } })

/-- One WRITE_BIT transaction (R260). -/
def askWriteBit (b : Bool) (s : State) : Flow SinkAnswer :=
  match s.ports.sink with
  | [] => .stalled (.writeBit b) s
  | a :: rest => .go a (record (.writeBit b a) { s with ports := { s.ports with sink := rest } })

/-- One FLUSH transaction (R260). -/
def askFlush (s : State) : Flow SinkAnswer :=
  match s.ports.sink with
  | [] => .stalled .flush s
  | a :: rest => .go a (record (.flush a) { s with ports := { s.ports with sink := rest } })

/-- One READ_BIT transaction (R266). -/
def askReadBit (s : State) : Flow SourceAnswer :=
  match s.ports.source with
  | [] => .stalled .readBit s
  | a :: rest => .go a (record (.readBit a) { s with ports := { s.ports with source := rest } })

/-- The session registers as a start command sets them before anything else (42_encoder.md R200, 43_decoder.md R230):
PREC, MAXTOT and KIND for the session, the whole interval [0, 2^P - 1] (R35), and 0 in the rest. OVERRUN stays (R47). -/
def beginSession (kind : Kind) (p : Nat) (m : Word) (s : State) : State :=
  { s with
    regs := { s.regs with
      prec := BitVec.ofNat 7 p, maxtot := m
      low := 0, high := BitVec.ofNat 64 (2 ^ p - 1), pending := 0, code := 0
      exhausted := false, padcnt := 0, bitcnt := 0, symcnt := 0, result := 0
      kind := kind } }

/-- ABORT's register writes (R284). ARG0 is not cleared. -/
def clearSession (s : State) : State :=
  { s with
    regs := { s.regs with
      state := .idle
      prec := 0, maxtot := 0
      low := 0, high := 0, code := 0, pending := 0
      exhausted := false, padcnt := 0, bitcnt := 0, symcnt := 0, result := 0
      kind := .encode, overrun := false } }

/-- STATE <- x. -/
def setState (x : Session) (s : State) : State := { s with regs := { s.regs with state := x } }

/-- RESULT <- v. -/
def setResult (v : Word) (s : State) : State := { s with regs := { s.regs with result := v } }

/-- PENDING <- v. -/
def setPending (v : Word) (s : State) : State := { s with regs := { s.regs with pending := v } }

/-- SYMCNT <- (SYMCNT + 1) mod 2^64 (R41). -/
def countSymbol (s : State) : State := { s with regs := { s.regs with symcnt := s.regs.symcnt + 1 } }

/-- BITCNT <- (BITCNT + 1) mod 2^64 (R40). -/
def countBit (s : State) : State := { s with regs := { s.regs with bitcnt := s.regs.bitcnt + 1 } }

/-- min(v + 1, 2^64 - 1) (R39). -/
def saturatingSucc (v : Word) : Word := if v = BitVec.allOnes 64 then v else v + 1

/-- The largest value of PENDING, 2^PEND_W - 1 (R181). -/
def pendingLimit (b : Build) : Nat := 2 ^ b.pendW - 1

/-- A CMD write that starts a command (R280): BUSY, ARG_L, and the word to decode. -/
def startCommand (w : Word) (s : State) : State :=
  { s with busy := true, argL := s.arg0, cmd := w, live := [], outstanding := none }

/-- A CMD write while BUSY = 1 is dropped (R282). -/
def dropCommand (s : State) : State := { s with regs := { s.regs with overrun := true } }

/-- How many transactions of a list used an answer of each kind. -/
def usedFreq (ts : List Transaction) : Nat := ts.countP fun | .freq _ _ => true | _ => false
def usedTotal (ts : List Transaction) : Nat := ts.countP fun | .total _ => true | _ => false
def usedSymbol (ts : List Transaction) : Nat := ts.countP fun | .symbol _ _ _ => true | _ => false
def usedSink (ts : List Transaction) : Nat := ts.countP fun | .writeBit _ _ | .flush _ => true | _ => false
def usedSource (ts : List Transaction) : Nat := ts.countP fun | .readBit _ => true | _ => false

/-- The answers left after the transactions `ts`. -/
def Ports.after (p : Ports) (ts : List Transaction) : Ports :=
  { freq := p.freq.drop (usedFreq ts), total := p.total.drop (usedTotal ts), symbol := p.symbol.drop (usedSymbol ts),
    sink := p.sink.drop (usedSink ts), source := p.source.drop (usedSource ts) }

/-- The reset input (R340): the command in progress is abandoned where it is, every register gets its value of R60, and
the external agents stay as they are (R341). What the abandoned command did on the ports has happened (log 9). DESIGN
CHOICE: the abandoned request does not hold its port; a new command may issue requests there before it is answered, and no
`ask` operation looks at `abandoned` (log 24). -/
def resetBlock (s : State) : State :=
  { s with
    regs := Regs.reset, arg0 := 0, argL := 0, cmd := 0, busy := false
    ports := s.ports.after s.live
    trace := s.trace ++ s.live
    live := []
    abandoned := s.abandoned ++ s.outstanding.toList
    outstanding := none }

/-- An agent's answer joins those it will give (log 5). -/
def Ports.push (p : Ports) : Answer → Ports
  | .freq a => { p with freq := p.freq ++ [a] }
  | .total t => { p with total := p.total ++ [t] }
  | .symbol a => { p with symbol := p.symbol ++ [a] }
  | .sink a => { p with sink := p.sink ++ [a] }
  | .source a => { p with source := p.source ++ [a] }

/-- The transaction that a request makes with the next coming answer on its port; none where that answer has not come. -/
def Ports.answerTo (p : Ports) : Request → Option Transaction
  | .freq x => p.freq.head?.map (.freq x)
  | .total => p.total.head?.map .total
  | .symbol v t => p.symbol.head?.map (.symbol v t)
  | .writeBit b => p.sink.head?.map (.writeBit b)
  | .flush => p.sink.head?.map .flush
  | .readBit => p.source.head?.map .readBit

/-- The request at which a command waits gets its response as soon as its port has an answer that the command's
transactions have not used (20_memory.md R93). From then on it is no longer outstanding: a reset leaves nothing of it for a
later command (R340). -/
def respond (s : State) : State :=
  match s.outstanding.bind (s.ports.after s.live).answerTo with
  | some t => { record t s with outstanding := none }
  | none => s

/-- An agent makes its next answer available: the response to the request at which the command waits, if it is one. -/
def deliver (a : Answer) (s : State) : State := respond { s with ports := s.ports.push a }

/-- The request of a transaction. -/
def Transaction.request : Transaction → Request
  | .freq x _ => .freq x
  | .total _ => .total
  | .symbol v t _ => .symbol v t
  | .writeBit b _ => .writeBit b
  | .flush _ => .flush
  | .readBit _ => .readBit

/-- The response to a request that reset abandoned: the block ignores it (R340), and the agent has served the request
(R341). A response to no such request does not occur and changes nothing. DESIGN CHOICE: it may come after transactions of
later commands on the same port. It joins the trace at its end, so it stands after those of commands that have completed or
were reset, and before those that a command still in progress has made (`live`), which join the trace only later, whichever
came first (log 24). -/
def lateAnswer (t : Transaction) (s : State) : State :=
  if t.request ∈ s.abandoned then
    { s with abandoned := s.abandoned.erase t.request, trace := s.trace ++ [t] }
  else s

/-- The bits of the WRITE_BIT transactions the sink answered with OK, in order (R262). -/
def acceptedBits : List Transaction → List Bool
  | [] => []
  | .writeBit b .ok :: ts => b :: acceptedBits ts
  | _ :: ts => acceptedBits ts

/-- The bit sequence the sink has accepted (10_state.md R55). Where the bit of an abandoned request stands in it is a DESIGN
CHOICE (log 24). -/
def State.sinkBits (s : State) : List Bool := acceptedBits (s.trace ++ s.live)

/-- How many FLUSH requests the sink has answered with OK (R55). -/
def State.sinkFlushes (s : State) : Nat := (s.trace ++ s.live).count (.flush .ok)

/-- The bits the source has supplied, in order: its read position (R55). -/
def suppliedBits : List Transaction → List Bool
  | [] => []
  | .readBit (.bit b) :: ts => b :: suppliedBits ts
  | _ :: ts => suppliedBits ts

/-- The bits the source has supplied so far (R55). Where the bit of an abandoned request stands among them is a DESIGN CHOICE
(log 24). -/
def State.sourceBits (s : State) : List Bool := suppliedBits (s.trace ++ s.live)

/-- A request that may update the model (40_model_port.md R153): a FREQ answered FREQ_OK, or a SYMBOL. -/
def Transaction.updateBearing : Transaction → Bool
  | .freq _ (.freqOk _ _ _) => true
  | .symbol _ _ _ => true
  | .freq _ .unknown | .total _ | .writeBit _ _ | .flush _ | .readBit _ => false

end Sys2Proof.Machine
end

