-- ==== Sys2Proof/Machine/Control.lean ====
section
/-! DEFINITION. ABORT and illegal words (45_host_commands.md R284, R285). -/

namespace Sys2Proof.Machine

/-- The pseudocode of ABORT (R284). -/
def abortBody (s : State) : Flow Ending := .go .normal (clearSession s)

/-- ABORT (R284). -/
def execAbort (s : State) : Host.Outcome State Fault Refusal := runCommand abortBody s

/-- A word that decodes to ILLEGAL completes at once with ILLEGAL_CMD (R285). -/
def execIllegal (s : State) : Host.Outcome State Fault Refusal := runCommand (fun s => .raised .illegalCmd s) s

end Sys2Proof.Machine
end

