-- ==== Sys2Proof/Machine/Interval.lean ====
section
/-! DEFINITION. The interval narrowing engine and the renormalization unit (41_interval_core.md), in exact natural-number
arithmetic (00_scope.md R13). -/

namespace Sys2Proof.Machine

/-- HALF = 2^(P-1) (00_scope.md R15). -/
def half (p : Nat) : Nat := 2 ^ (p - 1)

/-- QUARTER = 2^(P-2) (R15). -/
def quarter (p : Nat) : Nat := 2 ^ (p - 2)

/-- THREE_Q = 3 * 2^(P-2) (R15). -/
def threeQ (p : Nat) : Nat := 3 * 2 ^ (p - 2)

/-- TOP = 2^P - 1 (R15). -/
def top (p : Nat) : Nat := 2 ^ p - 1

/-- An inclusive interval (10_state.md R34). -/
structure Interval where
  lo : Nat
  hi : Nat
  deriving DecidableEq, Repr

/-- range = HIGH - LOW + 1 (R34). -/
def Interval.range (x : Interval) : Nat := x.hi - x.lo + 1

/-- NARROW(cl, ch, t) (R171). -/
def Interval.narrow (x : Interval) (cl ch t : Nat) : Interval :=
  { lo := x.lo + (x.range * cl) / t, hi := x.lo + (x.range * ch) / t - 1 }

/-- What R172 and R175 promise of NARROW: the interval is one, within P bits, and the narrowed interval is not empty. -/
def Interval.narrows (p : Nat) (x : Interval) (cl ch t : Nat) : Bool :=
  decide (x.lo ≤ x.hi) && decide (x.hi ≤ top p) && decide ((x.range * cl) / t < (x.range * ch) / t)

/-- VALUE(t) (R173). -/
def Interval.value (x : Interval) (code t : Nat) : Nat := ((code - x.lo + 1) * t - 1) / x.range

/-- The renormalization regimes (R176). -/
inductive Regime where
  | e1 | e2 | e3
  deriving DecidableEq, Repr

/-- CLASSIFY (R176): the first condition that holds wins. -/
def classify (p : Nat) (x : Interval) : Option Regime :=
  if x.hi < half p then some .e1
  else if half p ≤ x.lo then some .e2
  else if quarter p ≤ x.lo ∧ x.hi < threeQ p then some .e3
  else none

/-- What a regime subtracts from LOW, HIGH and CODE before doubling (R177-R180). -/
def Regime.offset (p : Nat) : Regime → Nat
  | .e1 => 0
  | .e2 => half p
  | .e3 => quarter p

/-- The transform of a regime (R177, R178, R179): HIGH gains a 1 in each. -/
def Regime.transform (p : Nat) (g : Regime) (x : Interval) : Interval :=
  { lo := 2 * (x.lo - g.offset p), hi := 2 * (x.hi - g.offset p) + 1 }

/-- The CODE update of a regime with the next bit (R180). -/
def Regime.shiftCode (p : Nat) (g : Regime) (code : Nat) (bit : Bool) : Nat := 2 * (code - g.offset p) + bit.toNat

/-- The session precision (R38). -/
def State.precision (s : State) : Nat := s.regs.prec.toNat

/-- LOW and HIGH as numbers. -/
def State.interval (s : State) : Interval := { lo := s.regs.low.toNat, hi := s.regs.high.toNat }

/-- LOW and HIGH <- x. -/
def setInterval (x : Interval) (s : State) : State :=
  { s with regs := { s.regs with low := BitVec.ofNat 64 x.lo, high := BitVec.ofNat 64 x.hi } }

/-- CODE <- v. -/
def setCode (v : Nat) (s : State) : State := { s with regs := { s.regs with code := BitVec.ofNat 64 v } }

/-- NARROW on the block's registers (R171). -/
def narrow (cl ch t : Word) (s : State) : Flow Unit :=
  if s.interval.narrows s.precision cl.toNat ch.toNat t.toNat then
    .go () (setInterval (s.interval.narrow cl.toNat ch.toNat t.toNat) s)
  else .fault .arithmetic

/-- VALUE on the block's registers (R173), which needs LOW <= CODE <= HIGH (10_state.md R57). -/
def value (t : Word) (s : State) : Flow Word :=
  if s.regs.low.toNat ≤ s.regs.code.toNat ∧ s.regs.code.toNat ≤ s.regs.high.toNat ∧ s.regs.high.toNat ≤ top s.precision then
    .go (BitVec.ofNat 64 (s.interval.value s.regs.code.toNat t.toNat)) s
  else .fault .arithmetic

/-- The regime of the current interval. -/
def State.regime (s : State) : Option Regime := classify s.precision s.interval

/-- The transform of a step on LOW and HIGH (R182). -/
def applyTransform (g : Regime) (s : State) : State := setInterval (g.transform s.precision s.interval) s

end Sys2Proof.Machine
end

