-- ==== Sys2Proof/Machine/Adaptors.lean ====
section
/-! DEFINITION. The bit sink and bit source adaptors (44_bit_adaptors.md), and the renormalization loops that use them
(41_interval_core.md R180-R182). -/

namespace Sys2Proof.Machine

/-- SinkWrite(x) (R261): an ERROR answer raises IO_ERROR, an accepted bit counts in BITCNT. -/
def sinkWrite (x : Bool) (s : State) : Flow Unit :=
  (askWriteBit x s).andThen fun a s =>
  match a with
  | .error => .raised .ioError s
  | .ok => .go () (countBit s)

/-- `n` writes of bit `x`. -/
def sinkRepeat (x : Bool) : Nat → State → Flow Unit
  | 0, s => .go () s
  | n + 1, s => (sinkWrite x s).andThen fun _ s => sinkRepeat x n s

/-- Emit(b, n) (R261): bit b, then n copies of 1 - b. -/
def emit (b : Bool) (n : Nat) (s : State) : Flow Unit :=
  (sinkWrite b s).andThen fun _ s => sinkRepeat (!b) n s

/-- SinkFlush() (R263). -/
def sinkFlush (s : State) : Flow Unit :=
  (askFlush s).andThen fun a s =>
  match a with
  | .error => .raised .ioError s
  | .ok => .go () s

/-- PADCNT <- min(PADCNT + 1, 2^64 - 1) (R266). -/
def countPad (s : State) : State := { s with regs := { s.regs with padcnt := saturatingSucc s.regs.padcnt } }

/-- EXHAUSTED <- 1, PADCNT <- 1 (R266). -/
def latchExhausted (s : State) : State := { s with regs := { s.regs with exhausted := true, padcnt := 1 } }

/-- NextBit() (R266). -/
def nextBit (s : State) : Flow Bool :=
  if s.regs.exhausted then .go Config.padBit (countPad s)
  else
    (askReadBit s).andThen fun a s =>
    match a with
    | .error => .raised .ioError s
    | .endOfInput => .go Config.padBit (latchExhausted s)
    | .bit b => .go b (countBit s)

/-- The encoder's side action of a step (R181), before the step's transform. -/
def sideAction (g : Regime) (s : State) : Flow Unit :=
  match g with
  | .e1 => (emit false s.regs.pending.toNat s).andThen fun _ s => .go () (setPending 0 s)
  | .e2 => (emit true s.regs.pending.toNat s).andThen fun _ s => .go () (setPending 0 s)
  | .e3 =>
    if s.regs.pending.toNat = pendingLimit s.build then .raised .pendingOverflow s
    else .go () (setPending (s.regs.pending + 1) s)

/-- RENORM(ENC) (R182). `fuel` bounds the steps; R183 shows that P are enough. -/
def renormEnc : Nat → State → Flow Unit
  | 0, s =>
    match s.regime with
    | none => .go () s
    | some _ => .fault .arithmetic
  | fuel + 1, s =>
    match s.regime with
    | none => .go () s
    | some g => (sideAction g s).andThen fun _ s => renormEnc fuel (applyTransform g s)

/-- The CODE update of a step (R180), which reads CODE before the step and comes after the transform (R182). -/
def shiftCode (g : Regime) (s : State) : Flow Unit :=
  (nextBit s).andThen fun bit s => .go () (setCode (g.shiftCode s.precision s.regs.code.toNat bit) s)

/-- RENORM(DEC) (R182). -/
def renormDec : Nat → State → Flow Unit
  | 0, s =>
    match s.regime with
    | none => .go () s
    | some _ => .fault .arithmetic
  | fuel + 1, s =>
    match s.regime with
    | none => .go () s
    | some g => (shiftCode g (applyTransform g s)).andThen fun _ s => renormDec fuel s

/-- DEC_START's fill (43_decoder.md R230): `n` times CODE <- 2 * CODE + NextBit(). -/
def fillCode : Nat → State → Flow Unit
  | 0, s => .go () s
  | n + 1, s =>
    (nextBit s).andThen fun bit s => fillCode n (setCode (2 * s.regs.code.toNat + bit.toNat) s)

end Sys2Proof.Machine
end

