-- ==== Sys2Proof/Machine/Decoder.lean ====
section
/-! DEFINITION. The decoder commands (43_decoder.md): DEC_START, DECODE. -/

namespace Sys2Proof.Machine

/-- The pseudocode of DEC_START (R230). -/
def decStartBody (p : Nat) (s : State) : Flow Ending :=
  (require (!s.regs.state.live) .badState s).andThen fun _ s =>
  (require (precisionOk s.build p (maxTotalOperand s)) .precision s).andThen fun _ s =>
  (fillCode p (beginSession .decode p (maxTotalOperand s) s)).andThen fun _ s =>
  .go .normal (setState .dec s)

/-- DEC_START (R230). -/
def execDecStart (p : Nat) (s : State) : Host.Outcome State Fault Refusal := runCommand (decStartBody p) s

/-- The exhaustion test of R238: no stream bit is left in CODE. -/
def streamUsedUp (s : State) : Bool := s.regs.exhausted && decide (s.precision ≤ s.regs.padcnt.toNat)

/-- The check of a TOTAL answer (40_model_port.md R157). -/
def totalValid (t maxtot : Word) : Bool := decide (1 ≤ t.toNat) && decide (t.toNat ≤ maxtot.toNat)

/-- The check of a SYMBOL answer (R157). -/
def symbolValid (a : SymbolAnswer) (v t : Word) : Bool :=
  decide (a.cl.toNat ≤ v.toNat) && decide (v.toNat < a.ch.toNat) && decide (a.ch.toNat ≤ t.toNat)

/-- DECODE from its SYMBOL answer on (R235). -/
def resolveSymbol (a : SymbolAnswer) (v t : Word) (s : State) : Flow Ending :=
  (require (symbolValid a v t) .modelProtocol s).andThen fun _ s =>
  (narrow a.cl a.ch t s).andThen fun _ s =>
  (renormDec s.precision s).andThen fun _ s =>
  let s := setResult a.symbol (countSymbol s)
  if a.eos then .go .endOfStream (setState .done s) else .go .normal s

/-- The pseudocode of DECODE (R235). -/
def decodeBody (s : State) : Flow Ending :=
  (require (decide (s.regs.state = .dec)) .badState s).andThen fun _ s =>
  if streamUsedUp s then .go .endOfStream (setState .done (setResult 0 s))
  else
    (askTotal s).andThen fun t s =>
    (require (totalValid t s.regs.maxtot) .modelProtocol s).andThen fun _ s =>
    (value t s).andThen fun v s =>
    (askSymbol v t s).andThen fun a s =>
    resolveSymbol a v t s

/-- DECODE (R235). -/
def execDecode (s : State) : Host.Outcome State Fault Refusal := runCommand decodeBody s

end Sys2Proof.Machine
end

