-- ==== Sys2Proof/Machine/Encoder.lean ====
section
/-! DEFINITION. The encoder commands (42_encoder.md): ENC_START, ENCODE, FINISH. -/

namespace Sys2Proof.Machine

/-- The pseudocode of ENC_START (R200). -/
def encStartBody (p : Nat) (s : State) : Flow Ending :=
  (require (!s.regs.state.live) .badState s).andThen fun _ s =>
  (require (precisionOk s.build p (maxTotalOperand s)) .precision s).andThen fun _ s =>
  .go .normal (setState .enc (beginSession .encode p (maxTotalOperand s) s))

/-- ENC_START (R200). -/
def execEncStart (p : Nat) (s : State) : Host.Outcome State Fault Refusal := runCommand (encStartBody p) s

/-- The check of a FREQ_OK answer (40_model_port.md R156). -/
def freqOkValid (cl ch t maxtot : Word) : Bool :=
  decide (cl.toNat < ch.toNat) && decide (ch.toNat ≤ t.toNat) && decide (t.toNat ≤ maxtot.toNat)

/-- The pseudocode of ENCODE (R205). -/
def encodeBody (s : State) : Flow Ending :=
  (require (decide (s.regs.state = .enc)) .badState s).andThen fun _ s =>
  (askFreq (symbolOperand s) s).andThen fun r s =>
  match r with
  | .unknown => .raised .unknownSymbol s
  | .freqOk cl ch t =>
    (require (freqOkValid cl ch t s.regs.maxtot) .modelProtocol s).andThen fun _ s =>
    (narrow cl ch t s).andThen fun _ s =>
    (renormEnc s.precision s).andThen fun _ s =>
    .go .normal (countSymbol s)

/-- ENCODE (R205). -/
def execEncode (s : State) : Host.Outcome State Fault Refusal := runCommand encodeBody s

/-- The bit that FINISH selects (R216): 0 if LOW < QUARTER, else 1. -/
def terminationBit (s : State) : Bool := !decide (s.regs.low.toNat < quarter s.precision)

/-- The pseudocode of FINISH (R215). -/
def finishBody (s : State) : Flow Ending :=
  (require (decide (s.regs.state = .enc)) .badState s).andThen fun _ s =>
  (require (!decide (s.regs.pending.toNat = pendingLimit s.build)) .pendingOverflow s).andThen fun _ s =>
  let s := setPending (s.regs.pending + 1) s
  (emit (terminationBit s) s.regs.pending.toNat s).andThen fun _ s =>
  (sinkFlush (setPending 0 s)).andThen fun _ s =>
  .go .normal (setState .done s)

/-- FINISH (R215). -/
def execFinish (s : State) : Host.Outcome State Fault Refusal := runCommand finishBody s

end Sys2Proof.Machine
end

