-- ==== Sys2Proof/Machine/Dispatch.lean ====
section
/-! DEFINITION. One arm for each command of the opcode map (30_encoding.md R125). -/

namespace Sys2Proof.Machine

def exec (i : Instr) (s : State) : Host.Outcome State Fault Refusal :=
  match i with
  | .encStart prec => Sys2Proof.Machine.execEncStart prec s
  | .encode => Sys2Proof.Machine.execEncode s
  | .finish => Sys2Proof.Machine.execFinish s
  | .decStart prec => Sys2Proof.Machine.execDecStart prec s
  | .decode => Sys2Proof.Machine.execDecode s
  | .abort => Sys2Proof.Machine.execAbort s

end Sys2Proof.Machine
end

