-- ==== Sys2Proof/Machine/Window.lean ====
section
/-! DEFINITION. The register window: offsets, reads, writes, bus errors (10_state.md R49-R52; 20_memory.md R80-R90;
45_host_commands.md R280-R288). -/

namespace Sys2Proof.Machine

/-- The offset of a window register (R49). -/
def WinReg.offset : WinReg → Nat
  | .caps => 0x00
  | .cmd => 0x08
  | .arg0 => 0x10
  | .status => 0x18
  | .result => 0x20
  | .low => 0x28
  | .high => 0x30
  | .code => 0x38
  | .pending => 0x40
  | .maxtot => 0x48
  | .bitcnt => 0x50
  | .symcnt => 0x58
  | .padcnt => 0x60

/-- The register at an aligned offset; none at the reserved offsets (R49, R89). -/
def regAt : Nat → Option WinReg
  | 0x00 => some .caps
  | 0x08 => some .cmd
  | 0x10 => some .arg0
  | 0x18 => some .status
  | 0x20 => some .result
  | 0x28 => some .low
  | 0x30 => some .high
  | 0x38 => some .code
  | 0x40 => some .pending
  | 0x48 => some .maxtot
  | 0x50 => some .bitcnt
  | 0x58 => some .symcnt
  | 0x60 => some .padcnt
  | _ => none

/-- The block goes on with the command in progress: the latched word is decoded and run (R280). With no command in
progress it changes nothing (60_exceptions.md R325). -/
def blockStep (s : State) : Host.Outcome State Fault Refusal :=
  if s.busy then
    match decode s.cmd with
    | .ok i => exec i s
    | .error _ => execIllegal s
  else .next s

/-- EXHAUSTED at the completion of the command in progress, where the answers at hand lead to its completion. Where the
command waits for more of them, the value from before the command, which a waiting command keeps in the registers (log 7). -/
def exhaustedAtCompletion (s : State) : Bool :=
  match blockStep s with
  | .next t => t.regs.exhausted
  | .fault _ | .refused _ => s.regs.exhausted

/-- STATUS.EXHAUSTED as read: exact between commands; while BUSY = 1 the value from before the command or its value at
completion, as a free value chooses (R286; log 7). -/
def exhaustedShown (s : State) : Bool :=
  if s.busy = false ∨ Config.freeShowsOld s.drawn = true then s.regs.exhausted else exhaustedAtCompletion s

/-- An "any value" register: exact between commands, a free value while BUSY = 1 (R286; log 6). -/
def anyWhileBusy (s : State) (exact : Word) : Word := if s.busy then Config.freeRead s.drawn else exact

/-- What a read of a register gives (R49, R286). -/
def readReg (s : State) : WinReg → Word
  | .caps => capsWord s.build
  | .cmd => 0
  | .arg0 => s.arg0
  | .status => statusWord s.regs s.busy (exhaustedShown s)
  | .result => anyWhileBusy s s.regs.result
  | .low => anyWhileBusy s (lowBits s.regs.prec.toNat s.regs.low)
  | .high => anyWhileBusy s (lowBits s.regs.prec.toNat s.regs.high)
  | .code => anyWhileBusy s (lowBits s.regs.prec.toNat s.regs.code)
  | .pending => anyWhileBusy s (lowBits s.build.pendW s.regs.pending)
  | .maxtot => s.regs.maxtot
  | .bitcnt => anyWhileBusy s s.regs.bitcnt
  | .symcnt => anyWhileBusy s s.regs.symcnt
  | .padcnt => anyWhileBusy s s.regs.padcnt

/-- What a read at an aligned offset gives; a reserved offset reads as 0 (R49, R52). -/
def readOffset (s : State) (offset : Nat) : Word :=
  match regAt offset with
  | some r => readReg s r
  | none => 0

/-- A host read: its value goes to `acc` (30_encoding.md R129), and nothing of the block changes (R288). DESIGN CHOICE:
every host read writes `acc`, one that is no `rd` line of the host's program too (log 25). -/
def hostRead (offset : Nat) (s : State) : State :=
  { s with host := { s.host with acc := readOffset s offset }, drawn := s.drawn + 1 }

/-- A host write at an aligned offset (R287): CMD starts a command or is dropped (R280, R282), ARG0 stores, any other
offset ignores it. -/
def hostWrite (offset : Nat) (v : Word) (s : State) : State :=
  match regAt offset with
  | some .cmd => if s.busy then dropCommand s else startCommand v s
  | some .arg0 => { s with arg0 := v }
  | some .caps | some .status | some .result | some .low | some .high | some .code | some .pending | some .maxtot
  | some .bitcnt | some .symcnt | some .padcnt | none => s

/-- The window has 128 bytes (R80). -/
def windowBytes : Nat := 128

/-- A host access of any form (R83, R84): only 8 bytes at a multiple of 8 are served; anything else is a bus error. A read
writes `acc` as an `rd` line does (DESIGN CHOICE, log 25). -/
def hostAccess (a : Access) (s : State) : Host.Outcome State Fault Refusal :=
  if a.addr < s.build.windowBase ∨ s.build.windowBase + windowBytes ≤ a.addr then .fault (.outsideWindow a.addr)
  else
    let offset := a.addr - s.build.windowBase
    if offset % 8 = 0 ∧ a.bytes = 8 then
      match a.write with
      | some v => .next (hostWrite offset v s)
      | none => .next (hostRead offset s)
    else .fault (.busError offset a.bytes)

/-- Byte lane k of a window register, bits 8k+7 .. 8k (20_memory.md R86). -/
def byteLane (k : Nat) (v : Word) : Byte := v.extractLsb' (8 * k) 8

end Sys2Proof.Machine
end

