-- ==== Sys2Proof/Machine/HostRun.lean ====
section
/-! DEFINITION. The host's machine instructions (30_encoding.md R129). -/

namespace Sys2Proof.Machine

/-- The host's program counter moves to line `n`. -/
def hostGoto (n : Nat) (s : State) : State := { s with host := { s.host with pc := n } }

/-- One host machine instruction (R129). -/
def hostInstr (i : HostInstr) (s : State) : State :=
  match i with
  | .wr reg imm => hostGoto (s.host.pc + 1) (hostWrite reg.offset imm s)
  | .rd reg => hostGoto (s.host.pc + 1) (hostRead reg.offset s)
  | .jbs k target => hostGoto (if s.host.acc.getLsb k then target else s.host.pc + 1) s
  | .jbc k target => hostGoto (if s.host.acc.getLsb k then s.host.pc + 1 else target) s
  | .jmp target => hostGoto target s
  | .halt => { s with host := { s.host with halted := true } }

/-- The host executes its next line. After `halt` its program has ended (R129) and it does nothing; nor does a host that has no
next line (DESIGN CHOICE, log 13). -/
def hostStep (s : State) : State :=
  if s.host.halted then s
  else
    match s.host.prog[s.host.pc]? with
    | some i => hostInstr i s
    | none => s

end Sys2Proof.Machine
end

