-- ==== Sys2Proof/Machine/Step.lean ====
section
/-! DEFINITION. One step of the whole machine: the block, the host, reset, or an agent (45_host_commands.md R280, R281). -/

namespace Sys2Proof.Machine

/-- One event from outside or inside the block. -/
def inputStep (x : Input) (s : State) : Host.Outcome State Fault Refusal :=
  match x with
  | .block => blockStep s
  | .host => .next (hostStep s)
  | .access a => hostAccess a s
  | .reset => .next (resetBlock s)
  | .answer a => .next (deliver a s)
  | .late t => .next (lateAnswer t s)

/-- The oldest input happens. With none left, a command in progress goes on, and otherwise the host does (log 4). -/
def step (s : State) : Host.Outcome State Fault Refusal :=
  match s.inputs with
  | x :: rest => inputStep x { s with inputs := rest }
  | [] => if s.busy then blockStep s else .next (hostStep s)

/-- `s` just after a CMD write of the opcode-table word has started a command (R280), with the block moving next. -/
def State.withFetchWord (s : State) (nbits w : Nat) : State :=
  { startCommand (tableWord nbits w) s with inputs := .block :: s.inputs }

end Sys2Proof.Machine
end

