-- ==== Sys2Proof/Machine/HostAsm.lean ====
section
/-! DEFINITION. The host assembler (30_encoding.md R129-R136): pseudo-instruction expansions, labels, refusals. -/

namespace Sys2Proof.Machine

/-- How many host instructions a line becomes (R129-R135). -/
def Line.size : Line → Nat
  | .label _ => 0
  | .wr _ _ | .rd _ | .jbs _ _ | .jbc _ _ | .jmp _ | .halt | .result => 1
  | .wait => 2
  | .finish | .decode | .abort | .checkOk _ => 3
  | .encStart _ _ | .encode _ | .decStart _ _ => 4

/-- The label a line defines. -/
def Line.defines : Line → Option Nat
  | .label l => some l
  | .wr _ _ | .rd _ | .jbs _ _ | .jbc _ _ | .jmp _ | .halt | .wait | .encStart _ _ | .encode _ | .finish | .decStart _ _
  | .decode | .abort | .checkOk _ | .result => none

/-- How many lines define label `l`. -/
def definitions (l : Nat) (lines : List Line) : Nat := lines.countP fun x => decide (x.defines = some l)

/-- The instruction number of label `l`, the next line after its definition (R129), counting from `at_`. -/
def labelTarget (l : Nat) : Nat → List Line → Option Nat
  | _, [] => none
  | at_, x :: xs => if x.defines = some l then some at_ else labelTarget l (at_ + x.size) xs

/-- A 64-bit literal; 2^64 or more is refused, never truncated (R130). -/
def immOf (n : Nat) : Except AsmReason Word := if n < 2 ^ 64 then .ok (BitVec.ofNat 64 n) else .error .immTooLarge

/-- A PREC operand; 128 or more is refused (R130). -/
def precOf (p : Nat) : Except AsmReason Nat := if p < 128 then .ok p else .error .precTooLarge

/-- A bit number of `acc`. -/
def bitOf (k : Nat) : Except AsmReason (Fin 64) := if h : k < 64 then .ok ⟨k, h⟩ else .error .bitNumberTooLarge

/-- The instruction number of a label that is defined exactly once (R130). A line that uses any other label is refused
(DESIGN CHOICE, log 26: R130 does not say which line a refused label's error names). -/
def targetOf (lines : List Line) (l : Nat) : Except AsmReason Nat :=
  match labelTarget l 0 lines with
  | none => .error .labelUndefined
  | some n => if definitions l lines = 1 then .ok n else .error .labelDefinedTwice

/-- `wait` as the instructions from number `at_` on (R131). -/
def waitCode (at_ : Nat) : List HostInstr := [.rd .status, .jbs 3 at_]

/-- A command without an operand: CMD, then `wait` (R132). -/
def commandCode (at_ : Nat) (i : Instr) : List HostInstr := .wr .cmd (encode i) :: waitCode (at_ + 1)

/-- A command with an operand: ARG0, CMD, then `wait` (R132). -/
def operandCode (at_ : Nat) (arg : Word) (i : Instr) : List HostInstr := .wr .arg0 arg :: commandCode (at_ + 1) i

/-- The instructions of one line that begins at instruction number `at_` (R129-R135). Each line that defines a label
defined twice is refused, as is each line that uses it (DESIGN CHOICE, log 26). -/
def Line.code (lines : List Line) (at_ : Nat) : Line → Except AsmReason (List HostInstr)
  | .label l => if definitions l lines = 1 then .ok [] else .error .labelDefinedTwice
  | .wr reg n => (immOf n).map fun v => [.wr reg v]
  | .rd reg => .ok [.rd reg]
  | .jbs k l => (bitOf k).bind fun k => (targetOf lines l).map fun n => [.jbs k n]
  | .jbc k l => (bitOf k).bind fun k => (targetOf lines l).map fun n => [.jbc k n]
  | .jmp l => (targetOf lines l).map fun n => [.jmp n]
  | .halt => .ok [.halt]
  | .wait => .ok (waitCode at_)
  | .encStart p m => (precOf p).bind fun p => (immOf m).map fun m => operandCode at_ m (.encStart p)
  | .encode v => (immOf v).map fun v => operandCode at_ v .encode
  | .finish => .ok (commandCode at_ .finish)
  | .decStart p m => (precOf p).bind fun p => (immOf m).map fun m => operandCode at_ m (.decStart p)
  | .decode => .ok (commandCode at_ .decode)
  | .abort => .ok (commandCode at_ .abort)
  | .checkOk lerr => (targetOf lines lerr).map fun n => [.jbs 8 n, .jbs 9 n, .jbs 10 n]
  | .result => .ok [.rd .result]

/-- The code of the lines from line `number` on, which begin at instruction number `at_`. -/
def assembleFrom (lines : List Line) : Nat → Nat → List Line → Except AsmError (List HostInstr)
  | _, _, [] => .ok []
  | number, at_, x :: xs =>
    match x.code lines at_ with
    | .error r => .error { line := number, reason := r }
    | .ok code =>
      match assembleFrom lines (number + 1) (at_ + x.size) xs with
      | .error e => .error e
      | .ok rest => .ok (code ++ rest)

/-- The assembler: a program, or the first line it refuses (R130). DESIGN CHOICE: of several lines to refuse the earliest is
named, so a label defined twice names the first line that uses or defines it (log 26). -/
def assemble (lines : List Line) : Except AsmError (List HostInstr) := assembleFrom lines 0 0 lines

/-- The decode_all idiom (R136) with its three labels. -/
def decodeAll (la ld lerr : Nat) : List Line :=
  [.label la, .decode, .jbs 4 ld, .checkOk lerr, .result, .jmp la, .label ld]

end Sys2Proof.Machine
end

