-- ==== Sys2Proof/Machine/Packing.lean ====
section
/-! DEFINITION. The platform's byte packing of a bitstream (20_memory.md R88), which a sink and source pair keeps. No rule of
the block uses it. -/

namespace Sys2Proof.Machine

/-- A byte from its bits, stream bit m at bit 7 - m; a missing bit is 0 (R88). -/
def packByte (bits : List Bool) : Byte :=
  BitVec.ofBool (bits.getD 0 false) ++ BitVec.ofBool (bits.getD 1 false) ++ BitVec.ofBool (bits.getD 2 false) ++
    BitVec.ofBool (bits.getD 3 false) ++ BitVec.ofBool (bits.getD 4 false) ++ BitVec.ofBool (bits.getD 5 false) ++
    BitVec.ofBool (bits.getD 6 false) ++ BitVec.ofBool (bits.getD 7 false)

/-- The bits of a byte, bit 7 first (R88). -/
def unpackByte (b : Byte) : List Bool :=
  [b.getLsbD 7, b.getLsbD 6, b.getLsbD 5, b.getLsbD 4, b.getLsbD 3, b.getLsbD 2, b.getLsbD 1, b.getLsbD 0]

/-- Packing, eight bits a byte, the last byte filled with 0 (R88). -/
def packBits : List Bool → List Byte
  | b0 :: b1 :: b2 :: b3 :: b4 :: b5 :: b6 :: b7 :: rest => packByte [b0, b1, b2, b3, b4, b5, b6, b7] :: packBits rest
  | [] => []
  | tail => [packByte tail]

/-- Unpacking in the same order (R88). -/
def unpackBytes (bytes : List Byte) : List Bool := bytes.flatMap unpackByte

end Sys2Proof.Machine
end

