-- ==== Sys2Proof/Safety.lean ====
section
/-! DEFINITION. What the spec promises of every state between events (10_state.md R56-R58), what it asks of the agents
(40_model_port.md R150-R152, R157), and the clear form of renormalization that the commands are compared with. -/

namespace Sys2Proof.Machine

/-- No regime applies and LOW < HIGH <= TOP: the interval between commands of a live session (R56). -/
def Interval.settled (p : Nat) (x : Interval) : Bool :=
  decide (x.lo < x.hi) && decide (x.hi ≤ top p) && decide (classify p x = none)

/-- The whole interval [0, 2^P - 1] (R35). -/
def Interval.whole (p : Nat) : Interval := { lo := 0, hi := top p }

/-- The session registers, all zero as IDLE has them (R58). OVERRUN, EOS and ERR are not among them. -/
def Regs.cleared (r : Regs) : Bool :=
  decide (r = { Regs.reset with state := r.state, eos := r.eos, overrun := r.overrun, err := r.err })

/-- What holds of the block's registers at every event: the widths of R32, R33, R36 and R37, R56, R57, R58, and what the
session registers hold. -/
structure Regs.Inv (b : Build) (r : Regs) : Prop where
  low : r.low.toNat < 2 ^ r.prec.toNat
  high : r.high.toNat < 2 ^ r.prec.toNat
  code : r.code.toNat < 2 ^ r.prec.toNat
  pending : r.pending.toNat ≤ pendingLimit b
  operands : r.state.live = true → precisionOk b r.prec.toNat r.maxtot = true
  interval : r.state.live = true → Interval.settled r.prec.toNat { lo := r.low.toNat, hi := r.high.toNat } = true
  encKind : r.state = .enc → r.kind = .encode
  decKind : r.state = .dec → r.kind = .decode
  encode : r.kind = .encode → r.code = 0 ∧ r.exhausted = false
  decode : r.kind = .decode → r.pending = 0
  inside : r.state = .dec → r.low.toNat ≤ r.code.toNat ∧ r.code.toNat ≤ r.high.toNat
  idle : r.state = .idle → r.cleared = true
  pad : r.exhausted = false → r.padcnt = 0

/-- The invariant of the machine: legal build parameters (R6, R7), the registers' invariant, and no port activity between
commands. -/
structure State.Inv (s : State) : Prop where
  build : s.build.wf = true
  regs : s.regs.Inv s.build
  quiet : s.busy = false → s.live = [] ∧ s.outstanding = none

/-- The host is about to execute line `i` of its program (30_encoding.md R129). -/
def State.hostRuns (s : State) (i : HostInstr) : Prop :=
  s.host.halted = false ∧ s.host.prog[s.host.pc]? = some i

/-- The host moves next, in state `u`: the oldest input names it, or no input is left and no command is in progress (DESIGN
CHOICE, log 4). -/
def State.hostMoves (s u : State) : Prop :=
  (∃ rest, s.inputs = .host :: rest ∧ u = { s with inputs := rest }) ∨ (s.inputs = [] ∧ s.busy = false ∧ u = s)

/-- The next step is the host's write of `v` at an offset, made in state `t`: an aligned 8-byte access (20_memory.md R83), or
a `wr` line of its program (30_encoding.md R129), after which the host is at its next line. -/
def State.hostWrites (s : State) (offset : Nat) (v : Word) (t : State) : Prop :=
  (∃ a rest, s.inputs = .access a :: rest ∧ a.addr = s.build.windowBase + offset ∧ offset < windowBytes ∧ offset % 8 = 0 ∧
    a.bytes = 8 ∧ a.write = some v ∧ t = { s with inputs := rest }) ∨
  ∃ (u : State) (reg : WinReg), s.hostMoves u ∧ s.hostRuns (.wr reg v) ∧ reg.offset = offset ∧
    t = hostGoto (s.host.pc + 1) u

/-- A line of a program keeps the operand rules of 30_encoding.md R130: a literal below 2^64, a PREC operand below 128, and
each label it defines or uses defined exactly once. That a bit number is below 64 is log 13 (DESIGN CHOICE), and that a line
which uses a label defined twice breaks the rule too is log 26 (DESIGN CHOICE). -/
def Line.keepsRules (lines : List Line) : Line → Bool
  | .label l | .jmp l | .checkOk l => decide (definitions l lines = 1)
  | .jbs k l | .jbc k l => decide (k < 64) && decide (definitions l lines = 1)
  | .wr _ n | .encode n => decide (n < 2 ^ 64)
  | .encStart p m | .decStart p m => decide (p < 128) && decide (m < 2 ^ 64)
  | .rd _ | .halt | .wait | .finish | .decode | .abort | .result => true

/-- The command in progress waits at request `q`, after the transactions `made`: BUSY = 1, and nothing else has changed
(40_model_port.md R161; 44_bit_adaptors.md R264, R270; 45_host_commands.md R281, R286). -/
def State.waitsAt (s : State) (q : Request) (made : List Transaction) : State :=
  { s with busy := true, live := made, outstanding := some q }

/-- The contract of a FREQ answer (R150): 0 <= cl < ch <= t <= 2^(P-2), or UNKNOWN. -/
def FreqAnswer.meetsContract (p : Nat) : FreqAnswer → Bool
  | .freqOk cl ch t => decide (cl.toNat < ch.toNat) && decide (ch.toNat ≤ t.toNat) && decide (t.toNat ≤ 2 ^ (p - 2))
  | .unknown => true

/-- The regimes RENORM applies from an interval on, in order (R182). -/
def regimes (p : Nat) : Nat → Interval → List Regime
  | 0, _ => []
  | fuel + 1, x =>
    match classify p x with
    | none => []
    | some g => g :: regimes p fuel (g.transform p x)

/-- The interval after RENORM (R182). -/
def renormalized (p : Nat) (x : Interval) (gs : List Regime) : Interval := gs.foldl (fun x g => g.transform p x) x

/-- The bits the encoder writes over a list of regimes that begins with `pend` pending bits (R181). -/
def encBits : Nat → List Regime → List Bool
  | _, [] => []
  | pend, .e1 :: gs => (false :: List.replicate pend true) ++ encBits 0 gs
  | pend, .e2 :: gs => (true :: List.replicate pend false) ++ encBits 0 gs
  | pend, .e3 :: gs => encBits (pend + 1) gs

/-- PENDING after a list of regimes (R181). -/
def encPending : Nat → List Regime → Nat
  | pend, [] => pend
  | _, .e1 :: gs => encPending 0 gs
  | _, .e2 :: gs => encPending 0 gs
  | pend, .e3 :: gs => encPending (pend + 1) gs

/-- No E3 step finds PENDING at its limit (R181). -/
def pendingFits (limit : Nat) : Nat → List Regime → Bool
  | _, [] => true
  | _, .e1 :: gs => pendingFits limit 0 gs
  | _, .e2 :: gs => pendingFits limit 0 gs
  | pend, .e3 :: gs => decide (pend ≠ limit) && pendingFits limit (pend + 1) gs

/-- The sink accepts the next `n` requests. -/
def sinkServes (n : Nat) (answers : List SinkAnswer) : Bool := decide (answers.take n = List.replicate n .ok)

/-- The state after the sink has accepted the bits, in order (R261, R262). -/
def wroteBits (bits : List Bool) (s : State) : State :=
  { s with
    regs := { s.regs with bitcnt := s.regs.bitcnt + BitVec.ofNat 64 bits.length }
    ports := { s.ports with sink := s.ports.sink.drop bits.length }
    live := s.live ++ bits.map fun b => .writeBit b .ok }

/-- The source side of NextBit as data: EXHAUSTED, PADCNT, BITCNT, the source's coming answers, and the READ_BIT
transactions made (R266). -/
structure BitSide where
  exhausted : Bool
  padcnt : Word
  bitcnt : Word
  answers : List SourceAnswer
  reads : List Transaction
  deriving DecidableEq, Repr

/-- The source side of a state, before any READ_BIT. -/
def State.bitSide (s : State) : BitSide :=
  { exhausted := s.regs.exhausted, padcnt := s.regs.padcnt, bitcnt := s.regs.bitcnt, answers := s.ports.source, reads := [] }

/-- The state with a source side. -/
def withBitSide (b : BitSide) (s : State) : State :=
  { s with
    regs := { s.regs with exhausted := b.exhausted, padcnt := b.padcnt, bitcnt := b.bitcnt }
    ports := { s.ports with source := b.answers }
    live := s.live ++ b.reads }

/-- The next bit and the source side after it (R266); none where the source answers ERROR or does not answer. -/
def BitSide.next (b : BitSide) : Option (Bool × BitSide) :=
  if b.exhausted then some (false, { b with padcnt := saturatingSucc b.padcnt })
  else
    match b.answers with
    | .bit x :: rest =>
      some (x, { b with bitcnt := b.bitcnt + 1, answers := rest, reads := b.reads ++ [.readBit (.bit x)] })
    | .endOfInput :: rest =>
      some (false, { b with exhausted := true, padcnt := 1, answers := rest, reads := b.reads ++ [.readBit .endOfInput] })
    | .error :: _ => none
    | [] => none

/-- The next `n` bits and the source side after them. -/
def BitSide.take : Nat → BitSide → Option (List Bool × BitSide)
  | 0, b => some ([], b)
  | n + 1, b =>
    match b.next with
    | none => none
    | some (x, b) =>
      match b.take n with
      | none => none
      | some (xs, b) => some (x :: xs, b)

/-- CODE after a list of regimes, one bit a step (R180). -/
def shiftedCode (p : Nat) : Nat → List (Regime × Bool) → Nat
  | code, [] => code
  | code, (g, bit) :: rest => shiftedCode p (g.shiftCode p code bit) rest

/-- A list of bits as a number, the first bit the most significant (20_memory.md R87). -/
def bitsValue (bits : List Bool) : Nat := bits.foldl (fun v b => 2 * v + b.toNat) 0

end Sys2Proof.Machine
end

