-- ==== Sys2Proof/Certificates/Slice0/Obligations.lean ====
section
/-! DEFINITION. The statements about the machine, from the numbered rules of spec/. -/

open Sys2Proof Sys2Proof.Machine

/-! ## Command words -/

/-- R120, R125: decoding the word of a well-formed command gives the command back, with every PREC value. -/
def Obligations.DecodingUndoesEncoding : Prop :=
  ∀ i : Instr, i.wf = true → decode (encode i) = .ok i

/-- R124, R125: a word decodes to a command only as that command's own word, which fits the command's row of the table. -/
def Obligations.DecodedWordIsTheCommandsWord : Prop :=
  ∀ (w : Word) (i : Instr), decode w = .ok i →
    i.wf = true ∧ encode i = w ∧ i.row ∈ opcodeRows ∧ i.row.fits w = true

/-- R125, R126: a word is ILLEGAL exactly when it fits no row of the table of word patterns. -/
def Obligations.IllegalWordsFitNoRow : Prop :=
  ∀ w : Word, (∃ e, decode w = .error e) ↔ ∀ r ∈ opcodeRows, r.fits w = false

/-- Words written out from R120 and R125, and the illegal words of vectors V-E1 and V-H1. -/
def Obligations.SampleWordsDecode : Prop :=
  decode 0x0000000000000801#64 = .ok (.encStart 8) ∧ decode 0x0000000000004001#64 = .ok (.encStart 64) ∧
  decode 0x0000000000000002#64 = .ok .encode ∧ decode 0x0000000000000003#64 = .ok .finish ∧
  decode 0x0000000000000811#64 = .ok (.decStart 8) ∧ decode 0x0000000000000012#64 = .ok .decode ∧
  decode 0x0000000000000020#64 = .ok .abort ∧ decode 0x0000000000008801#64 = .error (.reservedBits 0x01#8) ∧
  decode 0x0000000000000102#64 = .error (.reservedBits 0x02#8) ∧
  decode 0x0000000000000004#64 = .error (.unassignedOpcode 0x04#8)

/-! ## Steps -/

/-- R280: with a command in progress and the block moving next (named by the oldest input, or because no input is left),
a step runs the latched word's command. That the block moves when no input is left is the model's choice (log 4). -/
def Obligations.StepRunsTheLatchedCommand : Prop :=
  ∀ (s : State) (i : Instr), s.busy = true → decode s.cmd = .ok i →
    (∀ rest, s.inputs = .block :: rest → step s = exec i { s with inputs := rest }) ∧
    (s.inputs = [] → step s = exec i s)

/-- R280, and the model's choice of log 14: withFetchWord makes a CMD write and puts the block next, so the very next step
runs the word, on ARG0 as latched. -/
def Obligations.StepRunsAFetchedWord : Prop :=
  ∀ (s : State) (nbits w : Nat) (i : Instr), decodeTableWord nbits w = some i →
    step (s.withFetchWord nbits w) = exec i (startCommand (tableWord nbits w) s)

/-- R285: an illegal word completes with ILLEGAL_CMD, makes no port transaction and changes nothing but ERR, EOS and BUSY.
The block moves next because the oldest input names it or, the model's choice of log 4, because no input is left. -/
def Obligations.IllegalWordCompletesWithIllegalCmd : Prop :=
  ∀ (s : State) (e : DecodeError), s.busy = true → decode s.cmd = .error e →
    (∀ rest, s.inputs = .block :: rest →
      step s = .next { s with
        inputs := rest, busy := false, live := [], outstanding := none
        regs := { s.regs with err := .illegalCmd, eos := false } }) ∧
    (s.inputs = [] →
      step s = .next { s with
        busy := false, live := [], outstanding := none
        regs := { s.regs with err := .illegalCmd, eos := false } })

/-- R280, R43: a CMD write between commands, by an access or by a `wr` line, sets BUSY and latches ARG0 and the word; it
changes no other register. That a host runs a `wr` line when no input is left is the model's choice (log 4). -/
def Obligations.CmdWriteStartsACommand : Prop :=
  ∀ (s : State) (v : Word), s.busy = false → s.live = [] → s.outstanding = none →
    hostWrite WinReg.cmd.offset v s = { s with busy := true, argL := s.arg0, cmd := v } ∧
    ∀ t, s.hostWrites WinReg.cmd.offset v t → step s = .next { t with busy := true, argL := s.arg0, cmd := v }

/-- R282: a CMD write while BUSY = 1, by an access or by a `wr` line, sets OVERRUN and changes nothing else. -/
def Obligations.CmdWriteWhileBusyIsDropped : Prop :=
  ∀ (s : State) (v : Word), s.busy = true →
    hostWrite WinReg.cmd.offset v s = { s with regs := { s.regs with overrun := true } } ∧
    ∀ t, s.hostWrites WinReg.cmd.offset v t → step s = .next { t with regs := { s.regs with overrun := true } }

/-- R287: a write to ARG0, by an access or by a `wr` line, stores the value at any time; a write at any offset but CMD's and
ARG0's is ignored. That a host runs a `wr` line when no input is left is the model's choice (log 4). -/
def Obligations.OtherHostWritesChangeOnlyArg0 : Prop :=
  ∀ (s : State) (v : Word),
    (hostWrite WinReg.arg0.offset v s = { s with arg0 := v } ∧
      ∀ t, s.hostWrites WinReg.arg0.offset v t → step s = .next { t with arg0 := v }) ∧
    ∀ offset, offset ≠ WinReg.cmd.offset → offset ≠ WinReg.arg0.offset →
      hostWrite offset v s = s ∧ ∀ t, s.hostWrites offset v t → step s = .next t

/-- R84, R313: a misaligned access, or one that is not 8 bytes wide, stops the run with a bus error. -/
def Obligations.UnsupportedAccessIsABusError : Prop :=
  ∀ (s : State) (a : Access) (offset : Nat) (rest : List Input),
    s.inputs = .access a :: rest → a.addr = s.build.windowBase + offset → offset < 128 →
    (offset % 8 ≠ 0 ∨ a.bytes ≠ 8) → step s = .fault (.busError offset a.bytes)

/-- R83, R129, R288: an aligned 8-byte read, by an access or by an `rd` line, changes no state of the block or the ports. That
its value goes to `acc` follows R129 for an `rd` line and log 25 for any other read; `drawn` is the model's own counter
(log 6); that a host runs an `rd` line when no input is left is the model's choice (log 4). -/
def Obligations.ReadsHaveNoSideEffects : Prop :=
  (∀ (s : State) (a : Access) (offset : Nat) (rest : List Input),
    s.inputs = .access a :: rest → a.addr = s.build.windowBase + offset → offset < 128 → offset % 8 = 0 → a.bytes = 8 →
    a.write = none →
    step s = .next { s with
      inputs := rest, drawn := s.drawn + 1
      host := { s.host with acc := readOffset s offset } }) ∧
  ∀ (s u : State) (reg : WinReg), s.hostMoves u → s.hostRuns (.rd reg) →
    step s = .next { u with
      drawn := s.drawn + 1
      host := { s.host with acc := readOffset s reg.offset, pc := s.host.pc + 1 } }

/-- R49, R52: what the host reads between commands, in every state that meets the invariant; CMD and the reserved offsets
read as 0. -/
def Obligations.WindowReadsBetweenCommands : Prop :=
  ∀ s : State, s.Inv → s.busy = false →
    readOffset s 0x00 = capsWord s.build ∧ readOffset s 0x10 = s.arg0 ∧ readOffset s 0x18 = statusWord s.regs false s.regs.exhausted ∧
    readOffset s 0x20 = s.regs.result ∧ readOffset s 0x28 = s.regs.low ∧ readOffset s 0x30 = s.regs.high ∧
    readOffset s 0x38 = s.regs.code ∧ readOffset s 0x40 = s.regs.pending ∧ readOffset s 0x48 = s.regs.maxtot ∧
    readOffset s 0x50 = s.regs.bitcnt ∧ readOffset s 0x58 = s.regs.symcnt ∧ readOffset s 0x60 = s.regs.padcnt ∧
    readOffset s 0x08 = 0 ∧ readOffset s 0x68 = 0 ∧ readOffset s 0x70 = 0 ∧ readOffset s 0x78 = 0

/-- R50: the fields of the STATUS word, with the codes of R31, R46 and R300. -/
def Obligations.StatusWordFields : Prop :=
  ∀ (r : Regs) (busy exhausted : Bool),
    (statusWord r busy exhausted).extractLsb' 0 3 =
      (match r.state with | .idle => 0#3 | .enc => 1#3 | .dec => 2#3 | .done => 3#3 | .failed => 4#3) ∧
    (statusWord r busy exhausted).extractLsb' 3 1 = BitVec.ofBool busy ∧
    (statusWord r busy exhausted).extractLsb' 4 1 = BitVec.ofBool r.eos ∧
    (statusWord r busy exhausted).extractLsb' 5 1 = (match r.kind with | .encode => 0#1 | .decode => 1#1) ∧
    (statusWord r busy exhausted).extractLsb' 6 1 = BitVec.ofBool r.overrun ∧
    (statusWord r busy exhausted).extractLsb' 7 1 = BitVec.ofBool exhausted ∧
    (statusWord r busy exhausted).extractLsb' 8 8 =
      (match r.err with
        | .ok => 0x00#8 | .illegalCmd => 0x01#8 | .badState => 0x02#8 | .precision => 0x03#8 | .unknownSymbol => 0x04#8
        | .modelProtocol => 0x05#8 | .ioError => 0x06#8 | .pendingOverflow => 0x07#8) ∧
    (statusWord r busy exhausted).extractLsb' 16 7 = r.prec ∧
    (statusWord r busy exhausted).extractLsb' 23 41 = 0

/-- R286: reads while BUSY = 1. CAPS, ARG0 and MAXTOT are exact, CMD and the reserved offsets read 0, STATUS shows BUSY and
the values from before the command, and EXHAUSTED its value from before the command or, where the command now completes, its
value then (for a command that waits: log 7). R39: in a DECODE with EXHAUSTED set, STATUS shows it set. -/
def Obligations.ReadsWhileBusy : Prop :=
  ∀ s : State, s.busy = true →
    readReg s .caps = capsWord s.build ∧ readReg s .arg0 = s.arg0 ∧ readReg s .maxtot = s.regs.maxtot ∧
    readReg s .cmd = 0 ∧ readOffset s 0x68 = 0 ∧ readOffset s 0x70 = 0 ∧ readOffset s 0x78 = 0 ∧
    (∃ x, readReg s .status = statusWord s.regs true x ∧
      (x = s.regs.exhausted ∨ ∃ t, blockStep s = .next t ∧ t.busy = false ∧ x = t.regs.exhausted)) ∧
    (decode s.cmd = .ok .decode → s.regs.exhausted = true → readReg s .status = statusWord s.regs true true)

/-- R289, R286, R161, R264, R270, R281: a command that meets an unanswered request stays in progress; no register update is
visible; and it waits for ever if no answer comes: running it again changes nothing more. The clauses after the first are
the requests, one by one: with the checks before a request passed and no answer for it, the command waits at it, after the
transactions it has made. That a waiting command keeps the coming answers and runs again from its first line is log 3
(DEDUCED). -/
def Obligations.UnansweredRequestHangs : Prop :=
  (∀ (i : Instr) (s t : State), s.busy = true → exec i s = .next t → t.busy = true →
    t.regs = s.regs ∧ t.ports = s.ports ∧ t.outstanding ≠ none ∧ exec i t = .next t) ∧
  -- FREQ of ENCODE (R205)
  (∀ s : State, s.regs.state = .enc → s.ports.freq = [] → exec .encode s = .next (s.waitsAt (.freq s.argL) [])) ∧
  -- WRITE_BIT of ENCODE, after `k` accepted bits (R205, R181)
  (∀ (s : State) (cl ch t : Word) (fs : List FreqAnswer) (x : Interval) (done : List Regime) (g : Regime)
    (later : List Regime) (bits : List Bool) (k : Nat) (hk : k < bits.length),
    s.Inv → s.regs.state = .enc → s.ports.freq = .freqOk cl ch t :: fs →
    cl.toNat < ch.toNat → ch.toNat ≤ t.toNat → t.toNat ≤ s.regs.maxtot.toNat →
    x = s.interval.narrow cl.toNat ch.toNat t.toNat → regimes s.precision s.precision x = done ++ g :: later →
    pendingFits (pendingLimit s.build) s.regs.pending.toNat done = true →
    bits = encBits s.regs.pending.toNat (done ++ [g]) → (encBits s.regs.pending.toNat done).length ≤ k →
    s.ports.sink = List.replicate k .ok →
    exec .encode s = .next (s.waitsAt (.writeBit bits[k])
      (.freq s.argL (.freqOk cl ch t) :: (bits.take k).map fun b => .writeBit b .ok))) ∧
  -- WRITE_BIT and FLUSH of FINISH, after `k` accepted bits (R215)
  (∀ (s : State) (b : Bool) (bits : List Bool) (k : Nat), s.regs.state = .enc →
    s.regs.pending.toNat < pendingLimit s.build → s.build.wf = true →
    b = !decide (s.regs.low.toNat < quarter s.precision) → bits = b :: List.replicate (s.regs.pending.toNat + 1) (!b) →
    k ≤ s.regs.pending.toNat + 2 → s.ports.sink = List.replicate k .ok →
    exec .finish s = .next (s.waitsAt (if h : k < bits.length then .writeBit bits[k] else .flush)
      ((bits.take k).map fun b => .writeBit b .ok))) ∧
  -- READ_BIT of DEC_START's fill (R230)
  (∀ (s : State) (p : Nat) (stream : List Bool), s.regs.state ≠ .enc → s.regs.state ≠ .dec →
    2 ≤ p → p ≤ s.build.pmax → 1 ≤ s.argL.toNat → s.argL.toNat ≤ 2 ^ (p - 2) → stream.length < p →
    s.ports.source = stream.map .bit →
    exec (.decStart p) s = .next (s.waitsAt .readBit (stream.map fun b => .readBit (.bit b)))) ∧
  -- TOTAL, SYMBOL and READ_BIT of DECODE (R235)
  ∀ s : State, s.Inv → s.regs.state = .dec → ¬ (s.regs.exhausted = true ∧ s.precision ≤ s.regs.padcnt.toNat) →
    (s.ports.total = [] → exec .decode s = .next (s.waitsAt .total [])) ∧
    ∀ (t : Word) (ts : List Word) (v : Word), s.ports.total = t :: ts → 1 ≤ t.toNat → t.toNat ≤ s.regs.maxtot.toNat →
      v = BitVec.ofNat 64 (s.interval.value s.regs.code.toNat t.toNat) →
      (s.ports.symbol = [] → exec .decode s = .next (s.waitsAt (.symbol v t) [.total t])) ∧
      ∀ (a : SymbolAnswer) (as : List SymbolAnswer) (x : Interval) (stream : List Bool), s.ports.symbol = a :: as →
        a.cl.toNat ≤ v.toNat → v.toNat < a.ch.toNat → a.ch.toNat ≤ t.toNat →
        x = s.interval.narrow a.cl.toNat a.ch.toNat t.toNat → s.regs.exhausted = false →
        stream.length < (regimes s.precision s.precision x).length → s.ports.source = stream.map .bit →
        exec .decode s = .next (s.waitsAt .readBit
          (.total t :: .symbol v t a :: stream.map fun b => .readBit (.bit b)))

/-- R340, R60, R342: reset at any time sets every register to its value of R60 and ends any command; CAPS is not reset. The
step is `resetBlock`, in the state less that input. -/
def Obligations.ResetInputSetsEveryRegister : Prop :=
  ∀ (s : State) (rest : List Input), s.inputs = .reset :: rest →
    ∃ t, step s = .next t ∧ t = resetBlock { s with inputs := rest } ∧ t.regs = Regs.reset ∧ t.arg0 = 0 ∧ t.argL = 0 ∧
      t.busy = false ∧ t.live = [] ∧ t.outstanding = none ∧ (∀ r : WinReg, r ≠ .caps → readReg t r = 0) ∧ readReg t .caps = readReg s .caps

/-- R340, R341: reset leaves the agents as they are: what was asked of the model, the sink and the source stays done, the
answers it used are gone, and the others are still to come. The block ignores the response to an abandoned request: one that
comes late changes no register, starts nothing and uses no answer, and one that came before the reset leaves no answer for a
later command. What becomes of the abandoned command's transactions is log 9 (DEDUCED); that the host stays as it is, log 13
(DESIGN CHOICE); where a late response stands in the trace, at its end and so before `live`, log 24 (DESIGN CHOICE). -/
def Obligations.ResetLeavesTheAgents : Prop :=
  (∀ (s : State) (rest : List Input), s.inputs = .reset :: rest →
    ∃ t, step s = .next t ∧ t.sinkBits = s.sinkBits ∧ t.sinkFlushes = s.sinkFlushes ∧ t.sourceBits = s.sourceBits ∧
      t.host = s.host ∧ t.trace ++ t.live = s.trace ++ s.live ∧ t.ports = s.ports.after s.live ∧
      t.abandoned = s.abandoned ++ s.outstanding.toList ∧ t.build = s.build ∧ t.inputs = rest ∧ t.drawn = s.drawn) ∧
  -- a response that came before the reset
  (∀ (s : State) (q : Request) (a : Answer) (tr : Transaction) (rest : List Input),
    s.inputs = .answer a :: .reset :: rest → s.outstanding = some q →
    (s.ports.after s.live).answerTo q = none → ((s.ports.push a).after s.live).answerTo q = some tr →
    ∃ t, step s = .next t ∧
      step t = .next { resetBlock { s with inputs := rest } with
        trace := s.trace ++ s.live ++ [tr], abandoned := s.abandoned }) ∧
  -- a response that comes after the reset
  ∀ (s : State) (tr : Transaction) (rest : List Input), s.inputs = .late tr :: rest →
    (tr.request ∈ s.abandoned →
      step s = .next { s with
        inputs := rest, abandoned := s.abandoned.erase tr.request, trace := s.trace ++ [tr] }) ∧
    (tr.request ∉ s.abandoned → step s = .next { s with inputs := rest })

/-- R51, R342: the build parameters, and with them CAPS, never change; the fields of CAPS in a legal build. -/
def Obligations.CapsIsConstant : Prop :=
  (∀ s t : State, step s = .next t → t.build = s.build ∧ readReg t .caps = readReg s .caps) ∧
  ∀ s : State, s.build.wf = true →
    ((readReg s .caps).extractLsb' 0 7).toNat = s.build.pmax ∧ (readReg s .caps).extractLsb' 7 1 = 0 ∧
    ((readReg s .caps).extractLsb' 8 7).toNat = s.build.pendW ∧ (readReg s .caps).extractLsb' 15 1 = 0 ∧
    ((readReg s .caps).extractLsb' 16 8).toNat = 1 ∧ (readReg s .caps).extractLsb' 24 40 = 0

/-! ## The invariant -/

/-- R32, R33, R36, R37, R56, R57, R58: every step keeps the invariant, whatever the host and the agents do. -/
def Obligations.EveryStepKeepsTheInvariant : Prop :=
  ∀ s t : State, s.Inv → step s = .next t → t.Inv

/-- R60: the reset state meets the invariant. -/
def Obligations.ResetStateMeetsTheInvariant : Prop := State.reset.Inv

/-- R307: no command can overflow in the interval engine, whatever the agents answer: every command answers a next state. -/
def Obligations.CommandsNeverFault : Prop :=
  ∀ (s : State) (i : Instr), s.Inv → ∃ t, exec i s = .next t

/-! ## What commands leave alone -/

/-- R43, R47, R53: no command writes ARG0, ARG_L, the host, the inputs or the abandoned requests, and only ABORT clears
OVERRUN. And only commands and reset write the registers: any other step, a line of the host, an access, an agent's answer or
a late one, or a move of the block between commands, leaves them all as they are, but for OVERRUN at a dropped CMD write.
R325: between commands the block's move changes no state at all. An agent's answer changes no register, no operand, no
command and no host: it joins the coming answers (DESIGN CHOICE, log 5) and, where it is the response to the outstanding
request, finishes that transaction (DEDUCED, log 3). -/
def Obligations.CommandsLeaveHostAndOperandsAlone : Prop :=
  (∀ (i : Instr) (s t : State), exec i s = .next t →
    t.build = s.build ∧ t.arg0 = s.arg0 ∧ t.argL = s.argL ∧ t.cmd = s.cmd ∧ t.host = s.host ∧ t.inputs = s.inputs ∧
    t.drawn = s.drawn ∧ t.abandoned = s.abandoned ∧ (i ≠ .abort → t.regs.overrun = s.regs.overrun)) ∧
  (∀ s t : State, step s = .next t → (∀ rest, s.inputs = .block :: rest → s.busy = false) →
    (s.inputs = [] → s.busy = false) → (∀ rest, s.inputs ≠ .reset :: rest) →
    t.regs = s.regs ∨
      (s.busy = true ∧ (∃ v u, s.hostWrites WinReg.cmd.offset v u) ∧ t.regs = { s.regs with overrun := true })) ∧
  (∀ (s : State) (rest : List Input), s.inputs = .block :: rest → s.busy = false →
    step s = .next { s with inputs := rest }) ∧
  ∀ (s : State) (a : Answer) (rest : List Input), s.inputs = .answer a :: rest →
    step s = .next
      (match s.outstanding.bind ((s.ports.push a).after s.live).answerTo with
        | some tr => { s with inputs := rest, ports := s.ports.push a, live := s.live ++ [tr], outstanding := none }
        | none => { s with inputs := rest, ports := s.ports.push a })

/-- R265, R154, R362: only ENCODE uses FREQ; only DECODE uses TOTAL and SYMBOL; only ENCODE and FINISH use the sink; only
DEC_START and DECODE use the source; ENC_START and ABORT make no transaction. -/
def Obligations.CommandsUseOnlyTheirPorts : Prop :=
  ∀ (i : Instr) (s t : State), exec i s = .next t →
    (i ≠ .encode → t.ports.freq = s.ports.freq) ∧
    (i ≠ .decode → t.ports.total = s.ports.total ∧ t.ports.symbol = s.ports.symbol) ∧
    (i ≠ .encode → i ≠ .finish → t.ports.sink = s.ports.sink) ∧
    ((∀ p, i ≠ .decStart p) → i ≠ .decode → t.ports.source = s.ports.source) ∧
    (((∃ p, i = .encStart p) ∨ i = .abort) → t.ports = s.ports ∧ t.trace = s.trace ∧ t.live = [])

/-- R302: a command that completes with a recoverable error changes no register but ERR and EOS; one that completes with a
fatal error leaves STATE = FAILED. -/
def Obligations.ErrorsAreRecoverableOrFatal : Prop :=
  ∀ (i : Instr) (s t : State), exec i s = .next t → t.busy = false → t.regs.err ≠ .ok →
    t.regs.eos = false ∧
    (t.regs.err.fatal = false → t.regs = { s.regs with err := t.regs.err, eos := false }) ∧
    (t.regs.err.fatal = true → t.regs.state = .failed)

/-- R45: a completion sets EOS exactly when it is a DECODE that ends the stream: no error, and STATE goes to DONE. -/
def Obligations.EosExactlyAtEndOfStream : Prop :=
  ∀ (i : Instr) (s t : State), exec i s = .next t → t.busy = false →
    (t.regs.eos = true ↔ i = .decode ∧ t.regs.err = .ok ∧ t.regs.state = .done)

/-- R42: only DECODE, the start commands and ABORT (R284) change RESULT. -/
def Obligations.EncodeAndFinishKeepResult : Prop :=
  ∀ s t : State, (exec .encode s = .next t ∨ exec .finish s = .next t) → t.regs.result = s.regs.result

/-! ## Commands that are rejected -/

/-- R283 (R200, R205, R215, R230, R235): a command that its STATE does not allow completes with BAD_STATE and changes no register but ERR and EOS. -/
def Obligations.CommandsOutsideTheirStateAreRejected : Prop :=
  ∀ (s : State) (i : Instr),
    (((∃ p, i = .encStart p ∨ i = .decStart p) ∧ (s.regs.state = .enc ∨ s.regs.state = .dec)) ∨
      ((i = .encode ∨ i = .finish) ∧ s.regs.state ≠ .enc) ∨ (i = .decode ∧ s.regs.state ≠ .dec)) →
    exec i s = .next { s with
      busy := false, live := [], outstanding := none
      regs := { s.regs with err := .badState, eos := false } }

/-- R201: a start command whose operands break 2 <= P <= PMAX or 1 <= M <= 2^(P-2) completes with PRECISION and starts no
session. -/
def Obligations.BadOperandsAreAPrecisionError : Prop :=
  ∀ (s : State) (p : Nat), s.regs.state ≠ .enc → s.regs.state ≠ .dec →
    (p < 2 ∨ s.build.pmax < p ∨ s.argL.toNat = 0 ∨ 2 ^ (p - 2) < s.argL.toNat) →
    ∀ i, (i = .encStart p ∨ i = .decStart p) →
    exec i s = .next { s with
      busy := false, live := [], outstanding := none
      regs := { s.regs with err := .precision, eos := false } }

/-! ## ENC_START, ENCODE, FINISH -/

/-- R200: ENC_START from IDLE, DONE or FAILED with legal operands starts an encode session. Every field is stated. -/
def Obligations.EncStartBeginsAnEncodeSession : Prop :=
  ∀ (s : State) (p : Nat), s.regs.state ≠ .enc → s.regs.state ≠ .dec →
    2 ≤ p → p ≤ s.build.pmax → 1 ≤ s.argL.toNat → s.argL.toNat ≤ 2 ^ (p - 2) →
    exec (.encStart p) s = .next { s with
      busy := false, live := [], outstanding := none
      regs := {
        state := .enc, eos := false, kind := .encode, overrun := s.regs.overrun, exhausted := false, err := .ok
        prec := BitVec.ofNat 7 p, low := 0, high := BitVec.ofNat 64 (2 ^ p - 1), code := 0, pending := 0, maxtot := s.argL
        bitcnt := 0, symcnt := 0, padcnt := 0, result := 0 } }

/-- R205, R171, R182, R181: ENCODE of a symbol whose FREQ_OK answer passes the checks of R156, with a sink that accepts the
bits and PENDING never at its limit when an E3 step comes. LOW, HIGH, PENDING, the bits written and the counters are those
of NARROW and RENORM in the clear form of Safety.lean. Every field is stated. -/
def Obligations.EncodeCodesASymbol : Prop :=
  ∀ (s : State) (cl ch t : Word) (fs : List FreqAnswer) (x : Interval) (gs : List Regime) (bits : List Bool),
    s.Inv → s.regs.state = .enc → s.ports.freq = .freqOk cl ch t :: fs →
    cl.toNat < ch.toNat → ch.toNat ≤ t.toNat → t.toNat ≤ s.regs.maxtot.toNat →
    x = s.interval.narrow cl.toNat ch.toNat t.toNat → gs = regimes s.precision s.precision x →
    bits = encBits s.regs.pending.toNat gs → pendingFits (pendingLimit s.build) s.regs.pending.toNat gs = true →
    sinkServes bits.length s.ports.sink = true →
    exec .encode s = .next { s with
      busy := false, live := [], outstanding := none
      trace := s.trace ++ .freq s.argL (.freqOk cl ch t) :: bits.map fun b => .writeBit b .ok
      ports := { s.ports with freq := fs, sink := s.ports.sink.drop bits.length }
      regs := { s.regs with
        err := .ok, eos := false
        low := BitVec.ofNat 64 (renormalized s.precision x gs).lo
        high := BitVec.ofNat 64 (renormalized s.precision x gs).hi
        pending := BitVec.ofNat 64 (encPending s.regs.pending.toNat gs)
        bitcnt := s.regs.bitcnt + BitVec.ofNat 64 bits.length
        symcnt := s.regs.symcnt + 1 } }

/-- R207, R159: ENCODE of a symbol the model does not know completes with UNKNOWN_SYMBOL; only ERR and EOS change. -/
def Obligations.EncodeOfAnUnknownSymbol : Prop :=
  ∀ (s : State) (fs : List FreqAnswer), s.regs.state = .enc → s.ports.freq = .unknown :: fs →
    exec .encode s = .next { s with
      busy := false, live := [], outstanding := none
      trace := s.trace ++ [.freq s.argL .unknown]
      ports := { s.ports with freq := fs }
      regs := { s.regs with err := .unknownSymbol, eos := false } }

/-- R156: a FREQ_OK answer that breaks a check is MODEL_PROTOCOL, fatal, before any change to LOW, HIGH or PENDING. -/
def Obligations.EncodeOfABadFrequencyFails : Prop :=
  ∀ (s : State) (cl ch t : Word) (fs : List FreqAnswer), s.regs.state = .enc → s.ports.freq = .freqOk cl ch t :: fs →
    ¬ (cl.toNat < ch.toNat ∧ ch.toNat ≤ t.toNat ∧ t.toNat ≤ s.regs.maxtot.toNat) →
    exec .encode s = .next { s with
      busy := false, live := [], outstanding := none
      trace := s.trace ++ [.freq s.argL (.freqOk cl ch t)]
      ports := { s.ports with freq := fs }
      regs := { s.regs with err := .modelProtocol, eos := false, state := .failed } }

/-- R181, R303: where an E3 step finds PENDING at its limit, ENCODE fails with PENDING_OVERFLOW, with LOW, HIGH and BITCNT as
the steps before it (`done`) left them, and PENDING at that limit. Every register is stated. -/
def Obligations.EncodePendingOverflowFails : Prop :=
  ∀ (s : State) (cl ch t : Word) (fs : List FreqAnswer) (x : Interval) (done rest : List Regime) (bits : List Bool),
    s.Inv → s.regs.state = .enc → s.ports.freq = .freqOk cl ch t :: fs →
    cl.toNat < ch.toNat → ch.toNat ≤ t.toNat → t.toNat ≤ s.regs.maxtot.toNat →
    x = s.interval.narrow cl.toNat ch.toNat t.toNat → regimes s.precision s.precision x = done ++ .e3 :: rest →
    pendingFits (pendingLimit s.build) s.regs.pending.toNat done = true →
    encPending s.regs.pending.toNat done = pendingLimit s.build →
    bits = encBits s.regs.pending.toNat done → sinkServes bits.length s.ports.sink = true →
    ∃ u, exec .encode s = .next u ∧ u.busy = false ∧
      u.ports = { s.ports with freq := fs, sink := s.ports.sink.drop bits.length } ∧
      acceptedBits u.trace = acceptedBits s.trace ++ bits ∧
      u.regs = { s.regs with
        err := .pendingOverflow, eos := false, state := .failed
        low := BitVec.ofNat 64 (renormalized s.precision x done).lo
        high := BitVec.ofNat 64 (renormalized s.precision x done).hi
        pending := BitVec.ofNat 64 (pendingLimit s.build)
        bitcnt := s.regs.bitcnt + BitVec.ofNat 64 bits.length }

/-- R209, R303: the first ERROR of the sink, after `k` accepted bits, ends ENCODE with IO_ERROR. LOW, HIGH and PENDING are as
the steps before that of the failed bit (`done`) left them; the bits before it stay with the sink and are counted; nothing is
asked again. Every register is stated. -/
def Obligations.EncodeSinkErrorFails : Prop :=
  ∀ (s : State) (cl ch t : Word) (fs : List FreqAnswer) (x : Interval) (done : List Regime) (g : Regime)
    (later : List Regime) (k : Nat) (rest : List SinkAnswer),
    s.Inv → s.regs.state = .enc → s.ports.freq = .freqOk cl ch t :: fs →
    cl.toNat < ch.toNat → ch.toNat ≤ t.toNat → t.toNat ≤ s.regs.maxtot.toNat →
    x = s.interval.narrow cl.toNat ch.toNat t.toNat → regimes s.precision s.precision x = done ++ g :: later →
    pendingFits (pendingLimit s.build) s.regs.pending.toNat done = true →
    (encBits s.regs.pending.toNat done).length ≤ k → k < (encBits s.regs.pending.toNat (done ++ [g])).length →
    s.ports.sink = List.replicate k .ok ++ .error :: rest →
    ∃ u, exec .encode s = .next u ∧ u.busy = false ∧ u.ports = { s.ports with freq := fs, sink := rest } ∧
      acceptedBits u.trace = acceptedBits s.trace ++ (encBits s.regs.pending.toNat (done ++ [g])).take k ∧
      u.regs = { s.regs with
        err := .ioError, eos := false, state := .failed
        low := BitVec.ofNat 64 (renormalized s.precision x done).lo
        high := BitVec.ofNat 64 (renormalized s.precision x done).hi
        pending := BitVec.ofNat 64 (encPending s.regs.pending.toNat done)
        bitcnt := s.regs.bitcnt + BitVec.ofNat 64 k }

/-- R215, R216: FINISH with PENDING below its limit and a sink that accepts: one bit, PENDING + 1 copies of its complement,
one FLUSH, STATE = DONE, PENDING = 0; LOW and HIGH stay. Every field is stated. -/
def Obligations.FinishWritesTheTermination : Prop :=
  ∀ (s : State) (b : Bool) (bits : List Bool), s.regs.state = .enc → s.regs.pending.toNat < pendingLimit s.build →
    s.build.wf = true → b = !decide (s.regs.low.toNat < quarter s.precision) →
    bits = b :: List.replicate (s.regs.pending.toNat + 1) (!b) → sinkServes (bits.length + 1) s.ports.sink = true →
    exec .finish s = .next { s with
      busy := false, live := [], outstanding := none
      trace := s.trace ++ (bits.map fun b => .writeBit b .ok) ++ [.flush .ok]
      ports := { s.ports with sink := s.ports.sink.drop (bits.length + 1) }
      regs := { s.regs with
        err := .ok, eos := false, state := .done, pending := 0
        bitcnt := s.regs.bitcnt + BitVec.ofNat 64 bits.length } }

/-- R215, R218, R303: FINISH with PENDING at its limit writes no bit and does not flush; it fails with PENDING_OVERFLOW. -/
def Obligations.FinishPendingOverflowFails : Prop :=
  ∀ s : State, s.regs.state = .enc → s.regs.pending.toNat = pendingLimit s.build →
    exec .finish s = .next { s with
      busy := false, live := [], outstanding := none
      regs := { s.regs with err := .pendingOverflow, eos := false, state := .failed } }

/-- R303: a sink ERROR in FINISH, after `k` accepted requests, fails with IO_ERROR. PENDING is the incremented value if it
came on a bit, 0 if it came at the FLUSH; the sink holds the first `k` bits of the termination (all of them at the FLUSH),
they are counted, and no FLUSH is accepted. -/
def Obligations.FinishSinkErrorFails : Prop :=
  ∀ (s : State) (b : Bool) (bits : List Bool) (k : Nat) (rest : List SinkAnswer), s.regs.state = .enc →
    s.regs.pending.toNat < pendingLimit s.build → s.build.wf = true →
    b = !decide (s.regs.low.toNat < quarter s.precision) → bits = b :: List.replicate (s.regs.pending.toNat + 1) (!b) →
    k ≤ s.regs.pending.toNat + 2 → s.ports.sink = List.replicate k .ok ++ .error :: rest →
    ∃ u, exec .finish s = .next u ∧ u.busy = false ∧ u.ports = { s.ports with sink := rest } ∧
      u.trace = s.trace ++ ((bits.take k).map fun b => .writeBit b .ok) ++
        [if h : k < bits.length then .writeBit bits[k] .error else .flush .error] ∧
      acceptedBits u.trace = acceptedBits s.trace ++ bits.take k ∧
      u.regs = { s.regs with
        err := .ioError, eos := false, state := .failed
        pending := if k = s.regs.pending.toNat + 2 then 0 else s.regs.pending + 1
        bitcnt := s.regs.bitcnt + BitVec.ofNat 64 k } ∧
      u.sinkFlushes = (s.trace.count (.flush .ok))

/-! ## DEC_START, DECODE -/

/-- R230: DEC_START from IDLE, DONE or FAILED with legal operands and a source that serves P calls of NextBit. CODE is the
bits in order, most significant first. Every field is stated. -/
def Obligations.DecStartFillsCode : Prop :=
  ∀ (s : State) (p : Nat) (bits : List Bool) (b : BitSide), s.regs.state ≠ .enc → s.regs.state ≠ .dec →
    s.build.wf = true → 2 ≤ p → p ≤ s.build.pmax → 1 ≤ s.argL.toNat → s.argL.toNat ≤ 2 ^ (p - 2) →
    BitSide.take p { exhausted := false, padcnt := 0, bitcnt := 0, answers := s.ports.source, reads := [] } = some (bits, b) →
    exec (.decStart p) s = .next { s with
      busy := false, live := [], outstanding := none
      trace := s.trace ++ b.reads
      ports := { s.ports with source := b.answers }
      regs := {
        state := .dec, eos := false, kind := .decode, overrun := s.regs.overrun, exhausted := b.exhausted, err := .ok
        prec := BitVec.ofNat 7 p, low := 0, high := BitVec.ofNat 64 (2 ^ p - 1), code := BitVec.ofNat 64 (bitsValue bits)
        pending := 0, maxtot := s.argL, bitcnt := b.bitcnt, symcnt := 0, padcnt := b.padcnt, result := 0 } }

/-- R231: after a successful DEC_START on a source that holds the L bits of `stream` and then ends, CODE bit P-1-i is
stream bit i, or 0 where the stream is shorter; BITCNT = min(L, P), PADCNT = max(0, P - L), EXHAUSTED exactly when L < P. -/
def Obligations.CodeHoldsTheStream : Prop :=
  ∀ (s : State) (p : Nat) (stream : List Bool) (rest : List SourceAnswer), s.regs.state ≠ .enc → s.regs.state ≠ .dec →
    s.build.wf = true → 2 ≤ p → p ≤ s.build.pmax → 1 ≤ s.argL.toNat → s.argL.toNat ≤ 2 ^ (p - 2) →
    s.ports.source = stream.map .bit ++ .endOfInput :: rest →
    ∃ t, exec (.decStart p) s = .next t ∧ t.regs.err = .ok ∧ t.regs.state = .dec ∧
      (∀ i, i < p → t.regs.code.getLsbD (p - 1 - i) = stream.getD i false) ∧
      t.regs.bitcnt.toNat = min stream.length p ∧ t.regs.padcnt.toNat = p - stream.length ∧
      t.regs.exhausted = decide (stream.length < p)

/-- R230, R303, vector V-D5: a source ERROR during the fill fails with IO_ERROR, the whole interval, and CODE holding the bits
so far. That KIND = 1 then is log 23 (DEDUCED). -/
def Obligations.DecStartSourceErrorFails : Prop :=
  ∀ (s : State) (p : Nat) (stream : List Bool) (rest : List SourceAnswer), s.regs.state ≠ .enc → s.regs.state ≠ .dec →
    s.build.wf = true → 2 ≤ p → p ≤ s.build.pmax → 1 ≤ s.argL.toNat → s.argL.toNat ≤ 2 ^ (p - 2) →
    stream.length < p → s.ports.source = stream.map .bit ++ .error :: rest →
    ∃ t, exec (.decStart p) s = .next t ∧ t.busy = false ∧ t.ports = { s.ports with source := rest } ∧
      t.regs = {
        state := .failed, eos := false, kind := .decode, overrun := s.regs.overrun, exhausted := false, err := .ioError
        prec := BitVec.ofNat 7 p, low := 0, high := BitVec.ofNat 64 (2 ^ p - 1), code := BitVec.ofNat 64 (bitsValue stream)
        pending := 0, maxtot := s.argL, bitcnt := BitVec.ofNat 64 stream.length, symcnt := 0, padcnt := 0, result := 0 }

/-- R235, R171, R173, R182, R180, R239: DECODE that resolves a symbol, with answers that pass the checks of R157 and a
source that serves one bit a step. Every field is stated. -/
def Obligations.DecodeResolvesASymbol : Prop :=
  ∀ (s : State) (t : Word) (ts : List Word) (a : SymbolAnswer) (as : List SymbolAnswer) (v : Word) (x : Interval)
    (gs : List Regime) (bits : List Bool) (b : BitSide),
    s.Inv → s.regs.state = .dec → ¬ (s.regs.exhausted = true ∧ s.precision ≤ s.regs.padcnt.toNat) →
    s.ports.total = t :: ts → 1 ≤ t.toNat → t.toNat ≤ s.regs.maxtot.toNat →
    v = BitVec.ofNat 64 (s.interval.value s.regs.code.toNat t.toNat) →
    s.ports.symbol = a :: as → a.cl.toNat ≤ v.toNat → v.toNat < a.ch.toNat → a.ch.toNat ≤ t.toNat →
    x = s.interval.narrow a.cl.toNat a.ch.toNat t.toNat → gs = regimes s.precision s.precision x →
    s.bitSide.take gs.length = some (bits, b) →
    exec .decode s = .next { s with
      busy := false, live := [], outstanding := none
      trace := s.trace ++ .total t :: .symbol v t a :: b.reads
      ports := { s.ports with total := ts, symbol := as, source := b.answers }
      regs := { s.regs with
        err := .ok, eos := a.eos, state := if a.eos then .done else .dec
        low := BitVec.ofNat 64 (renormalized s.precision x gs).lo
        high := BitVec.ofNat 64 (renormalized s.precision x gs).hi
        code := BitVec.ofNat 64 (shiftedCode s.precision s.regs.code.toNat (gs.zip bits))
        exhausted := b.exhausted, padcnt := b.padcnt, bitcnt := b.bitcnt
        symcnt := s.regs.symcnt + 1, result := a.symbol } }

/-- R238: with no stream bit left in CODE, DECODE makes no request and returns END: RESULT = 0, STATE = DONE, EOS = 1. -/
def Obligations.DecodeReturnsEndAtExhaustion : Prop :=
  ∀ s : State, s.regs.state = .dec → s.regs.exhausted = true → s.precision ≤ s.regs.padcnt.toNat →
    exec .decode s = .next { s with
      busy := false, live := [], outstanding := none
      regs := { s.regs with err := .ok, eos := true, state := .done, result := 0 } }

/-- R157: a TOTAL or SYMBOL answer that breaks a check is MODEL_PROTOCOL, fatal, before any change to LOW, HIGH or CODE. -/
def Obligations.DecodeOfABadAnswerFails : Prop :=
  ∀ (s : State) (t : Word) (ts : List Word), s.Inv → s.regs.state = .dec →
    ¬ (s.regs.exhausted = true ∧ s.precision ≤ s.regs.padcnt.toNat) → s.ports.total = t :: ts →
    (¬ (1 ≤ t.toNat ∧ t.toNat ≤ s.regs.maxtot.toNat) →
      exec .decode s = .next { s with
        busy := false, live := [], outstanding := none
        trace := s.trace ++ [.total t]
        ports := { s.ports with total := ts }
        regs := { s.regs with err := .modelProtocol, eos := false, state := .failed } }) ∧
    (1 ≤ t.toNat → t.toNat ≤ s.regs.maxtot.toNat →
      ∀ (v : Word) (a : SymbolAnswer) (as : List SymbolAnswer),
        v = BitVec.ofNat 64 (s.interval.value s.regs.code.toNat t.toNat) → s.ports.symbol = a :: as →
        ¬ (a.cl.toNat ≤ v.toNat ∧ v.toNat < a.ch.toNat ∧ a.ch.toNat ≤ t.toNat) →
        exec .decode s = .next { s with
          busy := false, live := [], outstanding := none
          trace := s.trace ++ [.total t, .symbol v t a]
          ports := { s.ports with total := ts, symbol := as }
          regs := { s.regs with err := .modelProtocol, eos := false, state := .failed } })

/-- R244, R271, R303: a source ERROR at step k of RENORM fails with IO_ERROR: LOW and HIGH after that step's transform, CODE
as before that step, the bits read counted, the symbol neither counted nor returned. -/
def Obligations.DecodeSourceErrorFails : Prop :=
  ∀ (s : State) (t : Word) (ts : List Word) (a : SymbolAnswer) (as : List SymbolAnswer) (v : Word) (x : Interval)
    (gs : List Regime) (stream : List Bool) (rest : List SourceAnswer),
    s.Inv → s.regs.state = .dec → s.regs.exhausted = false →
    s.ports.total = t :: ts → 1 ≤ t.toNat → t.toNat ≤ s.regs.maxtot.toNat →
    v = BitVec.ofNat 64 (s.interval.value s.regs.code.toNat t.toNat) →
    s.ports.symbol = a :: as → a.cl.toNat ≤ v.toNat → v.toNat < a.ch.toNat → a.ch.toNat ≤ t.toNat →
    x = s.interval.narrow a.cl.toNat a.ch.toNat t.toNat → gs = regimes s.precision s.precision x →
    stream.length < gs.length → s.ports.source = stream.map .bit ++ .error :: rest →
    ∃ u, exec .decode s = .next u ∧ u.busy = false ∧
      u.ports = { s.ports with total := ts, symbol := as, source := rest } ∧
      u.regs = { s.regs with
        err := .ioError, eos := false, state := .failed
        low := BitVec.ofNat 64 (renormalized s.precision x (gs.take (stream.length + 1))).lo
        high := BitVec.ofNat 64 (renormalized s.precision x (gs.take (stream.length + 1))).hi
        code := BitVec.ofNat 64 (shiftedCode s.precision s.regs.code.toNat (gs.zip stream))
        bitcnt := s.regs.bitcnt + BitVec.ofNat 64 stream.length }

/-! ## ABORT -/

/-- R284: ABORT is accepted in every STATE and returns the block to IDLE, every session register 0, with no port
transaction; ARG0 stays. Every field is stated. That RESULT is 0 is log 20 (DEDUCED), and that OVERRUN is 0 where a CMD write
was dropped during the ABORT is log 8 (DEDUCED). -/
def Obligations.AbortReturnsToIdle : Prop :=
  ∀ s : State, exec .abort s = .next { s with
    busy := false, live := [], outstanding := none
    regs := {
      state := .idle, eos := false, kind := .encode, overrun := false, exhausted := false, err := .ok, prec := 0, low := 0
      high := 0, code := 0, pending := 0, maxtot := 0, bitcnt := 0, symcnt := 0, padcnt := 0, result := 0 } }

/-! ## The interval engine and the adaptors -/

/-- R172: narrowing stays inside the old interval. -/
def Obligations.NarrowStaysInside : Prop :=
  ∀ (x : Interval) (cl ch t : Nat), x.lo ≤ x.hi → cl < ch → ch ≤ t →
    x.lo ≤ (x.narrow cl ch t).lo ∧ (x.narrow cl ch t).hi ≤ x.hi

/-- R175: narrowing an interval that satisfies R56, with t <= QUARTER, leaves at least one code point; the symbol [0, 1)
leaves a single one exactly when range < 2t. -/
def Obligations.NarrowMakesProgress : Prop :=
  ∀ (p : Nat) (x : Interval) (cl ch t : Nat), 2 ≤ p → x.settled p = true → cl < ch → ch ≤ t → t ≤ quarter p →
    quarter p + 2 ≤ x.range ∧ (x.range * cl) / t + 1 ≤ (x.range * ch) / t ∧
      (x.narrow cl ch t).lo ≤ (x.narrow cl ch t).hi ∧
      ((x.narrow 0 1 t).lo = (x.narrow 0 1 t).hi ↔ x.range < 2 * t)

/-- R174: the decoder's choice is exact. CODE lies in the narrowed interval exactly when the symbol's interval holds
VALUE(t). -/
def Obligations.DecoderChoiceIsExact : Prop :=
  ∀ (x : Interval) (code cl ch t : Nat), x.lo ≤ code → code ≤ x.hi → cl < ch → ch ≤ t → t ≤ x.range →
    (cl ≤ x.value code t ↔ (x.narrow cl ch t).lo ≤ code) ∧ (x.value code t < ch ↔ code ≤ (x.narrow cl ch t).hi)

/-- R176: E1 applies when HIGH < HALF, E2 when LOW >= HALF, E3 only when QUARTER <= LOW < HALF <= HIGH < THREE_Q, and no
regime otherwise. -/
def Obligations.RegimeConditions : Prop :=
  ∀ (p : Nat) (x : Interval), x.lo ≤ x.hi →
    (classify p x = some .e1 ↔ x.hi < half p) ∧ (classify p x = some .e2 ↔ half p ≤ x.lo) ∧
    (classify p x = some .e3 ↔ quarter p ≤ x.lo ∧ x.lo < half p ∧ half p ≤ x.hi ∧ x.hi < threeQ p) ∧
    (classify p x = none ↔ half p ≤ x.hi ∧ x.lo < half p ∧ (x.lo < quarter p ∨ threeQ p ≤ x.hi))

/-- R184: no transform leaves P bits, no subtraction goes below 0, and CODE stays inside the interval. -/
def Obligations.TransformsStayWithinPBits : Prop :=
  ∀ (p : Nat) (x : Interval) (g : Regime), 2 ≤ p → x.lo ≤ x.hi → x.hi ≤ top p → classify p x = some g →
    g.offset p ≤ x.lo ∧ (g.transform p x).lo ≤ (g.transform p x).hi ∧ (g.transform p x).hi ≤ top p ∧
    ∀ (code : Nat) (bit : Bool), x.lo ≤ code → code ≤ x.hi →
      g.offset p ≤ code ∧ (g.transform p x).lo ≤ g.shiftCode p code bit ∧
        g.shiftCode p code bit ≤ (g.transform p x).hi

/-- R183: a regime applies only when range <= HALF; RENORM ends within P steps, taking all P only from a range of 1; each step
doubles the range exactly; and the interval it leaves satisfies R56. -/
def Obligations.RenormalizationEnds : Prop :=
  ∀ (p : Nat) (x : Interval), 2 ≤ p → x.lo ≤ x.hi → x.hi ≤ top p →
    (∀ g, classify p x = some g → x.range ≤ half p ∧ (g.transform p x).range = 2 * x.range) ∧
    (regimes p p x).length ≤ p ∧ ((regimes p p x).length = p → x.range = 1) ∧
    (renormalized p x (regimes p p x)).settled p = true ∧
    (renormalized p x (regimes p p x)).range = x.range * 2 ^ (regimes p p x).length

/-- R216: FINISH's bit and its complement, followed by padding bits, are the value QUARTER or HALF, which lies in an interval
that satisfies R56. -/
def Obligations.TerminationSelectsAnInsidePoint : Prop :=
  (∀ (p : Nat) (x : Interval), 2 ≤ p → x.settled p = true →
    (x.lo < quarter p → x.lo ≤ quarter p ∧ quarter p ≤ x.hi) ∧ (quarter p ≤ x.lo → x.lo ≤ half p ∧ half p ≤ x.hi)) ∧
  ∀ (s : State) (b : Bool) (v : Nat), 2 ≤ s.precision → s.interval.settled s.precision = true → b = terminationBit s →
    v = bitsValue (b :: (!b) :: List.replicate (s.precision - 2) Config.padBit) →
    v = (if s.regs.low.toNat < quarter s.precision then quarter s.precision else half s.precision) ∧
    s.regs.low.toNat ≤ v ∧ v ≤ s.regs.high.toNat

/-- R261: Emit(b, n) on a sink that accepts writes b, then n copies of 1 - b, in that order, and counts each. -/
def Obligations.EmitWritesTheRunInOrder : Prop :=
  ∀ (s : State) (b : Bool) (n : Nat), sinkServes (n + 1) s.ports.sink = true →
    emit b n s = .go () { s with
      live := s.live ++ .writeBit b .ok :: List.replicate n (.writeBit (!b) .ok)
      ports := { s.ports with sink := s.ports.sink.drop (n + 1) }
      regs := { s.regs with bitcnt := s.regs.bitcnt + BitVec.ofNat 64 (n + 1) } }

/-- R266: NextBit in each of its cases: padding once exhausted, with no request; a stream bit; the latch at END; IO_ERROR;
and waiting for a source that does not answer (R270). -/
def Obligations.NextBitCases : Prop :=
  ∀ s : State,
    (s.regs.exhausted = true → s.regs.padcnt.toNat < 2 ^ 64 - 1 →
      nextBit s = .go false { s with regs := { s.regs with padcnt := s.regs.padcnt + 1 } }) ∧
    (s.regs.exhausted = true → s.regs.padcnt.toNat = 2 ^ 64 - 1 → nextBit s = .go false s) ∧
    (s.regs.exhausted = false →
      (∀ b rest, s.ports.source = .bit b :: rest →
        nextBit s = .go b { s with
          live := s.live ++ [.readBit (.bit b)]
          ports := { s.ports with source := rest }
          regs := { s.regs with bitcnt := s.regs.bitcnt + 1 } }) ∧
      (∀ rest, s.ports.source = .endOfInput :: rest →
        nextBit s = .go false { s with
          live := s.live ++ [.readBit .endOfInput]
          ports := { s.ports with source := rest }
          regs := { s.regs with exhausted := true, padcnt := 1 } }) ∧
      (∀ rest, s.ports.source = .error :: rest →
        nextBit s = .raised .ioError { s with
          live := s.live ++ [.readBit .error]
          ports := { s.ports with source := rest } }) ∧
      (s.ports.source = [] → nextBit s = .stalled .readBit s))

/-- R221: over any renormalization steps, the bits written plus the bits pending at the end are the bits pending at the
start plus one for each step. -/
def Obligations.EachStepWritesOrDefersOneBit : Prop :=
  ∀ (pend : Nat) (gs : List Regime), (encBits pend gs).length + encPending pend gs = pend + gs.length

/-- R236: a DECODE that resolves a symbol and an ENCODE that is answered with the same (cl, ch, t), from the same P, LOW and
HIGH, leave the same LOW and HIGH. -/
def Obligations.DecoderFollowsTheEncodersInterval : Prop :=
  ∀ (e d e' d' : State) (a : SymbolAnswer) (t : Word) (fs : List FreqAnswer) (ts : List Word) (as : List SymbolAnswer),
    e.Inv → d.Inv → e.precision = d.precision → e.regs.low = d.regs.low → e.regs.high = d.regs.high →
    e.ports.freq = .freqOk a.cl a.ch t :: fs → d.ports.total = t :: ts → d.ports.symbol = a :: as →
    exec .encode e = .next e' → e'.busy = false → e'.regs.err = .ok →
    exec .decode d = .next d' → d'.busy = false → d'.regs.err = .ok → d'.regs.symcnt = d.regs.symcnt + 1 →
    e'.regs.low = d'.regs.low ∧ e'.regs.high = d'.regs.high

/-! ## The host's language and the platform's packing -/

/-- R131, R132, R134, R135: what the pseudo-instructions expand to, with the CMD words of the table. R129, R130: a literal is
never truncated; the assembler accepts a program exactly when each line keeps the operand rules, and otherwise names a line
that breaks one; a label is the number of the next instruction after its definition. What of `Line.keepsRules` is the model's
choice is logs 13 and 26. -/
def Obligations.PseudoInstructionsExpand : Prop :=
  (∀ p m : Nat, p < 128 → m < 2 ^ 64 →
    assemble [.encStart p m] =
      .ok [.wr .arg0 (BitVec.ofNat 64 m), .wr .cmd ((BitVec.ofNat 64 p <<< 8) ||| 0x01#64), .rd .status, .jbs 3 2] ∧
    assemble [.encode m] = .ok [.wr .arg0 (BitVec.ofNat 64 m), .wr .cmd 0x02#64, .rd .status, .jbs 3 2] ∧
    assemble [.finish] = .ok [.wr .cmd 0x03#64, .rd .status, .jbs 3 1] ∧
    assemble [.decStart p m] =
      .ok [.wr .arg0 (BitVec.ofNat 64 m), .wr .cmd ((BitVec.ofNat 64 p <<< 8) ||| 0x11#64), .rd .status, .jbs 3 2] ∧
    assemble [.decode] = .ok [.wr .cmd 0x12#64, .rd .status, .jbs 3 1] ∧
    assemble [.abort] = .ok [.wr .cmd 0x20#64, .rd .status, .jbs 3 1]) ∧
  assemble [.wait] = .ok [.rd .status, .jbs 3 0] ∧ assemble [.result] = .ok [.rd .result] ∧
  (∀ l : Nat, assemble [.checkOk l, .label l] = .ok [.jbs 8 3, .jbs 9 3, .jbs 10 3]) ∧
  (∀ (reg : WinReg) (m : Nat), m < 2 ^ 64 →
    assemble [.wr reg m] = .ok [.wr reg (BitVec.ofNat 64 m)] ∧ (BitVec.ofNat 64 m).toNat = m) ∧
  (∀ lines : List Line,
    ((∃ prog, assemble lines = .ok prog) ↔ ∀ x ∈ lines, x.keepsRules lines = true) ∧
    ∀ e, assemble lines = .error e → ∃ x, lines[e.line]? = some x ∧ x.keepsRules lines = false) ∧
  (∀ (lines : List Line) (prog : List HostInstr), assemble lines = .ok prog → prog.length = (lines.map Line.size).sum) ∧
  ∀ (xs ys : List Line) (l : Nat) (prog : List HostInstr),
    assemble (xs ++ .label l :: ys ++ [.jmp l]) = .ok prog → prog.getLast? = some (.jmp (xs.map Line.size).sum)

/-- R129: the host's step executes its next line; a host that has ended its program, or (log 13) has no next line, does
nothing. That the host moves when no input is left and no command is in progress is the model's choice (log 4). The host's jumps: `jbs k` goes to its target if bit k of `acc` is 1,
`jbc k` if it is 0, `jmp` always; they change nothing but the line counter. `halt` ends the program and changes nothing
else. -/
def Obligations.HostJumps : Prop :=
  (∀ (s u : State) (i : HostInstr), s.hostMoves u → s.hostRuns i → step s = .next (hostInstr i u)) ∧
  (∀ s u : State, s.hostMoves u → (s.host.halted = true ∨ s.host.prog[s.host.pc]? = none) → step s = .next u) ∧
  (∀ s : State, hostInstr .halt s = { s with host := { s.host with halted := true } }) ∧
  ∀ (s : State) (k : Fin 64) (n : Nat),
    hostInstr (.jbs k n) s =
      { s with host := { s.host with pc := if s.host.acc.getLsbD k then n else s.host.pc + 1 } } ∧
    hostInstr (.jbc k n) s =
      { s with host := { s.host with pc := if s.host.acc.getLsbD k then s.host.pc + 1 else n } } ∧
    hostInstr (.jmp n) s = { s with host := { s.host with pc := n } }

/-- R88: unpacking packed bits gives the bits back, followed only by the zero fill of the last byte. -/
def Obligations.UnpackingUndoesPacking : Prop :=
  ∀ bits : List Bool, ∃ fill, fill < 8 ∧ (bits.length + fill) % 8 = 0 ∧
    unpackBytes (packBits bits) = bits ++ List.replicate fill false
end

