-- ==== Sys2Proof/Laws/Assembler.lean ====
section
/-! SUPPORT. What the assembler accepts, the length of its code, and where its labels go (30_encoding.md R129, R130). -/

namespace Sys2Proof.Machine

/-- A literal is taken whole or refused (R130). -/
theorem immOf_ok (n : Nat) : (∃ v, immOf n = .ok v) ↔ n < 2 ^ 64 := by
  unfold immOf; split <;> simp_all

/-- A PREC operand of 128 or more is refused (R130). -/
theorem precOf_ok (p : Nat) : (∃ v, precOf p = .ok v) ↔ p < 128 := by
  unfold precOf; split <;> simp_all

/-- A bit number of 64 or more is refused (log 13). -/
theorem bitOf_ok (k : Nat) : (∃ v, bitOf k = .ok v) ↔ k < 64 := by
  unfold bitOf; split <;> simp_all

/-- A label that no line defines has no target, and any other has one. -/
theorem labelTarget_eq_none (l n : Nat) (lines : List Line) : labelTarget l n lines = none ↔ definitions l lines = 0 := by
  induction lines generalizing n with
  | nil => simp [labelTarget, definitions]
  | cons x xs ih =>
    simp only [labelTarget, definitions, List.countP_cons] at ih ⊢
    by_cases h : x.defines = some l <;> simp [h, ih]

/-- A label has a target exactly when it is defined exactly once (R130). -/
theorem targetOf_ok (lines : List Line) (l : Nat) : (∃ n, targetOf lines l = .ok n) ↔ definitions l lines = 1 := by
  have h := labelTarget_eq_none l 0 lines
  unfold targetOf
  split
  · rename_i h0
    have := h.mp h0
    simp [this]
  · split <;> simp_all

/-- The target of a label is after the instructions of the lines before its first definition (R129). -/
theorem labelTarget_append (l n : Nat) (xs ys : List Line) (h : definitions l xs = 0) :
    labelTarget l n (xs ++ .label l :: ys) = some (n + (xs.map Line.size).sum) := by
  induction xs generalizing n with
  | nil => simp [labelTarget, Line.defines]
  | cons x xs ih =>
    simp only [definitions, List.countP_cons] at h ih
    have hx : x.defines ≠ some l := by intro hx; simp [hx] at h
    simp only [List.cons_append, labelTarget, if_neg hx, ih _ (by omega), List.map_cons, List.sum_cons]
    rw [Nat.add_assoc]

/-- What an operand that is mapped gives, if accepted. -/
theorem map_eq_ok {α β : Type} {e : Except AsmReason α} {f : α → β} {c : β} :
    e.map f = .ok c ↔ ∃ a, e = .ok a ∧ f a = c := by cases e <;> simp [Except.map]

/-- What an operand with more operands after it gives, if accepted. -/
theorem bind_eq_ok {α β : Type} {e : Except AsmReason α} {f : α → Except AsmReason β} {c : β} :
    e.bind f = .ok c ↔ ∃ a, e = .ok a ∧ f a = .ok c := by cases e <;> simp [Except.bind]

/-- A line is accepted exactly when it keeps the operand rules. -/
theorem Line.code_ok (lines : List Line) (at_ : Nat) (x : Line) :
    (∃ c, x.code lines at_ = .ok c) ↔ x.keepsRules lines = true := by
  have one : ∀ {α β : Type} (e : Except AsmReason α) (f : α → β), (∃ c, e.map f = .ok c) ↔ ∃ a, e = .ok a :=
    fun e f => ⟨fun ⟨_, h⟩ => (map_eq_ok.mp h).imp fun _ h => h.1, fun ⟨a, h⟩ => ⟨f a, map_eq_ok.mpr ⟨a, h, rfl⟩⟩⟩
  have two : ∀ {α β γ : Type} (d : Except AsmReason α) (e : Except AsmReason β) (f : α → β → γ),
      (∃ c, (d.bind fun a => e.map (f a)) = .ok c) ↔ (∃ a, d = .ok a) ∧ ∃ b, e = .ok b := by
    intro α β γ d e f
    constructor
    · rintro ⟨c, h⟩
      obtain ⟨a, h1, h2⟩ := bind_eq_ok.mp h
      exact ⟨⟨a, h1⟩, (map_eq_ok.mp h2).imp fun _ h => h.1⟩
    · rintro ⟨⟨a, h1⟩, b, h2⟩
      exact ⟨f a b, bind_eq_ok.mpr ⟨a, h1, map_eq_ok.mpr ⟨b, h2, rfl⟩⟩⟩
  cases x with
  | label l => simp only [Line.code, Line.keepsRules]; split <;> simp_all
  | wr _ _ | encode _ | jmp _ | checkOk _ =>
    simp only [Line.code, Line.keepsRules, one, immOf_ok, targetOf_ok, decide_eq_true_eq]
  | jbs _ _ | jbc _ _ | encStart _ _ | decStart _ _ =>
    simp only [Line.code, Line.keepsRules, two, bitOf_ok, precOf_ok, immOf_ok, targetOf_ok, Bool.and_eq_true,
      decide_eq_true_eq]
  | _ => simp [Line.code, Line.keepsRules]

/-- An accepted line has as many instructions as its size says. -/
theorem Line.code_length {lines : List Line} {at_ : Nat} {x : Line} {c : List HostInstr} (h : x.code lines at_ = .ok c) :
    c.length = x.size := by
  cases x with
  | label l => simp only [Line.code] at h; split at h <;> cases h; rfl
  | wr _ _ | encode _ | jmp _ | checkOk _ => obtain ⟨_, -, rfl⟩ := map_eq_ok.mp h; rfl
  | jbs _ _ | jbc _ _ | encStart _ _ | decStart _ _ =>
    obtain ⟨_, -, h⟩ := bind_eq_ok.mp h
    obtain ⟨_, -, rfl⟩ := map_eq_ok.mp h; rfl
  | _ => cases h; rfl

/-- The assembler's cases on one line and the rest. -/
theorem assembleFrom_cons (lines : List Line) (number at_ : Nat) (x : Line) (xs : List Line) :
    (∃ c, x.code lines at_ = .ok c ∧
      ((∃ r, assembleFrom lines (number + 1) (at_ + x.size) xs = .ok r ∧
        assembleFrom lines number at_ (x :: xs) = .ok (c ++ r)) ∨
      ∃ e, assembleFrom lines (number + 1) (at_ + x.size) xs = .error e ∧
        assembleFrom lines number at_ (x :: xs) = .error e)) ∨
    ∃ r, x.code lines at_ = .error r ∧ assembleFrom lines number at_ (x :: xs) = .error { line := number, reason := r } := by
  cases hc : x.code lines at_ with
  | error r => exact .inr ⟨r, rfl, by simp [assembleFrom, hc]⟩
  | ok c =>
    cases hr : assembleFrom lines (number + 1) (at_ + x.size) xs with
    | error e => exact .inl ⟨c, rfl, .inr ⟨e, rfl, by simp [assembleFrom, hc, hr]⟩⟩
    | ok r => exact .inl ⟨c, rfl, .inl ⟨r, rfl, by simp [assembleFrom, hc, hr]⟩⟩

/-- The assembler accepts exactly the lines that keep the rules, and otherwise names one that does not (R130). -/
theorem assembleFrom_spec (lines : List Line) (number at_ : Nat) (xs : List Line) :
    match assembleFrom lines number at_ xs with
    | .ok prog => (∀ x ∈ xs, x.keepsRules lines = true) ∧ prog.length = (xs.map Line.size).sum
    | .error e => ∃ k x, e.line = number + k ∧ xs[k]? = some x ∧ x.keepsRules lines = false := by
  induction xs generalizing number at_ with
  | nil => simp [assembleFrom]
  | cons x xs ih =>
    have ih := ih (number + 1) (at_ + x.size)
    obtain ⟨c, hc, ⟨r, hr, h⟩ | ⟨e, hr, h⟩⟩ | ⟨r, hc, h⟩ := assembleFrom_cons lines number at_ x xs
    · rw [hr] at ih; rw [h]
      have hx := (Line.code_ok lines at_ x).mp ⟨c, hc⟩
      exact ⟨by simpa [hx] using ih.1, by simp [Line.code_length hc, ih.2]⟩
    · rw [hr] at ih; rw [h]
      obtain ⟨k, y, hk, hy, hb⟩ := ih
      exact ⟨k + 1, y, by omega, by simpa using hy, hb⟩
    · rw [h]
      refine ⟨0, x, rfl, rfl, ?_⟩
      by_contra hb
      obtain ⟨c, hc'⟩ := (Line.code_ok lines at_ x).mpr (by simpa using hb)
      rw [hc] at hc'; cases hc'

/-- The code of a program's last line ends the program. -/
theorem assembleFrom_last {lines : List Line} {number at_ : Nat} {xs : List Line} {y : Line} {prog : List HostInstr}
    (h : assembleFrom lines number at_ (xs ++ [y]) = .ok prog) :
    ∃ r c at', y.code lines at' = .ok c ∧ prog = r ++ c := by
  induction xs generalizing number at_ prog with
  | nil =>
    obtain ⟨c, hc, ⟨r, hr, h'⟩ | ⟨e, hr, h'⟩⟩ | ⟨r, hc, h'⟩ := assembleFrom_cons lines number at_ y []
    all_goals rw [List.nil_append, h'] at h; cases h
    cases hr
    exact ⟨[], c, at_, hc, by simp⟩
  | cons x xs ih =>
    obtain ⟨c, hc, ⟨r, hr, h'⟩ | ⟨e, hr, h'⟩⟩ | ⟨r, hc, h'⟩ := assembleFrom_cons lines number at_ x (xs ++ [y])
    all_goals rw [List.cons_append, h'] at h; cases h
    obtain ⟨r', c', at', h1, rfl⟩ := ih hr
    exact ⟨c ++ r', c', at', h1, by simp⟩

end Sys2Proof.Machine
end

