-- ==== Sys2Proof/Laws/Interval.lean ====
section
/-! SUPPORT. The integer laws of the interval engine and the renormalization unit (41_interval_core.md R172-R184), on numbers. -/

namespace Sys2Proof.Machine

/-- The session constants of R15 in terms of one number: QUARTER. -/
theorem constants (p : Nat) (hp : 2 ≤ p) :
    1 ≤ quarter p ∧ half p = 2 * quarter p ∧ threeQ p = 3 * quarter p ∧ top p + 1 = 4 * quarter p ∧ 2 ^ p = 4 * quarter p := by
  obtain ⟨k, rfl⟩ : ∃ k, p = k + 2 := ⟨p - 2, by omega⟩
  have h1 : 1 ≤ 2 ^ k := Nat.one_le_two_pow
  simp only [quarter, half, threeQ, top, Nat.add_sub_cancel, show k + 2 - 1 = k + 1 by omega]
  have h2 : 2 ^ (k + 1) = 2 * 2 ^ k := by ring
  have h3 : 2 ^ (k + 2) = 4 * 2 ^ k := by ring
  rw [h2, h3]
  exact ⟨h1, rfl, trivial, by omega, rfl⟩

/-- The three regimes as linear conditions, and the case of none. -/
theorem classify_cases (p : Nat) (x : Interval) :
    (classify p x = some .e1 ∧ x.hi < half p) ∨
    (classify p x = some .e2 ∧ half p ≤ x.hi ∧ half p ≤ x.lo) ∨
    (classify p x = some .e3 ∧ half p ≤ x.hi ∧ x.lo < half p ∧ quarter p ≤ x.lo ∧ x.hi < threeQ p) ∨
    (classify p x = none ∧ half p ≤ x.hi ∧ x.lo < half p ∧ (x.lo < quarter p ∨ threeQ p ≤ x.hi)) := by
  unfold classify
  split
  · left; exact ⟨rfl, ‹_›⟩
  · split
    · right; left; exact ⟨rfl, by omega, ‹_›⟩
    · split
      · right; right; left; exact ⟨rfl, by omega, by omega, by omega, by omega⟩
      · right; right; right; exact ⟨rfl, by omega, by omega, by omega⟩

/-- An interval within P bits: what every law below starts from. -/
def Interval.within (p : Nat) (x : Interval) : Prop := x.lo ≤ x.hi ∧ x.hi ≤ top p

/-- A step keeps the interval within P bits, its offset is at most LOW, and it doubles the range (R183, R184). -/
theorem transform_within {p : Nat} (hp : 2 ≤ p) {x : Interval} (hx : x.within p) {g : Regime} (hg : classify p x = some g) :
    (g.transform p x).within p ∧ g.offset p ≤ x.lo ∧ (g.transform p x).range = 2 * x.range := by
  obtain ⟨h1, h2, h3, h4, -⟩ := constants p hp
  obtain ⟨ha, hb⟩ := hx
  rcases classify_cases p x with ⟨h, _⟩ | ⟨h, _⟩ | ⟨h, _⟩ | ⟨h, _⟩ <;> rw [hg] at h <;> cases h <;>
    simp only [Interval.within, Regime.transform, Regime.offset, Interval.range] <;> omega

/-- CODE stays inside the interval over a step (R184). -/
theorem shiftCode_inside {p : Nat} (hp : 2 ≤ p) {x : Interval} (hx : x.within p) {g : Regime} (hg : classify p x = some g)
    {code : Nat} (h1 : x.lo ≤ code) (h2 : code ≤ x.hi) (bit : Bool) :
    (g.transform p x).lo ≤ g.shiftCode p code bit ∧ g.shiftCode p code bit ≤ (g.transform p x).hi := by
  have := (transform_within hp hx hg).2.1
  have : bit.toNat ≤ 1 := Bool.toNat_le bit
  simp only [Regime.transform, Regime.shiftCode]
  omega

@[simp] theorem renormalized_nil (p : Nat) (x : Interval) : renormalized p x [] = x := rfl
@[simp] theorem renormalized_cons (p : Nat) (x : Interval) (g : Regime) (gs : List Regime) :
    renormalized p x (g :: gs) = renormalized p (g.transform p x) gs := rfl

theorem regimes_none {p : Nat} {x : Interval} (fuel : Nat) (h : classify p x = none) : regimes p fuel x = [] := by
  cases fuel <;> simp [regimes, h]

theorem regimes_some {p : Nat} {x : Interval} {g : Regime} (fuel : Nat) (h : classify p x = some g) :
    regimes p (fuel + 1) x = g :: regimes p fuel (g.transform p x) := by simp [regimes, h]

/-- RENORM keeps the interval within P bits. -/
theorem renormalized_within {p : Nat} (hp : 2 ≤ p) (fuel : Nat) {x : Interval} (hx : x.within p) :
    (renormalized p x (regimes p fuel x)).within p := by
  induction fuel generalizing x with
  | zero => simpa [regimes] using hx
  | succ n ih =>
    cases h : classify p x with
    | none => simpa [regimes_none (n + 1) h] using hx
    | some g => simpa [regimes_some n h] using ih (transform_within hp hx h).1

/-- Enough fuel: once range * 2^fuel reaches 2^P, RENORM has ended (R183). -/
theorem renormalized_settled_of_fuel {p : Nat} (hp : 2 ≤ p) (fuel : Nat) {x : Interval} (hx : x.within p)
    (hf : 2 ^ p ≤ x.range * 2 ^ fuel) : classify p (renormalized p x (regimes p fuel x)) = none := by
  induction fuel generalizing x with
  | zero =>
    obtain ⟨h1, h2, h3, h4, h5⟩ := constants p hp
    obtain ⟨ha, hb⟩ := hx
    simp only [Interval.range, pow_zero, Nat.mul_one] at hf
    rcases classify_cases p x with ⟨h, _⟩ | ⟨h, _⟩ | ⟨h, _⟩ | ⟨h, _⟩ <;> first | exact h | omega
  | succ n ih =>
    cases h : classify p x with
    | none => simpa [regimes_none (n + 1) h] using h
    | some g =>
      obtain ⟨hw, -, hr⟩ := transform_within hp hx h
      rw [regimes_some n h, renormalized_cons]
      exact ih hw (by rw [hr]; calc 2 ^ p ≤ x.range * 2 ^ (n + 1) := hf
                        _ = 2 * x.range * 2 ^ n := by ring)

/-- P steps are enough (R183). -/
theorem renormalized_settled {p : Nat} (hp : 2 ≤ p) {x : Interval} (hx : x.within p) :
    classify p (renormalized p x (regimes p p x)) = none :=
  renormalized_settled_of_fuel hp p hx (Nat.le_mul_of_pos_left _ (Nat.succ_pos _))

/-- Where no regime applies, R56 holds. -/
theorem settled_of_none {p : Nat} (hp : 2 ≤ p) {x : Interval} (hx : x.within p) (h : classify p x = none) :
    x.settled p = true := by
  obtain ⟨h1, h2, h3, h4, -⟩ := constants p hp
  obtain ⟨ha, hb⟩ := hx
  rcases classify_cases p x with ⟨h', _⟩ | ⟨h', _⟩ | ⟨h', _⟩ | ⟨h', _⟩ <;> rw [h] at h' <;> cases h'
  have : x.lo < x.hi := by omega
  simp [Interval.settled, h, this, hb]

/-- What R56 says of a settled interval. -/
theorem settled_bounds {p : Nat} (hp : 2 ≤ p) {x : Interval} (hx : x.settled p = true) :
    x.within p ∧ x.lo < x.hi ∧ classify p x = none ∧ quarter p + 2 ≤ x.range := by
  obtain ⟨h1, h2, h3, h4, -⟩ := constants p hp
  simp only [Interval.settled, Bool.and_eq_true, decide_eq_true_eq] at hx
  obtain ⟨⟨ha, hb⟩, hc⟩ := hx
  refine ⟨⟨by omega, hb⟩, ha, hc, ?_⟩
  rcases classify_cases p x with ⟨h', _⟩ | ⟨h', _⟩ | ⟨h', _⟩ | ⟨h', _⟩ <;> rw [hc] at h' <;> cases h'
  simp only [Interval.range]
  omega

/-- The whole interval is settled (R35). -/
theorem whole_settled {p : Nat} (hp : 2 ≤ p) : (Interval.whole p).settled p = true := by
  obtain ⟨h1, h2, h3, h4, -⟩ := constants p hp
  refine settled_of_none hp ⟨by simp [Interval.whole], by simp [Interval.whole]⟩ ?_
  rcases classify_cases p (Interval.whole p) with ⟨h', _⟩ | ⟨h', _⟩ | ⟨h', _⟩ | ⟨h', _⟩ <;>
    simp only [Interval.whole] at * <;> first | exact h' | omega

/-- Narrowing stays inside the old interval (R172) and is not empty (R175). -/
theorem narrow_within {x : Interval} {cl ch t : Nat} (hlh : x.lo ≤ x.hi) (hr : t ≤ x.range) (h1 : cl < ch) (h2 : ch ≤ t) :
    (x.range * cl) / t < (x.range * ch) / t ∧ x.lo ≤ (x.narrow cl ch t).lo ∧
      (x.narrow cl ch t).lo ≤ (x.narrow cl ch t).hi ∧ (x.narrow cl ch t).hi ≤ x.hi := by
  have ht : 0 < t := by omega
  have hlt : (x.range * cl) / t < (x.range * ch) / t := by
    have : x.range * cl + t ≤ x.range * ch := by
      calc x.range * cl + t ≤ x.range * cl + x.range := by omega
        _ = x.range * (cl + 1) := by ring
        _ ≤ x.range * ch := Nat.mul_le_mul_left _ h1
    calc (x.range * cl) / t < (x.range * cl) / t + 1 := Nat.lt_succ_self _
      _ = (x.range * cl + t) / t := (Nat.add_div_right _ ht).symm
      _ ≤ (x.range * ch) / t := Nat.div_le_div_right this
  have hle : (x.range * ch) / t ≤ x.range := by
    calc (x.range * ch) / t ≤ (x.range * t) / t := Nat.div_le_div_right (Nat.mul_le_mul_left _ h2)
      _ = x.range := Nat.mul_div_cancel _ ht
  refine ⟨hlt, ?_⟩
  simp only [Interval.narrow]
  generalize (x.range * cl) / t = a at *
  generalize (x.range * ch) / t = b at *
  simp only [Interval.range] at *
  omega

/-- The decoder's cumulative value is below the total (R173). -/
theorem value_lt {x : Interval} {code t : Nat} (h1 : x.lo ≤ code) (h2 : code ≤ x.hi) (ht : 1 ≤ t) : x.value code t < t := by
  have hr : 0 < x.range := Nat.succ_pos _
  simp only [Interval.value]
  rw [Nat.div_lt_iff_lt_mul hr]
  have : code - x.lo + 1 ≤ x.range := by simp only [Interval.range]; omega
  have : (code - x.lo + 1) * t ≤ x.range * t := Nat.mul_le_mul_right _ this
  have : 1 ≤ x.range * t := Nat.mul_pos hr ht
  rw [Nat.mul_comm t]
  omega

/-- The decoder's choice is exact (R174): CODE is inside the narrowed interval when the symbol's interval holds VALUE(t). -/
theorem narrow_holds_code {x : Interval} {code cl ch t : Nat} (h1 : x.lo ≤ code) (ht : 1 ≤ t)
    (hcl : cl ≤ x.value code t) (hch : x.value code t < ch) :
    (x.narrow cl ch t).lo ≤ code ∧ code ≤ (x.narrow cl ch t).hi := by
  have hr : 0 < x.range := Nat.succ_pos _
  simp only [Interval.value] at hcl hch
  rw [Nat.le_div_iff_mul_le hr] at hcl
  rw [Nat.div_lt_iff_lt_mul hr] at hch
  have hpos : 1 ≤ (code - x.lo + 1) * t := Nat.mul_pos (Nat.succ_pos _) ht
  constructor
  · have : (x.range * cl) / t < code - x.lo + 1 := by
      rw [Nat.div_lt_iff_lt_mul ht, Nat.mul_comm x.range]
      omega
    simp only [Interval.narrow]
    omega
  · have : code - x.lo + 1 ≤ (x.range * ch) / t := by
      rw [Nat.le_div_iff_mul_le ht, Nat.mul_comm x.range]
      omega
    simp only [Interval.narrow]
    omega

/-- RENORM(DEC) keeps CODE inside (R184): after the steps, CODE lies in the interval. -/
theorem shiftedCode_inside {p : Nat} (hp : 2 ≤ p) (fuel : Nat) {x : Interval} (hx : x.within p) {code : Nat}
    (h1 : x.lo ≤ code) (h2 : code ≤ x.hi) (bits : List Bool) (hb : bits.length = (regimes p fuel x).length) :
    (renormalized p x (regimes p fuel x)).lo ≤ shiftedCode p code ((regimes p fuel x).zip bits) ∧
      shiftedCode p code ((regimes p fuel x).zip bits) ≤ (renormalized p x (regimes p fuel x)).hi := by
  induction fuel generalizing x code bits with
  | zero => simpa [regimes, shiftedCode] using ⟨h1, h2⟩
  | succ n ih =>
    cases h : classify p x with
    | none => simpa [regimes_none (n + 1) h, shiftedCode] using ⟨h1, h2⟩
    | some g =>
      rw [regimes_some n h] at hb ⊢
      cases bits with
      | nil => simp at hb
      | cons b bs =>
        have hin := shiftCode_inside hp hx h h1 h2 b
        simpa [shiftedCode] using ih (transform_within hp hx h).1 hin.1 hin.2 bs (by simpa using hb)

end Sys2Proof.Machine
end

