-- ==== Sys2Proof/Laws/State.lean ====
section
/-! SUPPORT. What each update of the state does to each field: one lemma a field, by rfl. -/

namespace Sys2Proof.Machine

@[simp] theorem complete_build (e : ErrCode) (eos : Bool) (s : State) : (complete e eos s).build = s.build := rfl
@[simp] theorem complete_regs (e : ErrCode) (eos : Bool) (s : State) : (complete e eos s).regs = { s.regs with err := e, eos := eos } := rfl
@[simp] theorem complete_arg0 (e : ErrCode) (eos : Bool) (s : State) : (complete e eos s).arg0 = s.arg0 := rfl
@[simp] theorem complete_argL (e : ErrCode) (eos : Bool) (s : State) : (complete e eos s).argL = s.argL := rfl
@[simp] theorem complete_cmd (e : ErrCode) (eos : Bool) (s : State) : (complete e eos s).cmd = s.cmd := rfl
@[simp] theorem complete_busy (e : ErrCode) (eos : Bool) (s : State) : (complete e eos s).busy = false := rfl
@[simp] theorem complete_ports (e : ErrCode) (eos : Bool) (s : State) : (complete e eos s).ports = s.ports := rfl
@[simp] theorem complete_live (e : ErrCode) (eos : Bool) (s : State) : (complete e eos s).live = [] := rfl
@[simp] theorem complete_outstanding (e : ErrCode) (eos : Bool) (s : State) : (complete e eos s).outstanding = none := rfl
@[simp] theorem complete_abandoned (e : ErrCode) (eos : Bool) (s : State) : (complete e eos s).abandoned = s.abandoned := rfl
@[simp] theorem complete_trace (e : ErrCode) (eos : Bool) (s : State) : (complete e eos s).trace = s.trace ++ s.live := rfl
@[simp] theorem complete_host (e : ErrCode) (eos : Bool) (s : State) : (complete e eos s).host = s.host := rfl
@[simp] theorem complete_inputs (e : ErrCode) (eos : Bool) (s : State) : (complete e eos s).inputs = s.inputs := rfl
@[simp] theorem complete_drawn (e : ErrCode) (eos : Bool) (s : State) : (complete e eos s).drawn = s.drawn := rfl

@[simp] theorem suspend_build (q : Request) (r s : State) : (suspend q r s).build = s.build := rfl
@[simp] theorem suspend_regs (q : Request) (r s : State) : (suspend q r s).regs = s.regs := rfl
@[simp] theorem suspend_arg0 (q : Request) (r s : State) : (suspend q r s).arg0 = s.arg0 := rfl
@[simp] theorem suspend_argL (q : Request) (r s : State) : (suspend q r s).argL = s.argL := rfl
@[simp] theorem suspend_cmd (q : Request) (r s : State) : (suspend q r s).cmd = s.cmd := rfl
@[simp] theorem suspend_busy (q : Request) (r s : State) : (suspend q r s).busy = true := rfl
@[simp] theorem suspend_ports (q : Request) (r s : State) : (suspend q r s).ports = s.ports := rfl
@[simp] theorem suspend_live (q : Request) (r s : State) : (suspend q r s).live = r.live := rfl
@[simp] theorem suspend_outstanding (q : Request) (r s : State) : (suspend q r s).outstanding = some q := rfl
@[simp] theorem suspend_abandoned (q : Request) (r s : State) : (suspend q r s).abandoned = s.abandoned := rfl
@[simp] theorem suspend_trace (q : Request) (r s : State) : (suspend q r s).trace = s.trace := rfl
@[simp] theorem suspend_host (q : Request) (r s : State) : (suspend q r s).host = s.host := rfl
@[simp] theorem suspend_inputs (q : Request) (r s : State) : (suspend q r s).inputs = s.inputs := rfl
@[simp] theorem suspend_drawn (q : Request) (r s : State) : (suspend q r s).drawn = s.drawn := rfl

@[simp] theorem record_build (t : Transaction) (s : State) : (record t s).build = s.build := rfl
@[simp] theorem record_regs (t : Transaction) (s : State) : (record t s).regs = s.regs := rfl
@[simp] theorem record_arg0 (t : Transaction) (s : State) : (record t s).arg0 = s.arg0 := rfl
@[simp] theorem record_argL (t : Transaction) (s : State) : (record t s).argL = s.argL := rfl
@[simp] theorem record_cmd (t : Transaction) (s : State) : (record t s).cmd = s.cmd := rfl
@[simp] theorem record_busy (t : Transaction) (s : State) : (record t s).busy = s.busy := rfl
@[simp] theorem record_ports (t : Transaction) (s : State) : (record t s).ports = s.ports := rfl
@[simp] theorem record_live (t : Transaction) (s : State) : (record t s).live = s.live ++ [t] := rfl
@[simp] theorem record_outstanding (t : Transaction) (s : State) : (record t s).outstanding = s.outstanding := rfl
@[simp] theorem record_abandoned (t : Transaction) (s : State) : (record t s).abandoned = s.abandoned := rfl
@[simp] theorem record_trace (t : Transaction) (s : State) : (record t s).trace = s.trace := rfl
@[simp] theorem record_host (t : Transaction) (s : State) : (record t s).host = s.host := rfl
@[simp] theorem record_inputs (t : Transaction) (s : State) : (record t s).inputs = s.inputs := rfl
@[simp] theorem record_drawn (t : Transaction) (s : State) : (record t s).drawn = s.drawn := rfl

@[simp] theorem beginSession_build (k : Kind) (p : Nat) (m : Word) (s : State) : (beginSession k p m s).build = s.build := rfl
@[simp] theorem beginSession_regs_state (k : Kind) (p : Nat) (m : Word) (s : State) : (beginSession k p m s).regs.state = s.regs.state := rfl
@[simp] theorem beginSession_regs_eos (k : Kind) (p : Nat) (m : Word) (s : State) : (beginSession k p m s).regs.eos = s.regs.eos := rfl
@[simp] theorem beginSession_regs_kind (k : Kind) (p : Nat) (m : Word) (s : State) : (beginSession k p m s).regs.kind = k := rfl
@[simp] theorem beginSession_regs_overrun (k : Kind) (p : Nat) (m : Word) (s : State) : (beginSession k p m s).regs.overrun = s.regs.overrun := rfl
@[simp] theorem beginSession_regs_exhausted (k : Kind) (p : Nat) (m : Word) (s : State) : (beginSession k p m s).regs.exhausted = false := rfl
@[simp] theorem beginSession_regs_err (k : Kind) (p : Nat) (m : Word) (s : State) : (beginSession k p m s).regs.err = s.regs.err := rfl
@[simp] theorem beginSession_regs_prec (k : Kind) (p : Nat) (m : Word) (s : State) : (beginSession k p m s).regs.prec = BitVec.ofNat 7 p := rfl
@[simp] theorem beginSession_regs_low (k : Kind) (p : Nat) (m : Word) (s : State) : (beginSession k p m s).regs.low = 0 := rfl
@[simp] theorem beginSession_regs_high (k : Kind) (p : Nat) (m : Word) (s : State) : (beginSession k p m s).regs.high = BitVec.ofNat 64 (2 ^ p - 1) := rfl
@[simp] theorem beginSession_regs_code (k : Kind) (p : Nat) (m : Word) (s : State) : (beginSession k p m s).regs.code = 0 := rfl
@[simp] theorem beginSession_regs_pending (k : Kind) (p : Nat) (m : Word) (s : State) : (beginSession k p m s).regs.pending = 0 := rfl
@[simp] theorem beginSession_regs_maxtot (k : Kind) (p : Nat) (m : Word) (s : State) : (beginSession k p m s).regs.maxtot = m := rfl
@[simp] theorem beginSession_regs_bitcnt (k : Kind) (p : Nat) (m : Word) (s : State) : (beginSession k p m s).regs.bitcnt = 0 := rfl
@[simp] theorem beginSession_regs_symcnt (k : Kind) (p : Nat) (m : Word) (s : State) : (beginSession k p m s).regs.symcnt = 0 := rfl
@[simp] theorem beginSession_regs_padcnt (k : Kind) (p : Nat) (m : Word) (s : State) : (beginSession k p m s).regs.padcnt = 0 := rfl
@[simp] theorem beginSession_regs_result (k : Kind) (p : Nat) (m : Word) (s : State) : (beginSession k p m s).regs.result = 0 := rfl
@[simp] theorem beginSession_arg0 (k : Kind) (p : Nat) (m : Word) (s : State) : (beginSession k p m s).arg0 = s.arg0 := rfl
@[simp] theorem beginSession_argL (k : Kind) (p : Nat) (m : Word) (s : State) : (beginSession k p m s).argL = s.argL := rfl
@[simp] theorem beginSession_cmd (k : Kind) (p : Nat) (m : Word) (s : State) : (beginSession k p m s).cmd = s.cmd := rfl
@[simp] theorem beginSession_busy (k : Kind) (p : Nat) (m : Word) (s : State) : (beginSession k p m s).busy = s.busy := rfl
@[simp] theorem beginSession_ports (k : Kind) (p : Nat) (m : Word) (s : State) : (beginSession k p m s).ports = s.ports := rfl
@[simp] theorem beginSession_live (k : Kind) (p : Nat) (m : Word) (s : State) : (beginSession k p m s).live = s.live := rfl
@[simp] theorem beginSession_outstanding (k : Kind) (p : Nat) (m : Word) (s : State) : (beginSession k p m s).outstanding = s.outstanding := rfl
@[simp] theorem beginSession_abandoned (k : Kind) (p : Nat) (m : Word) (s : State) : (beginSession k p m s).abandoned = s.abandoned := rfl
@[simp] theorem beginSession_trace (k : Kind) (p : Nat) (m : Word) (s : State) : (beginSession k p m s).trace = s.trace := rfl
@[simp] theorem beginSession_host (k : Kind) (p : Nat) (m : Word) (s : State) : (beginSession k p m s).host = s.host := rfl
@[simp] theorem beginSession_inputs (k : Kind) (p : Nat) (m : Word) (s : State) : (beginSession k p m s).inputs = s.inputs := rfl
@[simp] theorem beginSession_drawn (k : Kind) (p : Nat) (m : Word) (s : State) : (beginSession k p m s).drawn = s.drawn := rfl

@[simp] theorem clearSession_build (s : State) : (clearSession s).build = s.build := rfl
@[simp] theorem clearSession_regs_state (s : State) : (clearSession s).regs.state = .idle := rfl
@[simp] theorem clearSession_regs_eos (s : State) : (clearSession s).regs.eos = s.regs.eos := rfl
@[simp] theorem clearSession_regs_kind (s : State) : (clearSession s).regs.kind = .encode := rfl
@[simp] theorem clearSession_regs_overrun (s : State) : (clearSession s).regs.overrun = false := rfl
@[simp] theorem clearSession_regs_exhausted (s : State) : (clearSession s).regs.exhausted = false := rfl
@[simp] theorem clearSession_regs_err (s : State) : (clearSession s).regs.err = s.regs.err := rfl
@[simp] theorem clearSession_regs_prec (s : State) : (clearSession s).regs.prec = 0 := rfl
@[simp] theorem clearSession_regs_low (s : State) : (clearSession s).regs.low = 0 := rfl
@[simp] theorem clearSession_regs_high (s : State) : (clearSession s).regs.high = 0 := rfl
@[simp] theorem clearSession_regs_code (s : State) : (clearSession s).regs.code = 0 := rfl
@[simp] theorem clearSession_regs_pending (s : State) : (clearSession s).regs.pending = 0 := rfl
@[simp] theorem clearSession_regs_maxtot (s : State) : (clearSession s).regs.maxtot = 0 := rfl
@[simp] theorem clearSession_regs_bitcnt (s : State) : (clearSession s).regs.bitcnt = 0 := rfl
@[simp] theorem clearSession_regs_symcnt (s : State) : (clearSession s).regs.symcnt = 0 := rfl
@[simp] theorem clearSession_regs_padcnt (s : State) : (clearSession s).regs.padcnt = 0 := rfl
@[simp] theorem clearSession_regs_result (s : State) : (clearSession s).regs.result = 0 := rfl
@[simp] theorem clearSession_arg0 (s : State) : (clearSession s).arg0 = s.arg0 := rfl
@[simp] theorem clearSession_argL (s : State) : (clearSession s).argL = s.argL := rfl
@[simp] theorem clearSession_cmd (s : State) : (clearSession s).cmd = s.cmd := rfl
@[simp] theorem clearSession_busy (s : State) : (clearSession s).busy = s.busy := rfl
@[simp] theorem clearSession_ports (s : State) : (clearSession s).ports = s.ports := rfl
@[simp] theorem clearSession_live (s : State) : (clearSession s).live = s.live := rfl
@[simp] theorem clearSession_outstanding (s : State) : (clearSession s).outstanding = s.outstanding := rfl
@[simp] theorem clearSession_abandoned (s : State) : (clearSession s).abandoned = s.abandoned := rfl
@[simp] theorem clearSession_trace (s : State) : (clearSession s).trace = s.trace := rfl
@[simp] theorem clearSession_host (s : State) : (clearSession s).host = s.host := rfl
@[simp] theorem clearSession_inputs (s : State) : (clearSession s).inputs = s.inputs := rfl
@[simp] theorem clearSession_drawn (s : State) : (clearSession s).drawn = s.drawn := rfl

@[simp] theorem setState_build (x : Session) (s : State) : (setState x s).build = s.build := rfl
@[simp] theorem setState_regs (x : Session) (s : State) : (setState x s).regs = { s.regs with state := x } := rfl
@[simp] theorem setState_arg0 (x : Session) (s : State) : (setState x s).arg0 = s.arg0 := rfl
@[simp] theorem setState_argL (x : Session) (s : State) : (setState x s).argL = s.argL := rfl
@[simp] theorem setState_cmd (x : Session) (s : State) : (setState x s).cmd = s.cmd := rfl
@[simp] theorem setState_busy (x : Session) (s : State) : (setState x s).busy = s.busy := rfl
@[simp] theorem setState_ports (x : Session) (s : State) : (setState x s).ports = s.ports := rfl
@[simp] theorem setState_live (x : Session) (s : State) : (setState x s).live = s.live := rfl
@[simp] theorem setState_outstanding (x : Session) (s : State) : (setState x s).outstanding = s.outstanding := rfl
@[simp] theorem setState_abandoned (x : Session) (s : State) : (setState x s).abandoned = s.abandoned := rfl
@[simp] theorem setState_trace (x : Session) (s : State) : (setState x s).trace = s.trace := rfl
@[simp] theorem setState_host (x : Session) (s : State) : (setState x s).host = s.host := rfl
@[simp] theorem setState_inputs (x : Session) (s : State) : (setState x s).inputs = s.inputs := rfl
@[simp] theorem setState_drawn (x : Session) (s : State) : (setState x s).drawn = s.drawn := rfl

@[simp] theorem setResult_build (v : Word) (s : State) : (setResult v s).build = s.build := rfl
@[simp] theorem setResult_regs (v : Word) (s : State) : (setResult v s).regs = { s.regs with result := v } := rfl
@[simp] theorem setResult_arg0 (v : Word) (s : State) : (setResult v s).arg0 = s.arg0 := rfl
@[simp] theorem setResult_argL (v : Word) (s : State) : (setResult v s).argL = s.argL := rfl
@[simp] theorem setResult_cmd (v : Word) (s : State) : (setResult v s).cmd = s.cmd := rfl
@[simp] theorem setResult_busy (v : Word) (s : State) : (setResult v s).busy = s.busy := rfl
@[simp] theorem setResult_ports (v : Word) (s : State) : (setResult v s).ports = s.ports := rfl
@[simp] theorem setResult_live (v : Word) (s : State) : (setResult v s).live = s.live := rfl
@[simp] theorem setResult_outstanding (v : Word) (s : State) : (setResult v s).outstanding = s.outstanding := rfl
@[simp] theorem setResult_abandoned (v : Word) (s : State) : (setResult v s).abandoned = s.abandoned := rfl
@[simp] theorem setResult_trace (v : Word) (s : State) : (setResult v s).trace = s.trace := rfl
@[simp] theorem setResult_host (v : Word) (s : State) : (setResult v s).host = s.host := rfl
@[simp] theorem setResult_inputs (v : Word) (s : State) : (setResult v s).inputs = s.inputs := rfl
@[simp] theorem setResult_drawn (v : Word) (s : State) : (setResult v s).drawn = s.drawn := rfl

@[simp] theorem setPending_build (v : Word) (s : State) : (setPending v s).build = s.build := rfl
@[simp] theorem setPending_regs (v : Word) (s : State) : (setPending v s).regs = { s.regs with pending := v } := rfl
@[simp] theorem setPending_arg0 (v : Word) (s : State) : (setPending v s).arg0 = s.arg0 := rfl
@[simp] theorem setPending_argL (v : Word) (s : State) : (setPending v s).argL = s.argL := rfl
@[simp] theorem setPending_cmd (v : Word) (s : State) : (setPending v s).cmd = s.cmd := rfl
@[simp] theorem setPending_busy (v : Word) (s : State) : (setPending v s).busy = s.busy := rfl
@[simp] theorem setPending_ports (v : Word) (s : State) : (setPending v s).ports = s.ports := rfl
@[simp] theorem setPending_live (v : Word) (s : State) : (setPending v s).live = s.live := rfl
@[simp] theorem setPending_outstanding (v : Word) (s : State) : (setPending v s).outstanding = s.outstanding := rfl
@[simp] theorem setPending_abandoned (v : Word) (s : State) : (setPending v s).abandoned = s.abandoned := rfl
@[simp] theorem setPending_trace (v : Word) (s : State) : (setPending v s).trace = s.trace := rfl
@[simp] theorem setPending_host (v : Word) (s : State) : (setPending v s).host = s.host := rfl
@[simp] theorem setPending_inputs (v : Word) (s : State) : (setPending v s).inputs = s.inputs := rfl
@[simp] theorem setPending_drawn (v : Word) (s : State) : (setPending v s).drawn = s.drawn := rfl

@[simp] theorem countSymbol_build (s : State) : (countSymbol s).build = s.build := rfl
@[simp] theorem countSymbol_regs (s : State) : (countSymbol s).regs = { s.regs with symcnt := s.regs.symcnt + 1 } := rfl
@[simp] theorem countSymbol_arg0 (s : State) : (countSymbol s).arg0 = s.arg0 := rfl
@[simp] theorem countSymbol_argL (s : State) : (countSymbol s).argL = s.argL := rfl
@[simp] theorem countSymbol_cmd (s : State) : (countSymbol s).cmd = s.cmd := rfl
@[simp] theorem countSymbol_busy (s : State) : (countSymbol s).busy = s.busy := rfl
@[simp] theorem countSymbol_ports (s : State) : (countSymbol s).ports = s.ports := rfl
@[simp] theorem countSymbol_live (s : State) : (countSymbol s).live = s.live := rfl
@[simp] theorem countSymbol_outstanding (s : State) : (countSymbol s).outstanding = s.outstanding := rfl
@[simp] theorem countSymbol_abandoned (s : State) : (countSymbol s).abandoned = s.abandoned := rfl
@[simp] theorem countSymbol_trace (s : State) : (countSymbol s).trace = s.trace := rfl
@[simp] theorem countSymbol_host (s : State) : (countSymbol s).host = s.host := rfl
@[simp] theorem countSymbol_inputs (s : State) : (countSymbol s).inputs = s.inputs := rfl
@[simp] theorem countSymbol_drawn (s : State) : (countSymbol s).drawn = s.drawn := rfl

@[simp] theorem countBit_build (s : State) : (countBit s).build = s.build := rfl
@[simp] theorem countBit_regs (s : State) : (countBit s).regs = { s.regs with bitcnt := s.regs.bitcnt + 1 } := rfl
@[simp] theorem countBit_arg0 (s : State) : (countBit s).arg0 = s.arg0 := rfl
@[simp] theorem countBit_argL (s : State) : (countBit s).argL = s.argL := rfl
@[simp] theorem countBit_cmd (s : State) : (countBit s).cmd = s.cmd := rfl
@[simp] theorem countBit_busy (s : State) : (countBit s).busy = s.busy := rfl
@[simp] theorem countBit_ports (s : State) : (countBit s).ports = s.ports := rfl
@[simp] theorem countBit_live (s : State) : (countBit s).live = s.live := rfl
@[simp] theorem countBit_outstanding (s : State) : (countBit s).outstanding = s.outstanding := rfl
@[simp] theorem countBit_abandoned (s : State) : (countBit s).abandoned = s.abandoned := rfl
@[simp] theorem countBit_trace (s : State) : (countBit s).trace = s.trace := rfl
@[simp] theorem countBit_host (s : State) : (countBit s).host = s.host := rfl
@[simp] theorem countBit_inputs (s : State) : (countBit s).inputs = s.inputs := rfl
@[simp] theorem countBit_drawn (s : State) : (countBit s).drawn = s.drawn := rfl

@[simp] theorem setInterval_build (x : Interval) (s : State) : (setInterval x s).build = s.build := rfl
@[simp] theorem setInterval_regs (x : Interval) (s : State) : (setInterval x s).regs = { s.regs with low := BitVec.ofNat 64 x.lo, high := BitVec.ofNat 64 x.hi } := rfl
@[simp] theorem setInterval_arg0 (x : Interval) (s : State) : (setInterval x s).arg0 = s.arg0 := rfl
@[simp] theorem setInterval_argL (x : Interval) (s : State) : (setInterval x s).argL = s.argL := rfl
@[simp] theorem setInterval_cmd (x : Interval) (s : State) : (setInterval x s).cmd = s.cmd := rfl
@[simp] theorem setInterval_busy (x : Interval) (s : State) : (setInterval x s).busy = s.busy := rfl
@[simp] theorem setInterval_ports (x : Interval) (s : State) : (setInterval x s).ports = s.ports := rfl
@[simp] theorem setInterval_live (x : Interval) (s : State) : (setInterval x s).live = s.live := rfl
@[simp] theorem setInterval_outstanding (x : Interval) (s : State) : (setInterval x s).outstanding = s.outstanding := rfl
@[simp] theorem setInterval_abandoned (x : Interval) (s : State) : (setInterval x s).abandoned = s.abandoned := rfl
@[simp] theorem setInterval_trace (x : Interval) (s : State) : (setInterval x s).trace = s.trace := rfl
@[simp] theorem setInterval_host (x : Interval) (s : State) : (setInterval x s).host = s.host := rfl
@[simp] theorem setInterval_inputs (x : Interval) (s : State) : (setInterval x s).inputs = s.inputs := rfl
@[simp] theorem setInterval_drawn (x : Interval) (s : State) : (setInterval x s).drawn = s.drawn := rfl

@[simp] theorem setCode_build (v : Nat) (s : State) : (setCode v s).build = s.build := rfl
@[simp] theorem setCode_regs (v : Nat) (s : State) : (setCode v s).regs = { s.regs with code := BitVec.ofNat 64 v } := rfl
@[simp] theorem setCode_arg0 (v : Nat) (s : State) : (setCode v s).arg0 = s.arg0 := rfl
@[simp] theorem setCode_argL (v : Nat) (s : State) : (setCode v s).argL = s.argL := rfl
@[simp] theorem setCode_cmd (v : Nat) (s : State) : (setCode v s).cmd = s.cmd := rfl
@[simp] theorem setCode_busy (v : Nat) (s : State) : (setCode v s).busy = s.busy := rfl
@[simp] theorem setCode_ports (v : Nat) (s : State) : (setCode v s).ports = s.ports := rfl
@[simp] theorem setCode_live (v : Nat) (s : State) : (setCode v s).live = s.live := rfl
@[simp] theorem setCode_outstanding (v : Nat) (s : State) : (setCode v s).outstanding = s.outstanding := rfl
@[simp] theorem setCode_abandoned (v : Nat) (s : State) : (setCode v s).abandoned = s.abandoned := rfl
@[simp] theorem setCode_trace (v : Nat) (s : State) : (setCode v s).trace = s.trace := rfl
@[simp] theorem setCode_host (v : Nat) (s : State) : (setCode v s).host = s.host := rfl
@[simp] theorem setCode_inputs (v : Nat) (s : State) : (setCode v s).inputs = s.inputs := rfl
@[simp] theorem setCode_drawn (v : Nat) (s : State) : (setCode v s).drawn = s.drawn := rfl

@[simp] theorem countPad_build (s : State) : (countPad s).build = s.build := rfl
@[simp] theorem countPad_regs (s : State) : (countPad s).regs = { s.regs with padcnt := saturatingSucc s.regs.padcnt } := rfl
@[simp] theorem countPad_arg0 (s : State) : (countPad s).arg0 = s.arg0 := rfl
@[simp] theorem countPad_argL (s : State) : (countPad s).argL = s.argL := rfl
@[simp] theorem countPad_cmd (s : State) : (countPad s).cmd = s.cmd := rfl
@[simp] theorem countPad_busy (s : State) : (countPad s).busy = s.busy := rfl
@[simp] theorem countPad_ports (s : State) : (countPad s).ports = s.ports := rfl
@[simp] theorem countPad_live (s : State) : (countPad s).live = s.live := rfl
@[simp] theorem countPad_outstanding (s : State) : (countPad s).outstanding = s.outstanding := rfl
@[simp] theorem countPad_abandoned (s : State) : (countPad s).abandoned = s.abandoned := rfl
@[simp] theorem countPad_trace (s : State) : (countPad s).trace = s.trace := rfl
@[simp] theorem countPad_host (s : State) : (countPad s).host = s.host := rfl
@[simp] theorem countPad_inputs (s : State) : (countPad s).inputs = s.inputs := rfl
@[simp] theorem countPad_drawn (s : State) : (countPad s).drawn = s.drawn := rfl

@[simp] theorem latchExhausted_build (s : State) : (latchExhausted s).build = s.build := rfl
@[simp] theorem latchExhausted_regs (s : State) : (latchExhausted s).regs = { s.regs with exhausted := true, padcnt := 1 } := rfl
@[simp] theorem latchExhausted_arg0 (s : State) : (latchExhausted s).arg0 = s.arg0 := rfl
@[simp] theorem latchExhausted_argL (s : State) : (latchExhausted s).argL = s.argL := rfl
@[simp] theorem latchExhausted_cmd (s : State) : (latchExhausted s).cmd = s.cmd := rfl
@[simp] theorem latchExhausted_busy (s : State) : (latchExhausted s).busy = s.busy := rfl
@[simp] theorem latchExhausted_ports (s : State) : (latchExhausted s).ports = s.ports := rfl
@[simp] theorem latchExhausted_live (s : State) : (latchExhausted s).live = s.live := rfl
@[simp] theorem latchExhausted_outstanding (s : State) : (latchExhausted s).outstanding = s.outstanding := rfl
@[simp] theorem latchExhausted_abandoned (s : State) : (latchExhausted s).abandoned = s.abandoned := rfl
@[simp] theorem latchExhausted_trace (s : State) : (latchExhausted s).trace = s.trace := rfl
@[simp] theorem latchExhausted_host (s : State) : (latchExhausted s).host = s.host := rfl
@[simp] theorem latchExhausted_inputs (s : State) : (latchExhausted s).inputs = s.inputs := rfl
@[simp] theorem latchExhausted_drawn (s : State) : (latchExhausted s).drawn = s.drawn := rfl

@[simp] theorem wroteBits_build (bits : List Bool) (s : State) : (wroteBits bits s).build = s.build := rfl
@[simp] theorem wroteBits_regs (bits : List Bool) (s : State) : (wroteBits bits s).regs = { s.regs with bitcnt := s.regs.bitcnt + BitVec.ofNat 64 bits.length } := rfl
@[simp] theorem wroteBits_arg0 (bits : List Bool) (s : State) : (wroteBits bits s).arg0 = s.arg0 := rfl
@[simp] theorem wroteBits_argL (bits : List Bool) (s : State) : (wroteBits bits s).argL = s.argL := rfl
@[simp] theorem wroteBits_cmd (bits : List Bool) (s : State) : (wroteBits bits s).cmd = s.cmd := rfl
@[simp] theorem wroteBits_busy (bits : List Bool) (s : State) : (wroteBits bits s).busy = s.busy := rfl
@[simp] theorem wroteBits_ports (bits : List Bool) (s : State) : (wroteBits bits s).ports = { s.ports with sink := s.ports.sink.drop bits.length } := rfl
@[simp] theorem wroteBits_live (bits : List Bool) (s : State) : (wroteBits bits s).live = s.live ++ bits.map fun b => .writeBit b .ok := rfl
@[simp] theorem wroteBits_outstanding (bits : List Bool) (s : State) : (wroteBits bits s).outstanding = s.outstanding := rfl
@[simp] theorem wroteBits_abandoned (bits : List Bool) (s : State) : (wroteBits bits s).abandoned = s.abandoned := rfl
@[simp] theorem wroteBits_trace (bits : List Bool) (s : State) : (wroteBits bits s).trace = s.trace := rfl
@[simp] theorem wroteBits_host (bits : List Bool) (s : State) : (wroteBits bits s).host = s.host := rfl
@[simp] theorem wroteBits_inputs (bits : List Bool) (s : State) : (wroteBits bits s).inputs = s.inputs := rfl
@[simp] theorem wroteBits_drawn (bits : List Bool) (s : State) : (wroteBits bits s).drawn = s.drawn := rfl

@[simp] theorem withBitSide_build (b : BitSide) (s : State) : (withBitSide b s).build = s.build := rfl
@[simp] theorem withBitSide_regs (b : BitSide) (s : State) : (withBitSide b s).regs = { s.regs with exhausted := b.exhausted, padcnt := b.padcnt, bitcnt := b.bitcnt } := rfl
@[simp] theorem withBitSide_arg0 (b : BitSide) (s : State) : (withBitSide b s).arg0 = s.arg0 := rfl
@[simp] theorem withBitSide_argL (b : BitSide) (s : State) : (withBitSide b s).argL = s.argL := rfl
@[simp] theorem withBitSide_cmd (b : BitSide) (s : State) : (withBitSide b s).cmd = s.cmd := rfl
@[simp] theorem withBitSide_busy (b : BitSide) (s : State) : (withBitSide b s).busy = s.busy := rfl
@[simp] theorem withBitSide_ports (b : BitSide) (s : State) : (withBitSide b s).ports = { s.ports with source := b.answers } := rfl
@[simp] theorem withBitSide_live (b : BitSide) (s : State) : (withBitSide b s).live = s.live ++ b.reads := rfl
@[simp] theorem withBitSide_outstanding (b : BitSide) (s : State) : (withBitSide b s).outstanding = s.outstanding := rfl
@[simp] theorem withBitSide_abandoned (b : BitSide) (s : State) : (withBitSide b s).abandoned = s.abandoned := rfl
@[simp] theorem withBitSide_trace (b : BitSide) (s : State) : (withBitSide b s).trace = s.trace := rfl
@[simp] theorem withBitSide_host (b : BitSide) (s : State) : (withBitSide b s).host = s.host := rfl
@[simp] theorem withBitSide_inputs (b : BitSide) (s : State) : (withBitSide b s).inputs = s.inputs := rfl
@[simp] theorem withBitSide_drawn (b : BitSide) (s : State) : (withBitSide b s).drawn = s.drawn := rfl

@[simp] theorem startCommand_build (w : Word) (s : State) : (startCommand w s).build = s.build := rfl
@[simp] theorem startCommand_regs (w : Word) (s : State) : (startCommand w s).regs = s.regs := rfl
@[simp] theorem startCommand_arg0 (w : Word) (s : State) : (startCommand w s).arg0 = s.arg0 := rfl
@[simp] theorem startCommand_argL (w : Word) (s : State) : (startCommand w s).argL = s.arg0 := rfl
@[simp] theorem startCommand_cmd (w : Word) (s : State) : (startCommand w s).cmd = w := rfl
@[simp] theorem startCommand_busy (w : Word) (s : State) : (startCommand w s).busy = true := rfl
@[simp] theorem startCommand_ports (w : Word) (s : State) : (startCommand w s).ports = s.ports := rfl
@[simp] theorem startCommand_live (w : Word) (s : State) : (startCommand w s).live = [] := rfl
@[simp] theorem startCommand_outstanding (w : Word) (s : State) : (startCommand w s).outstanding = none := rfl
@[simp] theorem startCommand_abandoned (w : Word) (s : State) : (startCommand w s).abandoned = s.abandoned := rfl
@[simp] theorem startCommand_trace (w : Word) (s : State) : (startCommand w s).trace = s.trace := rfl
@[simp] theorem startCommand_host (w : Word) (s : State) : (startCommand w s).host = s.host := rfl
@[simp] theorem startCommand_inputs (w : Word) (s : State) : (startCommand w s).inputs = s.inputs := rfl
@[simp] theorem startCommand_drawn (w : Word) (s : State) : (startCommand w s).drawn = s.drawn := rfl

@[simp] theorem dropCommand_build (s : State) : (dropCommand s).build = s.build := rfl
@[simp] theorem dropCommand_regs (s : State) : (dropCommand s).regs = { s.regs with overrun := true } := rfl
@[simp] theorem dropCommand_arg0 (s : State) : (dropCommand s).arg0 = s.arg0 := rfl
@[simp] theorem dropCommand_argL (s : State) : (dropCommand s).argL = s.argL := rfl
@[simp] theorem dropCommand_cmd (s : State) : (dropCommand s).cmd = s.cmd := rfl
@[simp] theorem dropCommand_busy (s : State) : (dropCommand s).busy = s.busy := rfl
@[simp] theorem dropCommand_ports (s : State) : (dropCommand s).ports = s.ports := rfl
@[simp] theorem dropCommand_live (s : State) : (dropCommand s).live = s.live := rfl
@[simp] theorem dropCommand_outstanding (s : State) : (dropCommand s).outstanding = s.outstanding := rfl
@[simp] theorem dropCommand_abandoned (s : State) : (dropCommand s).abandoned = s.abandoned := rfl
@[simp] theorem dropCommand_trace (s : State) : (dropCommand s).trace = s.trace := rfl
@[simp] theorem dropCommand_host (s : State) : (dropCommand s).host = s.host := rfl
@[simp] theorem dropCommand_inputs (s : State) : (dropCommand s).inputs = s.inputs := rfl
@[simp] theorem dropCommand_drawn (s : State) : (dropCommand s).drawn = s.drawn := rfl

@[simp] theorem hostGoto_build (n : Nat) (s : State) : (hostGoto n s).build = s.build := rfl
@[simp] theorem hostGoto_regs (n : Nat) (s : State) : (hostGoto n s).regs = s.regs := rfl
@[simp] theorem hostGoto_arg0 (n : Nat) (s : State) : (hostGoto n s).arg0 = s.arg0 := rfl
@[simp] theorem hostGoto_argL (n : Nat) (s : State) : (hostGoto n s).argL = s.argL := rfl
@[simp] theorem hostGoto_cmd (n : Nat) (s : State) : (hostGoto n s).cmd = s.cmd := rfl
@[simp] theorem hostGoto_busy (n : Nat) (s : State) : (hostGoto n s).busy = s.busy := rfl
@[simp] theorem hostGoto_ports (n : Nat) (s : State) : (hostGoto n s).ports = s.ports := rfl
@[simp] theorem hostGoto_live (n : Nat) (s : State) : (hostGoto n s).live = s.live := rfl
@[simp] theorem hostGoto_outstanding (n : Nat) (s : State) : (hostGoto n s).outstanding = s.outstanding := rfl
@[simp] theorem hostGoto_abandoned (n : Nat) (s : State) : (hostGoto n s).abandoned = s.abandoned := rfl
@[simp] theorem hostGoto_trace (n : Nat) (s : State) : (hostGoto n s).trace = s.trace := rfl
@[simp] theorem hostGoto_host (n : Nat) (s : State) : (hostGoto n s).host = { s.host with pc := n } := rfl
@[simp] theorem hostGoto_inputs (n : Nat) (s : State) : (hostGoto n s).inputs = s.inputs := rfl
@[simp] theorem hostGoto_drawn (n : Nat) (s : State) : (hostGoto n s).drawn = s.drawn := rfl

@[simp] theorem hostRead_build (offset : Nat) (s : State) : (hostRead offset s).build = s.build := rfl
@[simp] theorem hostRead_regs (offset : Nat) (s : State) : (hostRead offset s).regs = s.regs := rfl
@[simp] theorem hostRead_arg0 (offset : Nat) (s : State) : (hostRead offset s).arg0 = s.arg0 := rfl
@[simp] theorem hostRead_argL (offset : Nat) (s : State) : (hostRead offset s).argL = s.argL := rfl
@[simp] theorem hostRead_cmd (offset : Nat) (s : State) : (hostRead offset s).cmd = s.cmd := rfl
@[simp] theorem hostRead_busy (offset : Nat) (s : State) : (hostRead offset s).busy = s.busy := rfl
@[simp] theorem hostRead_ports (offset : Nat) (s : State) : (hostRead offset s).ports = s.ports := rfl
@[simp] theorem hostRead_live (offset : Nat) (s : State) : (hostRead offset s).live = s.live := rfl
@[simp] theorem hostRead_outstanding (offset : Nat) (s : State) : (hostRead offset s).outstanding = s.outstanding := rfl
@[simp] theorem hostRead_abandoned (offset : Nat) (s : State) : (hostRead offset s).abandoned = s.abandoned := rfl
@[simp] theorem hostRead_trace (offset : Nat) (s : State) : (hostRead offset s).trace = s.trace := rfl
@[simp] theorem hostRead_host (offset : Nat) (s : State) : (hostRead offset s).host = { s.host with acc := readOffset s offset } := rfl
@[simp] theorem hostRead_inputs (offset : Nat) (s : State) : (hostRead offset s).inputs = s.inputs := rfl
@[simp] theorem hostRead_drawn (offset : Nat) (s : State) : (hostRead offset s).drawn = s.drawn + 1 := rfl

/-! `respond` and `deliver` write `live` and `outstanding` too: `respond_eq` and `deliver_eq` say how. -/

/-- A waiting command gets its response, or nothing changes. -/
theorem respond_eq (s : State) :
    respond s = s ∨ ∃ q t, s.outstanding = some q ∧ (s.ports.after s.live).answerTo q = some t ∧
      respond s = { s with live := s.live ++ [t], outstanding := none } := by
  unfold respond
  split
  · rename_i t h
    obtain ⟨q, hq, ht⟩ := Option.bind_eq_some_iff.mp h
    exact .inr ⟨q, t, hq, ht, rfl⟩
  · exact .inl rfl

@[simp] theorem respond_build (s : State) : (respond s).build = s.build := by
  rcases respond_eq s with h | ⟨_, _, _, _, h⟩ <;> rw [h]
@[simp] theorem respond_regs (s : State) : (respond s).regs = s.regs := by
  rcases respond_eq s with h | ⟨_, _, _, _, h⟩ <;> rw [h]
@[simp] theorem respond_arg0 (s : State) : (respond s).arg0 = s.arg0 := by
  rcases respond_eq s with h | ⟨_, _, _, _, h⟩ <;> rw [h]
@[simp] theorem respond_argL (s : State) : (respond s).argL = s.argL := by
  rcases respond_eq s with h | ⟨_, _, _, _, h⟩ <;> rw [h]
@[simp] theorem respond_cmd (s : State) : (respond s).cmd = s.cmd := by
  rcases respond_eq s with h | ⟨_, _, _, _, h⟩ <;> rw [h]
@[simp] theorem respond_busy (s : State) : (respond s).busy = s.busy := by
  rcases respond_eq s with h | ⟨_, _, _, _, h⟩ <;> rw [h]
@[simp] theorem respond_ports (s : State) : (respond s).ports = s.ports := by
  rcases respond_eq s with h | ⟨_, _, _, _, h⟩ <;> rw [h]
@[simp] theorem respond_abandoned (s : State) : (respond s).abandoned = s.abandoned := by
  rcases respond_eq s with h | ⟨_, _, _, _, h⟩ <;> rw [h]
@[simp] theorem respond_trace (s : State) : (respond s).trace = s.trace := by
  rcases respond_eq s with h | ⟨_, _, _, _, h⟩ <;> rw [h]
@[simp] theorem respond_host (s : State) : (respond s).host = s.host := by
  rcases respond_eq s with h | ⟨_, _, _, _, h⟩ <;> rw [h]
@[simp] theorem respond_inputs (s : State) : (respond s).inputs = s.inputs := by
  rcases respond_eq s with h | ⟨_, _, _, _, h⟩ <;> rw [h]
@[simp] theorem respond_drawn (s : State) : (respond s).drawn = s.drawn := by
  rcases respond_eq s with h | ⟨_, _, _, _, h⟩ <;> rw [h]

/-- With no request outstanding, an answer only joins those to come. -/
theorem deliver_eq (a : Answer) {s : State} (h : s.outstanding = none) : deliver a s = { s with ports := s.ports.push a } := by
  simp [deliver, respond, h]

/-- The response to the outstanding request finishes its transaction. -/
theorem deliver_response {a : Answer} {s : State} {q : Request} {t : Transaction} (h : s.outstanding = some q)
    (ht : ((s.ports.push a).after s.live).answerTo q = some t) :
    deliver a s = { s with ports := s.ports.push a, live := s.live ++ [t], outstanding := none } := by
  simp [deliver, respond, h, ht, record]

@[simp] theorem deliver_build (a : Answer) (s : State) : (deliver a s).build = s.build := by simp [deliver]
@[simp] theorem deliver_regs (a : Answer) (s : State) : (deliver a s).regs = s.regs := by simp [deliver]
@[simp] theorem deliver_arg0 (a : Answer) (s : State) : (deliver a s).arg0 = s.arg0 := by simp [deliver]
@[simp] theorem deliver_argL (a : Answer) (s : State) : (deliver a s).argL = s.argL := by simp [deliver]
@[simp] theorem deliver_cmd (a : Answer) (s : State) : (deliver a s).cmd = s.cmd := by simp [deliver]
@[simp] theorem deliver_busy (a : Answer) (s : State) : (deliver a s).busy = s.busy := by simp [deliver]
@[simp] theorem deliver_ports (a : Answer) (s : State) : (deliver a s).ports = s.ports.push a := by simp [deliver]
@[simp] theorem deliver_abandoned (a : Answer) (s : State) : (deliver a s).abandoned = s.abandoned := by simp [deliver]
@[simp] theorem deliver_trace (a : Answer) (s : State) : (deliver a s).trace = s.trace := by simp [deliver]
@[simp] theorem deliver_host (a : Answer) (s : State) : (deliver a s).host = s.host := by simp [deliver]
@[simp] theorem deliver_inputs (a : Answer) (s : State) : (deliver a s).inputs = s.inputs := by simp [deliver]
@[simp] theorem deliver_drawn (a : Answer) (s : State) : (deliver a s).drawn = s.drawn := by simp [deliver]

@[simp] theorem resetBlock_build (s : State) : (resetBlock s).build = s.build := rfl
@[simp] theorem resetBlock_regs (s : State) : (resetBlock s).regs = Regs.reset := rfl
@[simp] theorem resetBlock_arg0 (s : State) : (resetBlock s).arg0 = 0 := rfl
@[simp] theorem resetBlock_argL (s : State) : (resetBlock s).argL = 0 := rfl
@[simp] theorem resetBlock_cmd (s : State) : (resetBlock s).cmd = 0 := rfl
@[simp] theorem resetBlock_busy (s : State) : (resetBlock s).busy = false := rfl
@[simp] theorem resetBlock_ports (s : State) : (resetBlock s).ports = s.ports.after s.live := rfl
@[simp] theorem resetBlock_live (s : State) : (resetBlock s).live = [] := rfl
@[simp] theorem resetBlock_outstanding (s : State) : (resetBlock s).outstanding = none := rfl
@[simp] theorem resetBlock_abandoned (s : State) : (resetBlock s).abandoned = s.abandoned ++ s.outstanding.toList := rfl
@[simp] theorem resetBlock_trace (s : State) : (resetBlock s).trace = s.trace ++ s.live := rfl
@[simp] theorem resetBlock_host (s : State) : (resetBlock s).host = s.host := rfl
@[simp] theorem resetBlock_inputs (s : State) : (resetBlock s).inputs = s.inputs := rfl
@[simp] theorem resetBlock_drawn (s : State) : (resetBlock s).drawn = s.drawn := rfl

/-- A fatal error moves STATE to FAILED and changes nothing else; a recoverable one changes nothing (R302). -/
theorem failIfFatal_eq (e : ErrCode) (s : State) :
    failIfFatal e s = { s with regs := { s.regs with state := if e.fatal then .failed else s.regs.state } } := by
  cases h : e.fatal <;> simp [failIfFatal, h]

end Sys2Proof.Machine
end

