-- ==== Sys2Proof/Laws/Ops.lean ====
section
/-! SUPPORT. One lemma for each shared operation: what it does when it goes on (45_host_commands.md R289;
44_bit_adaptors.md R261, R266). -/

namespace Sys2Proof.Machine

@[simp] theorem andThen_go {α β : Type} (a : α) (s : State) (f : α → State → Flow β) : (Flow.go a s).andThen f = f a s := rfl
@[simp] theorem andThen_raised {α β : Type} (e : ErrCode) (s : State) (f : α → State → Flow β) :
    (Flow.raised e s).andThen f = .raised e s := rfl
@[simp] theorem andThen_stalled {α β : Type} (q : Request) (s : State) (f : α → State → Flow β) :
    (Flow.stalled q s).andThen f = .stalled q s := rfl
@[simp] theorem andThen_fault {α β : Type} (r : Fault) (f : α → State → Flow β) :
    (Flow.fault r).andThen f = .fault r := rfl

/-- A stretch goes on to the end exactly when both its parts do. -/
theorem andThen_eq_go {α β : Type} {x : Flow α} {f : α → State → Flow β} {b : β} {t : State} :
    x.andThen f = .go b t ↔ ∃ a s, x = .go a s ∧ f a s = .go b t := by
  cases x <;> simp [Flow.andThen]

@[simp] theorem require_true (e : ErrCode) (s : State) : require true e s = .go () s := rfl
@[simp] theorem require_false (e : ErrCode) (s : State) : require false e s = .raised e s := rfl

@[simp] theorem fresh_build (s : State) : (fresh s).build = s.build := rfl
@[simp] theorem fresh_regs (s : State) : (fresh s).regs = s.regs := rfl
@[simp] theorem fresh_ports (s : State) : (fresh s).ports = s.ports := rfl
@[simp] theorem fresh_argL (s : State) : (fresh s).argL = s.argL := rfl
@[simp] theorem fresh_live (s : State) : (fresh s).live = [] := rfl
@[simp] theorem fresh_interval (s : State) : (fresh s).interval = s.interval := rfl
@[simp] theorem fresh_precision (s : State) : (fresh s).precision = s.precision := rfl

theorem runCommand_go {body : State → Flow Ending} {s t : State} {x : Ending} (h : body (fresh s) = .go x t) :
    runCommand body s = .next (complete .ok (decide (x = .endOfStream)) t) := by
  simp [runCommand, h]

theorem runCommand_raised {body : State → Flow Ending} {s t : State} {e : ErrCode} (h : body (fresh s) = .raised e t) :
    runCommand body s = .next (raise e t) := by
  simp [runCommand, h]

theorem runCommand_stalled {body : State → Flow Ending} {s t : State} {q : Request} (h : body (fresh s) = .stalled q t) :
    runCommand body s = .next (suspend q t s) := by
  simp [runCommand, h]

/-- The ways a command's run answers a next state. -/
theorem runCommand_next {body : State → Flow Ending} {s t : State} (h : runCommand body s = .next t) :
    (∃ x u, body (fresh s) = .go x u ∧ t = complete .ok (decide (x = .endOfStream)) u) ∨
    (∃ e u, body (fresh s) = .raised e u ∧ t = raise e u) ∨
    (∃ q u, body (fresh s) = .stalled q u ∧ t = suspend q u s) := by
  unfold runCommand at h
  cases hb : body (fresh s) <;> simp only [hb] at h <;> simp_all

theorem wroteBits_append (xs ys : List Bool) (s : State) : wroteBits ys (wroteBits xs s) = wroteBits (xs ++ ys) s := by
  simp [wroteBits, BitVec.add_assoc, BitVec.ofNat_add, List.drop_drop]

@[simp] theorem wroteBits_nil (s : State) : wroteBits [] s = s := by simp [wroteBits]

theorem sinkServes_split {m n : Nat} {a : List SinkAnswer} (h : sinkServes (m + n) a = true) :
    sinkServes m a = true ∧ sinkServes n (a.drop m) = true := by
  simp only [sinkServes, decide_eq_true_eq] at *
  constructor
  · have := congrArg (List.take m) h
    simpa [List.take_take] using this
  · have := congrArg (List.drop m) h
    simpa [List.drop_take] using this

theorem sinkServes_succ {n : Nat} {a : List SinkAnswer} (h : sinkServes (n + 1) a = true) :
    ∃ rest, a = .ok :: rest ∧ sinkServes n rest = true := by
  simp only [sinkServes, decide_eq_true_eq] at *
  cases a with
  | nil => simp [List.replicate_succ] at h
  | cons x rest =>
    simp only [List.take_succ_cons, List.replicate_succ, List.cons.injEq] at h
    exact ⟨rest, by rw [h.1], h.2⟩

/-- An accepted WRITE_BIT (R261). -/
theorem sinkWrite_ok (b : Bool) {s : State} (h : sinkServes 1 s.ports.sink = true) :
    sinkWrite b s = .go () (wroteBits [b] s) := by
  obtain ⟨rest, hr, -⟩ := sinkServes_succ h
  simp [sinkWrite, askWriteBit, hr, wroteBits, record, countBit]

theorem sinkRepeat_ok (b : Bool) (n : Nat) {s : State} (h : sinkServes n s.ports.sink = true) :
    sinkRepeat b n s = .go () (wroteBits (List.replicate n b) s) := by
  induction n generalizing s with
  | zero => simp [sinkRepeat]
  | succ n ih =>
    rw [Nat.add_comm] at h
    obtain ⟨h1, h2⟩ := sinkServes_split h
    rw [sinkRepeat, sinkWrite_ok b h1, andThen_go, ih (by simpa using h2), wroteBits_append]
    rfl

/-- Emit(b, n) with a sink that accepts (R261): b, then n copies of 1 - b. -/
theorem emit_ok (b : Bool) (n : Nat) {s : State} (h : sinkServes (n + 1) s.ports.sink = true) :
    emit b n s = .go () (wroteBits (b :: List.replicate n (!b)) s) := by
  rw [Nat.add_comm] at h
  obtain ⟨h1, h2⟩ := sinkServes_split h
  rw [emit, sinkWrite_ok b h1, andThen_go, sinkRepeat_ok (!b) n (by simpa using h2), wroteBits_append]
  rfl

/-- Where the host moves next, the step is its line's. -/
theorem hostMoves_step {s u : State} (h : s.hostMoves u) : step s = .next (hostStep u) := by
  obtain ⟨rest, hi, rfl⟩ | ⟨hi, hb, rfl⟩ := h
  · simp only [step, hi, inputStep]
  · simp only [step, hi, hb, Bool.false_eq_true, if_false]

/-- The host's move changes nothing but the coming inputs before its line runs. -/
theorem hostMoves_eq {s u : State} (h : s.hostMoves u) : u = { s with inputs := u.inputs } := by
  obtain ⟨rest, -, rfl⟩ | ⟨-, -, rfl⟩ := h <;> rfl

/-- A host that is at a line executes it (R129). -/
theorem hostStep_runs {s : State} {i : HostInstr} (h : s.hostRuns i) : hostStep s = hostInstr i s := by
  simp only [hostStep, h.1, h.2, Bool.false_eq_true, if_false]

/-- The host runs the same line after its move is taken from the inputs. -/
theorem hostMoves_runs {s u : State} {i : HostInstr} (h : s.hostMoves u) (hr : s.hostRuns i) : u.hostRuns i := by
  rw [hostMoves_eq h]; exact hr

/-- A step that is a host write is that write, by an access or by a `wr` line (20_memory.md R83; 30_encoding.md R129). -/
theorem hostWrites_step {s t : State} {offset : Nat} {v : Word} (h : s.hostWrites offset v t) :
    step s = .next (hostWrite offset v t) := by
  obtain ⟨a, rest, hi, ha, ho, h8, hb, hw, rfl⟩ | ⟨u, reg, hm, hr, rfl, rfl⟩ := h
  · have hin : ¬ (a.addr < s.build.windowBase ∨ s.build.windowBase + windowBytes ≤ a.addr) := by omega
    have hoff : a.addr - s.build.windowBase = offset := by omega
    simp only [step, hi, inputStep, hostAccess]
    rw [if_neg hin]
    simp only [hoff, hb, h8, hw, and_self, if_true]
  · have hpc : u.host.pc = s.host.pc := by rw [hostMoves_eq hm]
    rw [hostMoves_step hm, hostStep_runs (hostMoves_runs hm hr), ← hpc]
    simp only [hostInstr]
    cases reg <;> simp only [hostWrite, WinReg.offset, regAt, hostGoto]
    by_cases hb : u.busy <;> simp [hb, startCommand, dropCommand]

end Sys2Proof.Machine
end

