-- ==== Sys2Proof/Laws/Renorm.lean ====
section
/-! SUPPORT. The renormalization loops and the fill of CODE agree with their clear forms in Safety.lean when the agents serve
them (41_interval_core.md R180-R182; 43_decoder.md R230). -/

namespace Sys2Proof.Machine

/-- An interval within P bits fits the registers. -/
theorem within_lt {p : Nat} (hp : 2 ≤ p) (hp' : p ≤ 64) {x : Interval} (hx : x.within p) : x.lo < 2 ^ 64 ∧ x.hi < 2 ^ 64 := by
  have : 2 ^ p ≤ 2 ^ 64 := Nat.pow_le_pow_right (by decide) hp'
  have := (constants p hp).2.2.2
  obtain ⟨h1, h2⟩ := hx
  omega

theorem interval_setInterval {x : Interval} (s : State) (h1 : x.lo < 2 ^ 64) (h2 : x.hi < 2 ^ 64) :
    (setInterval x s).interval = x := by
  cases x
  simp only [State.interval, setInterval_regs, BitVec.toNat_ofNat, Interval.mk.injEq]
  exact ⟨Nat.mod_eq_of_lt h1, Nat.mod_eq_of_lt h2⟩

@[simp] theorem setInterval_self (s : State) : setInterval s.interval s = s := by
  simp [setInterval, State.interval]

@[simp] theorem setPending_self (s : State) : setPending s.regs.pending s = s := rfl

@[simp] theorem setCode_self (s : State) : setCode s.regs.code.toNat s = s := by simp [setCode]

@[simp] theorem precision_setInterval (x : Interval) (s : State) : (setInterval x s).precision = s.precision := rfl
@[simp] theorem precision_setPending (v : Word) (s : State) : (setPending v s).precision = s.precision := rfl
@[simp] theorem precision_setCode (v : Nat) (s : State) : (setCode v s).precision = s.precision := rfl
@[simp] theorem precision_wroteBits (b : List Bool) (s : State) : (wroteBits b s).precision = s.precision := rfl
@[simp] theorem precision_withBitSide (b : BitSide) (s : State) : (withBitSide b s).precision = s.precision := rfl
@[simp] theorem interval_setPending (v : Word) (s : State) : (setPending v s).interval = s.interval := rfl
@[simp] theorem interval_setCode (v : Nat) (s : State) : (setCode v s).interval = s.interval := rfl
@[simp] theorem interval_wroteBits (b : List Bool) (s : State) : (wroteBits b s).interval = s.interval := rfl
@[simp] theorem interval_withBitSide (b : BitSide) (s : State) : (withBitSide b s).interval = s.interval := rfl

/-- The bits one encoder step writes, and PENDING after it (R181). -/
def stepBits (pend : Nat) : Regime → List Bool
  | .e1 => false :: List.replicate pend true
  | .e2 => true :: List.replicate pend false
  | .e3 => []

/-- PENDING after one encoder step (R181). -/
def stepPending (pend : Nat) : Regime → Nat
  | .e1 | .e2 => 0
  | .e3 => pend + 1

theorem encBits_cons (pend : Nat) (g : Regime) (gs : List Regime) :
    encBits pend (g :: gs) = stepBits pend g ++ encBits (stepPending pend g) gs := by
  cases g <;> simp [encBits, stepBits, stepPending]

theorem encPending_cons (pend : Nat) (g : Regime) (gs : List Regime) :
    encPending pend (g :: gs) = encPending (stepPending pend g) gs := by
  cases g <;> rfl

theorem pendingFits_cons (limit pend : Nat) (g : Regime) (gs : List Regime) :
    pendingFits limit pend (g :: gs) = ((decide (g ≠ .e3) || decide (pend ≠ limit)) && pendingFits limit (stepPending pend g) gs) := by
  cases g <;> simp [pendingFits, stepPending]

theorem pendingLimit_lt {b : Build} (hb : b.wf = true) : pendingLimit b < 2 ^ 64 := by
  simp only [Build.wf, Bool.and_eq_true, decide_eq_true_eq] at hb
  have : 2 ^ b.pendW ≤ 2 ^ 64 := Nat.pow_le_pow_right (by decide) hb.2
  have : 0 < 2 ^ b.pendW := Nat.pos_of_ne_zero (by positivity)
  simp only [pendingLimit]
  omega

/-- One side action, with a sink that accepts its bits and PENDING below the limit for E3 (R181). -/
theorem sideAction_ok (g : Regime) {s : State} (hf : g = .e3 → s.regs.pending.toNat ≠ pendingLimit s.build)
    (hs : sinkServes (stepBits s.regs.pending.toNat g).length s.ports.sink = true) :
    sideAction g s = .go () (setPending (BitVec.ofNat 64 (stepPending s.regs.pending.toNat g))
      (wroteBits (stepBits s.regs.pending.toNat g) s)) := by
  cases g with
  | e1 =>
    rw [sideAction, emit_ok false _ (by simpa [stepBits] using hs)]
    simp [stepPending, stepBits]
  | e2 =>
    rw [sideAction, emit_ok true _ (by simpa [stepBits] using hs)]
    simp [stepPending, stepBits]
  | e3 =>
    simp only [sideAction, if_neg (hf rfl), stepPending, stepBits, wroteBits_nil]
    congr 2

theorem stepPending_le {s : State} {g : Regime} (hp : s.regs.pending.toNat ≤ pendingLimit s.build)
    (hf : g = .e3 → s.regs.pending.toNat ≠ pendingLimit s.build) :
    stepPending s.regs.pending.toNat g ≤ pendingLimit s.build := by
  cases g with
  | e1 => exact Nat.zero_le _
  | e2 => exact Nat.zero_le _
  | e3 => have := hf rfl; simp only [stepPending]; omega

/-- A later write of the encoder's fields covers an earlier one. -/
theorem encoder_overwrite (x y : Interval) (v u : Word) (xs ys : List Bool) (s : State) :
    setInterval x (setPending v (wroteBits ys (setInterval y (setPending u (wroteBits xs s))))) =
      setInterval x (setPending v (wroteBits (xs ++ ys) s)) := by
  rw [← wroteBits_append]; rfl

/-- RENORM(ENC) with a sink that accepts and PENDING that fits is the clear form (R181, R182). -/
theorem renormEnc_ok {p : Nat} (hp : 2 ≤ p) (hp' : p ≤ 64) (fuel : Nat) {s : State} (hps : s.precision = p)
    (hb : s.build.wf = true) (hx : s.interval.within p) (hpend : s.regs.pending.toNat ≤ pendingLimit s.build)
    (hend : classify p (renormalized p s.interval (regimes p fuel s.interval)) = none)
    (hfit : pendingFits (pendingLimit s.build) s.regs.pending.toNat (regimes p fuel s.interval) = true)
    (hs : sinkServes (encBits s.regs.pending.toNat (regimes p fuel s.interval)).length s.ports.sink = true) :
    renormEnc fuel s = .go () (setInterval (renormalized p s.interval (regimes p fuel s.interval))
      (setPending (BitVec.ofNat 64 (encPending s.regs.pending.toNat (regimes p fuel s.interval)))
        (wroteBits (encBits s.regs.pending.toNat (regimes p fuel s.interval)) s))) := by
  induction fuel generalizing s with
  | zero =>
    have : s.regime = none := by simpa [State.regime, hps, regimes] using hend
    simp [renormEnc, this, regimes, encBits, encPending]
  | succ n ih =>
    cases h : classify p s.interval with
    | none =>
      have : s.regime = none := by simpa [State.regime, hps] using h
      simp [renormEnc, this, regimes_none (n + 1) h, encBits, encPending]
    | some g =>
      have hreg : s.regime = some g := by simpa [State.regime, hps] using h
      rw [regimes_some n h] at hend hfit hs ⊢
      rw [pendingFits_cons, Bool.and_eq_true] at hfit
      rw [encBits_cons, List.length_append] at hs
      obtain ⟨hs1, hs2⟩ := sinkServes_split hs
      have hf : g = .e3 → s.regs.pending.toNat ≠ pendingLimit s.build := by
        intro hg; simpa [hg] using hfit.1
      have hle := stepPending_le hpend hf
      have hlt := pendingLimit_lt hb
      have hw := (transform_within hp hx h).1
      have hlt' := within_lt hp hp' hw
      simp only [renormEnc, hreg]
      rw [sideAction_ok g hf hs1, andThen_go]
      generalize hu : applyTransform g (setPending (BitVec.ofNat 64 (stepPending s.regs.pending.toNat g))
          (wroteBits (stepBits s.regs.pending.toNat g) s)) = u
      have hu' : u = setInterval (g.transform p s.interval) (setPending (BitVec.ofNat 64 (stepPending s.regs.pending.toNat g))
          (wroteBits (stepBits s.regs.pending.toNat g) s)) := by rw [← hu, applyTransform]; simp [hps]
      have hui : u.interval = g.transform p s.interval := by rw [hu', interval_setInterval _ hlt'.1 hlt'.2]
      have hup : u.regs.pending.toNat = stepPending s.regs.pending.toNat g := by
        rw [hu']; simp; omega
      have hub : u.build = s.build := by rw [hu']; rfl
      have huk : u.ports.sink = s.ports.sink.drop (stepBits s.regs.pending.toNat g).length := by rw [hu']; rfl
      rw [ih (by rw [hu']; simpa using hps) (by rw [hub]; exact hb) (by rw [hui]; exact hw) (by rw [hup, hub]; exact hle)
        (by rw [hui]; exact hend) (by rw [hui, hup, hub]; exact hfit.2) (by rw [hui, hup, huk]; exact hs2)]
      rw [hui, hup, hu', encoder_overwrite, encPending_cons, encBits_cons, renormalized_cons]

/-- One NextBit is one step of the source side (R266). -/
theorem nextBit_ok {s : State} {x : Bool} {b : BitSide} (h : s.bitSide.next = some (x, b)) :
    nextBit s = .go x (withBitSide b s) := by
  unfold BitSide.next at h
  cases he : s.regs.exhausted with
  | true =>
    simp only [State.bitSide, he, if_true, Option.some.injEq, Prod.mk.injEq] at h
    obtain ⟨rfl, rfl⟩ := h
    simp [nextBit, he, Config.padBit, countPad, withBitSide]
  | false =>
    simp only [State.bitSide, he, Bool.false_eq_true, if_false] at h
    split at h
    · rename_i y rest hr
      simp only [Option.some.injEq, Prod.mk.injEq] at h
      obtain ⟨rfl, rfl⟩ := h
      simp [nextBit, he, askReadBit, hr, record, countBit, withBitSide]
    · rename_i rest hr
      simp only [Option.some.injEq, Prod.mk.injEq] at h
      obtain ⟨rfl, rfl⟩ := h
      simp [nextBit, he, askReadBit, hr, record, latchExhausted, withBitSide, Config.padBit]
    · exact absurd h (by simp)
    · exact absurd h (by simp)

/-- The reads made before do not change what comes next. -/
theorem next_reads (b : BitSide) (r : List Transaction) :
    BitSide.next { b with reads := r ++ b.reads } =
      b.next.map fun q => (q.1, { q.2 with reads := r ++ q.2.reads }) := by
  unfold BitSide.next
  cases b.exhausted
  · simp only [Bool.false_eq_true, if_false]
    split <;> simp_all
  · simp

theorem take_reads (n : Nat) (b : BitSide) (r : List Transaction) :
    BitSide.take n { b with reads := r ++ b.reads } =
      (b.take n).map fun q => (q.1, { q.2 with reads := r ++ q.2.reads }) := by
  induction n generalizing b with
  | zero => simp [BitSide.take]
  | succ n ih =>
    rw [BitSide.take, BitSide.take, next_reads]
    cases b.next with
    | none => rfl
    | some q =>
      simp only [Option.map_some]
      rw [ih]
      cases q.2.take n <;> rfl

/-- Taking n + 1 bits: the first, then the rest from the state after it. -/
theorem take_succ {n : Nat} {s : State} {bits : List Bool} {b : BitSide} (h : s.bitSide.take (n + 1) = some (bits, b)) :
    ∃ x xs b1 b2, bits = x :: xs ∧ s.bitSide.next = some (x, b1) ∧
      (withBitSide b1 s).bitSide.take n = some (xs, b2) ∧ withBitSide b2 (withBitSide b1 s) = withBitSide b s := by
  rw [BitSide.take] at h
  cases h1 : s.bitSide.next with
  | none => simp [h1] at h
  | some q =>
    obtain ⟨x, b1⟩ := q
    simp only [h1] at h
    cases h2 : b1.take n with
    | none => simp [h2] at h
    | some q2 =>
      obtain ⟨xs, b'⟩ := q2
      simp only [h2, Option.some.injEq, Prod.mk.injEq] at h
      obtain ⟨rfl, rfl⟩ := h
      have hb : b1 = { (withBitSide b1 s).bitSide with reads := b1.reads ++ (withBitSide b1 s).bitSide.reads } := by
        simp [State.bitSide]
      rw [hb, take_reads] at h2
      cases h3 : (withBitSide b1 s).bitSide.take n with
      | none => simp [h3] at h2
      | some q3 =>
        simp only [h3, Option.map_some, Option.some.injEq, Prod.mk.injEq] at h2
        obtain ⟨rfl, rfl⟩ := h2
        refine ⟨x, q3.1, b1, q3.2, rfl, rfl, by rw [h3], ?_⟩
        simp [withBitSide]

theorem take_length {n : Nat} {b b' : BitSide} {bits : List Bool} (h : b.take n = some (bits, b')) : bits.length = n := by
  induction n generalizing b bits with
  | zero => simp only [BitSide.take, Option.some.injEq, Prod.mk.injEq] at h; simp [← h.1]
  | succ n ih =>
    rw [BitSide.take] at h
    split at h
    · exact absurd h (by simp)
    · split at h
      · exact absurd h (by simp)
      · rename_i xs b2 h2
        simp only [Option.some.injEq, Prod.mk.injEq] at h
        rw [← h.1, List.length_cons, ih (h2.trans (by rw [h.2]))]

@[simp] theorem bitSide_setCode (v : Nat) (s : State) : (setCode v s).bitSide = s.bitSide := rfl
@[simp] theorem bitSide_setInterval (x : Interval) (s : State) : (setInterval x s).bitSide = s.bitSide := rfl
@[simp] theorem bitSide_setPending (v : Word) (s : State) : (setPending v s).bitSide = s.bitSide := rfl
theorem withBitSide_self (s : State) : withBitSide s.bitSide s = s := by simp [withBitSide, State.bitSide]

/-- RENORM(DEC) with a source that serves one bit a step is the clear form (R180, R182). -/
theorem renormDec_ok {p : Nat} (hp : 2 ≤ p) (hp' : p ≤ 64) (fuel : Nat) {s : State} (hps : s.precision = p)
    (hx : s.interval.within p) (h1 : s.interval.lo ≤ s.regs.code.toNat) (h2 : s.regs.code.toNat ≤ s.interval.hi)
    (hend : classify p (renormalized p s.interval (regimes p fuel s.interval)) = none) {bits : List Bool} {b : BitSide}
    (ht : s.bitSide.take (regimes p fuel s.interval).length = some (bits, b)) :
    renormDec fuel s = .go () (setCode (shiftedCode p s.regs.code.toNat ((regimes p fuel s.interval).zip bits))
      (setInterval (renormalized p s.interval (regimes p fuel s.interval)) (withBitSide b s))) := by
  induction fuel generalizing s bits b with
  | zero =>
    have : s.regime = none := by simpa [State.regime, hps, regimes] using hend
    simp only [regimes, List.length_nil, BitSide.take, Option.some.injEq, Prod.mk.injEq] at ht
    obtain ⟨rfl, rfl⟩ := ht
    simp [renormDec, this, regimes, shiftedCode, withBitSide_self]
  | succ n ih =>
    cases h : classify p s.interval with
    | none =>
      have : s.regime = none := by simpa [State.regime, hps] using h
      simp only [regimes_none (n + 1) h, List.length_nil, BitSide.take, Option.some.injEq, Prod.mk.injEq] at ht
      obtain ⟨rfl, rfl⟩ := ht
      simp [renormDec, this, regimes_none (n + 1) h, shiftedCode, withBitSide_self]
    | some g =>
      have hreg : s.regime = some g := by simpa [State.regime, hps] using h
      rw [regimes_some n h] at hend ht ⊢
      rw [List.length_cons] at ht
      obtain ⟨x, xs, b1, b2, rfl, hn, ht2, hbb⟩ := take_succ ht
      have hw := (transform_within hp hx h).1
      have hlt := within_lt hp hp' hw
      have hin := shiftCode_inside hp hx h h1 h2 x
      simp only [renormDec, hreg, shiftCode, applyTransform, hps]
      rw [nextBit_ok (s := setInterval (g.transform p s.interval) s) (by simpa using hn)]
      simp only [andThen_go]
      generalize hu : setCode _ (withBitSide b1 (setInterval (g.transform p s.interval) s)) = u
      have huc : u.regs.code.toNat = g.shiftCode p s.regs.code.toNat x := by
        rw [← hu]; simp [hps]; omega
      have hui : u.interval = g.transform p s.interval := by
        rw [← hu]; simp [interval_setInterval _ hlt.1 hlt.2]
      have hub : u.bitSide = (withBitSide b1 s).bitSide := by rw [← hu]; rfl
      rw [ih (by rw [← hu]; simpa using hps) (by rw [hui]; exact hw) (by rw [hui, huc]; exact hin.1)
        (by rw [hui, huc]; exact hin.2) (by rw [hui]; exact hend) (b := b2) (bits := xs) (by rw [hui, hub]; exact ht2)]
      rw [hui, huc, ← hbb, ← hu]
      rfl

/-- The fill of CODE with a source that serves it: the bits shifted in, most significant first (R230). -/
theorem fillCode_ok (n : Nat) {s : State} {bits : List Bool} {b : BitSide} (hn : n ≤ 64)
    (hc : s.regs.code.toNat * 2 ^ n + 2 ^ n ≤ 2 ^ 64) (ht : s.bitSide.take n = some (bits, b)) :
    fillCode n s = .go () (setCode (bits.foldl (fun v b => 2 * v + b.toNat) s.regs.code.toNat) (withBitSide b s)) := by
  induction n generalizing s bits b with
  | zero =>
    simp only [BitSide.take, Option.some.injEq, Prod.mk.injEq] at ht
    obtain ⟨rfl, rfl⟩ := ht
    simp [fillCode, withBitSide_self]
  | succ n ih =>
    obtain ⟨x, xs, b1, b2, rfl, hnx, ht2, hbb⟩ := take_succ ht
    rw [fillCode, nextBit_ok hnx, andThen_go]
    have hx : x.toNat ≤ 1 := Bool.toNat_le x
    have hpos : 1 ≤ 2 ^ n := Nat.one_le_two_pow
    have hstep : (2 * s.regs.code.toNat + x.toNat) * 2 ^ n + 2 ^ n ≤ 2 ^ 64 := by
      calc (2 * s.regs.code.toNat + x.toNat) * 2 ^ n + 2 ^ n ≤ (2 * s.regs.code.toNat + 1) * 2 ^ n + 2 ^ n := by gcongr
        _ = s.regs.code.toNat * 2 ^ (n + 1) + 2 ^ (n + 1) := by ring
        _ ≤ 2 ^ 64 := hc
    have hlt : 2 * s.regs.code.toNat + x.toNat < 2 ^ 64 := by nlinarith
    generalize hu : setCode _ (withBitSide b1 s) = u
    have huc : u.regs.code.toNat = 2 * s.regs.code.toNat + x.toNat := by rw [← hu]; simp; omega
    have hub : u.bitSide = (withBitSide b1 s).bitSide := by rw [← hu]; rfl
    rw [ih (by omega) (by rw [huc]; exact hstep) (b := b2) (bits := xs) (by rw [hub]; exact ht2)]
    rw [huc, List.foldl_cons, ← hbb, ← hu]
    rfl

end Sys2Proof.Machine
end

