-- ==== Sys2Proof/Laws/Frame.lean ====
section
/-! SUPPORT. What each shared operation can change, whatever the agents answer: one lemma an operation, and the specs of the
command bodies that are built on them. -/

namespace Sys2Proof.Machine

/-- What a stretch of pseudocode promises: `G` where it goes on, `R` where it raises an error; it never faults. -/
def Flow.Holds {α : Type} (x : Flow α) (G : α → State → Prop) (R : ErrCode → State → Prop) : Prop :=
  match x with
  | .go a s => G a s
  | .raised e s => R e s
  | .stalled _ _ => True
  | .fault _ => False

@[simp] theorem holds_go {α : Type} (a : α) (s : State) (G : α → State → Prop) (R : ErrCode → State → Prop) :
    (Flow.go a s).Holds G R ↔ G a s := Iff.rfl
@[simp] theorem holds_raised {α : Type} (e : ErrCode) (s : State) (G : α → State → Prop) (R : ErrCode → State → Prop) :
    (Flow.raised e s : Flow α).Holds G R ↔ R e s := Iff.rfl
@[simp] theorem holds_stalled {α : Type} (q : Request) (s : State) (G : α → State → Prop) (R : ErrCode → State → Prop) :
    (Flow.stalled q s : Flow α).Holds G R := trivial

theorem Flow.Holds.andThen {α β : Type} {x : Flow α} {f : α → State → Flow β} {G : α → State → Prop}
    {H : β → State → Prop} {R : ErrCode → State → Prop} (hx : x.Holds G R) (hf : ∀ a s, G a s → (f a s).Holds H R) :
    (x.andThen f).Holds H R := by
  cases x with
  | go a s => exact hf a s hx
  | raised e s => exact hx
  | stalled q s => trivial
  | fault r => exact hx.elim

theorem Flow.Holds.mono {α : Type} {x : Flow α} {G H : α → State → Prop} {R S : ErrCode → State → Prop}
    (hx : x.Holds G R) (hG : ∀ a s, G a s → H a s) (hR : ∀ e s, R e s → S e s) : x.Holds H S := by
  cases x with
  | go a s => exact hG a s hx
  | raised e s => exact hR e s hx
  | stalled q s => trivial
  | fault r => exact hx.elim

/-- What no pseudocode of a command touches. -/
structure SameOutside (s t : State) : Prop where
  build : t.build = s.build
  arg0 : t.arg0 = s.arg0
  argL : t.argL = s.argL
  cmd : t.cmd = s.cmd
  busy : t.busy = s.busy
  outstanding : t.outstanding = s.outstanding
  abandoned : t.abandoned = s.abandoned
  trace : t.trace = s.trace
  host : t.host = s.host
  inputs : t.inputs = s.inputs
  drawn : t.drawn = s.drawn

theorem SameOutside.refl (s : State) : SameOutside s s := ⟨rfl, rfl, rfl, rfl, rfl, rfl, rfl, rfl, rfl, rfl, rfl⟩

theorem SameOutside.trans {s t u : State} (h : SameOutside s t) (k : SameOutside t u) : SameOutside s u :=
  ⟨k.build.trans h.build, k.arg0.trans h.arg0, k.argL.trans h.argL, k.cmd.trans h.cmd, k.busy.trans h.busy,
    k.outstanding.trans h.outstanding, k.abandoned.trans h.abandoned, k.trace.trans h.trace, k.host.trans h.host,
    k.inputs.trans h.inputs, k.drawn.trans h.drawn⟩

/-- What the sink side can change: BITCNT, the sink's answers, the transactions (R261). -/
def SinkChange (s t : State) : Prop :=
  SameOutside s t ∧ t.ports = { s.ports with sink := t.ports.sink } ∧ t.regs = { s.regs with bitcnt := t.regs.bitcnt }

theorem SinkChange.refl (s : State) : SinkChange s s := ⟨.refl s, rfl, rfl⟩

theorem SinkChange.trans {s t u : State} (h : SinkChange s t) (k : SinkChange t u) : SinkChange s u := by
  refine ⟨h.1.trans k.1, ?_, ?_⟩
  · rw [k.2.1, h.2.1]
  · rw [k.2.2, h.2.2]

/-- SinkWrite changes the sink side only, and raises only IO_ERROR (R261). -/
theorem sinkWrite_holds (b : Bool) (s : State) :
    (sinkWrite b s).Holds (fun _ t => SinkChange s t) (fun e t => e = .ioError ∧ SinkChange s t) := by
  unfold sinkWrite askWriteBit
  cases s.ports.sink with
  | nil => trivial
  | cons a rest =>
    cases a
    · exact ⟨⟨rfl, rfl, rfl, rfl, rfl, rfl, rfl, rfl, rfl, rfl, rfl⟩, rfl, rfl⟩
    · exact ⟨rfl, ⟨rfl, rfl, rfl, rfl, rfl, rfl, rfl, rfl, rfl, rfl, rfl⟩, rfl, rfl⟩

theorem sinkRepeat_holds (b : Bool) (n : Nat) (s : State) :
    (sinkRepeat b n s).Holds (fun _ t => SinkChange s t) (fun e t => e = .ioError ∧ SinkChange s t) := by
  induction n generalizing s with
  | zero => exact .refl s
  | succ n ih =>
    exact (sinkWrite_holds b s).andThen fun _ t h =>
      (ih t).mono (fun _ _ k => h.trans k) (fun _ _ k => ⟨k.1, h.trans k.2⟩)

theorem emit_holds (b : Bool) (n : Nat) (s : State) :
    (emit b n s).Holds (fun _ t => SinkChange s t) (fun e t => e = .ioError ∧ SinkChange s t) :=
  (sinkWrite_holds b s).andThen fun _ t h =>
    (sinkRepeat_holds (!b) n t).mono (fun _ _ k => h.trans k) (fun _ _ k => ⟨k.1, h.trans k.2⟩)

theorem sinkFlush_holds (s : State) :
    (sinkFlush s).Holds (fun _ t => SinkChange s t) (fun e t => e = .ioError ∧ SinkChange s t) := by
  unfold sinkFlush askFlush
  cases s.ports.sink with
  | nil => trivial
  | cons a rest =>
    cases a
    · exact ⟨⟨rfl, rfl, rfl, rfl, rfl, rfl, rfl, rfl, rfl, rfl, rfl⟩, rfl, rfl⟩
    · exact ⟨rfl, ⟨rfl, rfl, rfl, rfl, rfl, rfl, rfl, rfl, rfl, rfl, rfl⟩, rfl, rfl⟩

/-- What RENORM(ENC) can change (R181, R182), and the bounds it keeps. -/
structure EncChange (s t : State) : Prop where
  outside : SameOutside s t
  ports : t.ports = { s.ports with sink := t.ports.sink }
  regs : t.regs = { s.regs with low := t.regs.low, high := t.regs.high, pending := t.regs.pending, bitcnt := t.regs.bitcnt }
  within : s.interval.within s.precision → t.interval.within s.precision
  pending : s.regs.pending.toNat ≤ pendingLimit s.build → t.regs.pending.toNat ≤ pendingLimit s.build

theorem EncChange.precision {s t : State} (h : EncChange s t) : t.precision = s.precision := by
  simp only [State.precision]; rw [h.regs]

theorem EncChange.refl (s : State) : EncChange s s := ⟨.refl s, rfl, rfl, id, id⟩

theorem EncChange.trans {s t u : State} (h : EncChange s t) (k : EncChange t u) : EncChange s u := by
  refine ⟨h.outside.trans k.outside, ?_, ?_, fun hw => ?_, fun hp => ?_⟩
  · rw [k.ports, h.ports]
  · rw [k.regs, h.regs]
  · have := k.within (by rw [h.precision]; exact h.within hw)
    rwa [h.precision] at this
  · have := k.pending (by rw [h.outside.build]; exact h.pending hp)
    rwa [h.outside.build] at this

theorem SinkChange.enc {s t : State} (h : SinkChange s t) : EncChange s t := by
  obtain ⟨ho, hp, hr⟩ := h
  refine ⟨ho, hp, ?_, fun hw => ?_, fun hl => ?_⟩
  · rw [hr]
  · have : t.interval = s.interval := by simp only [State.interval]; rw [hr]
    rwa [this]
  · have : t.regs.pending = s.regs.pending := by rw [hr]
    rwa [this]

theorem setPending_enc (v : Word) (s : State) (h : s.regs.pending.toNat ≤ pendingLimit s.build → v.toNat ≤ pendingLimit s.build) :
    EncChange s (setPending v s) := ⟨⟨rfl, rfl, rfl, rfl, rfl, rfl, rfl, rfl, rfl, rfl, rfl⟩, rfl, rfl, id, h⟩

/-- The side action of a step, whatever the sink answers (R181). -/
theorem sideAction_holds (g : Regime) (s : State) :
    (sideAction g s).Holds (fun _ t => EncChange s t ∧ t.interval = s.interval)
      (fun e t => (e = .ioError ∨ e = .pendingOverflow) ∧ EncChange s t) := by
  have hclear : ∀ t : State, SinkChange s t → EncChange s (setPending 0 t) ∧ (setPending 0 t).interval = s.interval := by
    intro t h
    refine ⟨h.enc.trans (setPending_enc 0 t (fun _ => Nat.zero_le _)), ?_⟩
    rw [interval_setPending]
    show ({ lo := t.regs.low.toNat, hi := t.regs.high.toNat } : Interval) = _
    rw [h.2.2]
    rfl
  cases g with
  | e1 =>
    exact Flow.Holds.andThen (x := emit false s.regs.pending.toNat s)
      ((emit_holds false _ s).mono (fun _ _ h => h) (fun _ _ h => ⟨Or.inl h.1, h.2.enc⟩)) fun _ t h => hclear t h
  | e2 =>
    exact Flow.Holds.andThen (x := emit true s.regs.pending.toNat s)
      ((emit_holds true _ s).mono (fun _ _ h => h) (fun _ _ h => ⟨Or.inl h.1, h.2.enc⟩)) fun _ t h => hclear t h
  | e3 =>
    simp only [sideAction]
    split
    · exact ⟨Or.inr rfl, .refl s⟩
    · refine ⟨setPending_enc _ s (fun hl => ?_), rfl⟩
      have : (s.regs.pending + 1).toNat ≤ s.regs.pending.toNat + 1 := by
        rw [BitVec.toNat_add]; exact Nat.mod_le _ _
      omega

/-- The transform of the current regime keeps the interval within P bits (R184). -/
theorem applyTransform_enc {s : State} {g : Regime} (hp : 2 ≤ s.precision) (hp' : s.precision ≤ 64)
    (hg : s.regime = some g) : EncChange s (applyTransform g s) := by
  refine ⟨⟨rfl, rfl, rfl, rfl, rfl, rfl, rfl, rfl, rfl, rfl, rfl⟩, rfl, rfl, fun hw => ?_, id⟩
  have h := (transform_within hp hw hg).1
  have hlt := within_lt hp hp' h
  rw [applyTransform, interval_setInterval _ hlt.1 hlt.2]
  exact h

/-- Enough fuel for the steps RENORM may still take (R183). -/
def fuelEnough (fuel : Nat) (s : State) : Prop := 2 ^ s.precision ≤ s.interval.range * 2 ^ fuel

theorem regime_none_of_fuel_zero {s : State} (hp : 2 ≤ s.precision) (hw : s.interval.within s.precision)
    (hf : fuelEnough 0 s) : s.regime = none := by
  have := renormalized_settled_of_fuel hp 0 hw hf
  simpa [State.regime, regimes] using this

theorem fuelEnough_step {s t : State} {g : Regime} {fuel : Nat} (hp : 2 ≤ s.precision) (hw : s.interval.within s.precision)
    (hg : s.regime = some g) (hf : fuelEnough (fuel + 1) s) (ht : t.interval = g.transform s.precision s.interval)
    (hpt : t.precision = s.precision) : fuelEnough fuel t := by
  simp only [fuelEnough] at *
  rw [ht, hpt, (transform_within hp hw hg).2.2]
  calc 2 ^ s.precision ≤ s.interval.range * 2 ^ (fuel + 1) := hf
    _ = 2 * s.interval.range * 2 ^ fuel := by ring

theorem fuelEnough_precision (s : State) : fuelEnough s.precision s :=
  Nat.le_mul_of_pos_left _ (Nat.succ_pos _)

/-- RENORM(ENC), whatever the sink answers (R182, R183). -/
theorem renormEnc_holds (fuel : Nat) {s : State} (hp : 2 ≤ s.precision) (hp' : s.precision ≤ 64)
    (hw : s.interval.within s.precision) (hf : fuelEnough fuel s) :
    (renormEnc fuel s).Holds (fun _ t => EncChange s t ∧ t.regime = none)
      (fun e t => (e = .ioError ∨ e = .pendingOverflow) ∧ EncChange s t) := by
  induction fuel generalizing s with
  | zero =>
    have h := regime_none_of_fuel_zero hp hw hf
    simp only [renormEnc, h, holds_go]
    exact ⟨.refl s, trivial⟩
  | succ n ih =>
    cases h : s.regime with
    | none => simp only [renormEnc, h, holds_go]; exact ⟨.refl s, trivial⟩
    | some g =>
      simp only [renormEnc, h]
      refine (sideAction_holds g s).andThen fun _ t ht => ?_
      have hpt : t.precision = s.precision := ht.1.precision
      have hti : t.interval = s.interval := ht.2
      have hgt : t.regime = some g := by simpa [State.regime, hpt, hti] using h
      have hc : EncChange t (applyTransform g t) := applyTransform_enc (by omega) (by omega) hgt
      have hcs := ht.1.trans hc
      have hwt := transform_within hp hw h
      have hlt := within_lt hp hp' hwt.1
      have hai : (applyTransform g t).interval = g.transform s.precision s.interval := by
        rw [applyTransform, hpt, hti, interval_setInterval _ hlt.1 hlt.2]
      have hap : (applyTransform g t).precision = s.precision := hcs.precision
      exact (ih (s := applyTransform g t) (by omega) (by omega) (by rw [hap]; exact hcs.within hw)
        (fuelEnough_step hp hw h hf hai hap)).mono
        (fun _ _ k => ⟨hcs.trans k.1, k.2⟩) (fun _ _ k => ⟨k.1, hcs.trans k.2⟩)

/-- What NextBit can change (R266); PADCNT is 0 until EXHAUSTED, and EXHAUSTED once set stays set (R39). -/
structure SourceChange (s t : State) : Prop where
  outside : SameOutside s t
  ports : t.ports = { s.ports with source := t.ports.source }
  regs : t.regs =
    { s.regs with exhausted := t.regs.exhausted, padcnt := t.regs.padcnt, bitcnt := t.regs.bitcnt }
  pad : (s.regs.exhausted = false → s.regs.padcnt = 0) → t.regs.exhausted = false → t.regs.padcnt = 0
  latched : s.regs.exhausted = true → t.regs.exhausted = true

theorem nextBit_holds (s : State) :
    (nextBit s).Holds (fun _ t => SourceChange s t) (fun e t => e = .ioError ∧ SourceChange s t) := by
  unfold nextBit
  split
  · rename_i h
    exact ⟨⟨rfl, rfl, rfl, rfl, rfl, rfl, rfl, rfl, rfl, rfl, rfl⟩, rfl, rfl, fun _ k => absurd (h.symm.trans k) (by simp), id⟩
  · unfold askReadBit
    cases s.ports.source with
    | nil => trivial
    | cons a rest =>
      cases a with
      | bit b => exact ⟨⟨rfl, rfl, rfl, rfl, rfl, rfl, rfl, rfl, rfl, rfl, rfl⟩, rfl, rfl, fun k => k, id⟩
      | endOfInput =>
        exact ⟨⟨rfl, rfl, rfl, rfl, rfl, rfl, rfl, rfl, rfl, rfl, rfl⟩, rfl, rfl, fun _ k => (by cases k), fun _ => rfl⟩
      | error => exact ⟨rfl, ⟨rfl, rfl, rfl, rfl, rfl, rfl, rfl, rfl, rfl, rfl, rfl⟩, rfl, rfl, fun k => k, id⟩

/-- What RENORM(DEC) and the fill can change (R180, R182), with PADCNT and EXHAUSTED as NextBit leaves them. -/
structure DecChange (s t : State) : Prop where
  outside : SameOutside s t
  ports : t.ports = { s.ports with source := t.ports.source }
  regs : t.regs = { s.regs with
    low := t.regs.low, high := t.regs.high, code := t.regs.code, exhausted := t.regs.exhausted, padcnt := t.regs.padcnt
    bitcnt := t.regs.bitcnt }
  pad : (s.regs.exhausted = false → s.regs.padcnt = 0) → t.regs.exhausted = false → t.regs.padcnt = 0
  latched : s.regs.exhausted = true → t.regs.exhausted = true

theorem DecChange.precision {s t : State} (h : DecChange s t) : t.precision = s.precision := by
  simp only [State.precision]; rw [h.regs]

theorem DecChange.refl (s : State) : DecChange s s := ⟨.refl s, rfl, rfl, id, id⟩

theorem DecChange.trans {s t u : State} (h : DecChange s t) (k : DecChange t u) : DecChange s u := by
  refine ⟨h.outside.trans k.outside, ?_, ?_, fun hp => k.pad (h.pad hp), fun hx => k.latched (h.latched hx)⟩
  · rw [k.ports, h.ports]
  · rw [k.regs, h.regs]

theorem SourceChange.dec {s t : State} (h : SourceChange s t) : DecChange s t := by
  refine ⟨h.outside, h.ports, ?_, h.pad, h.latched⟩
  rw [h.regs]

theorem setCode_dec (v : Nat) (s : State) : DecChange s (setCode v s) := ⟨⟨rfl, rfl, rfl, rfl, rfl, rfl, rfl, rfl, rfl, rfl, rfl⟩, rfl, rfl, id, id⟩
theorem setInterval_dec (x : Interval) (s : State) : DecChange s (setInterval x s) := ⟨⟨rfl, rfl, rfl, rfl, rfl, rfl, rfl, rfl, rfl, rfl, rfl⟩, rfl, rfl, id, id⟩

/-- LOW <= CODE <= HIGH <= TOP (R57, R33). -/
def codeInside (s : State) : Prop :=
  s.interval.within s.precision ∧ s.interval.lo ≤ s.regs.code.toNat ∧ s.regs.code.toNat ≤ s.interval.hi

/-- LOW, HIGH and CODE within P bits (R32, R33, R37). -/
def codeWithin (s : State) : Prop := s.interval.within s.precision ∧ s.regs.code.toNat < 2 ^ s.precision

theorem codeInside.codeWithin {s : State} (hp : 2 ≤ s.precision) (h : codeInside s) : codeWithin s := by
  have := (constants _ hp).2.2.2
  obtain ⟨hw, -, h2⟩ := h
  have := hw.2
  exact ⟨hw, by omega⟩

/-- RENORM(DEC), whatever the source answers (R180, R182, R183, R303). -/
theorem renormDec_holds (fuel : Nat) {s : State} (hp : 2 ≤ s.precision) (hp' : s.precision ≤ 64) (hc : codeInside s)
    (hf : fuelEnough fuel s) :
    (renormDec fuel s).Holds (fun _ t => DecChange s t ∧ codeInside t ∧ t.regime = none)
      (fun e t => e = .ioError ∧ DecChange s t ∧ codeWithin t) := by
  induction fuel generalizing s with
  | zero =>
    have h := regime_none_of_fuel_zero hp hc.1 hf
    simp only [renormDec, h, holds_go]
    exact ⟨.refl s, hc, trivial⟩
  | succ n ih =>
    cases h : s.regime with
    | none => simp only [renormDec, h, holds_go]; exact ⟨.refl s, hc, trivial⟩
    | some g =>
      simp only [renormDec, h, shiftCode]
      have hwt := transform_within hp hc.1 h
      have hlt := within_lt hp hp' hwt.1
      have hai : (applyTransform g s).interval = g.transform s.precision s.interval := by
        rw [applyTransform, interval_setInterval _ hlt.1 hlt.2]
      have hac : DecChange s (applyTransform g s) := setInterval_dec _ s
      refine Flow.Holds.andThen (G := fun _ t => DecChange s t ∧ codeInside t ∧
        t.interval = g.transform s.precision s.interval) ?_ fun _ t ht => ?_
      · refine Flow.Holds.andThen (G := fun _ t => SourceChange (applyTransform g s) t) ?_ fun bit t ht => ?_
        · refine (nextBit_holds (applyTransform g s)).mono (fun _ _ k => k) (fun e t k => ⟨k.1, hac.trans k.2.dec, ?_⟩)
          have hti : t.interval = (applyTransform g s).interval := by simp only [State.interval]; rw [k.2.regs]
          have htc : t.regs.code = s.regs.code := by rw [k.2.regs]; rfl
          have htp : t.precision = s.precision := (hac.trans k.2.dec).precision
          refine ⟨?_, ?_⟩
          · rw [hti, hai, htp]; exact hwt.1
          · rw [htc, htp]; exact (hc.codeWithin hp).2
        · have hti : t.interval = (applyTransform g s).interval := by simp only [State.interval]; rw [ht.regs]
          have htc : t.regs.code = s.regs.code := by rw [ht.regs]; rfl
          have htp : t.precision = s.precision := (hac.trans ht.dec).precision
          have hin := shiftCode_inside hp hc.1 h hc.2.1 hc.2.2 bit
          refine ⟨(hac.trans ht.dec).trans (setCode_dec _ t), ⟨?_, ?_⟩, ?_⟩
          · rw [interval_setCode, precision_setCode, hti, hai, htp]; exact hwt.1
          · rw [interval_setCode, hti, hai, setCode_regs, htp, htc]
            simp only [BitVec.toNat_ofNat]
            rw [Nat.mod_eq_of_lt (by omega)]
            exact hin
          · rw [interval_setCode, hti, hai]
      · have htp : t.precision = s.precision := ht.1.precision
        exact (ih (s := t) (by omega) (by omega) ht.2.1 (fuelEnough_step hp hc.1 h hf ht.2.2 htp)).mono
          (fun _ _ k => ⟨ht.1.trans k.1, k.2⟩) (fun _ _ k => ⟨k.1, ht.1.trans k.2.1, k.2.2⟩)

/-- The fill keeps CODE within the bits shifted in so far (R230). -/
theorem fillCode_holds (n : Nat) {s : State} {p : Nat} (hp : p ≤ 64) (hn : n ≤ p)
    (hc : s.regs.code.toNat < 2 ^ (p - n)) :
    (fillCode n s).Holds
      (fun _ t => DecChange s t ∧ t.regs.low = s.regs.low ∧ t.regs.high = s.regs.high ∧ t.regs.code.toNat < 2 ^ p)
      (fun e t => e = .ioError ∧ DecChange s t ∧ t.regs.low = s.regs.low ∧ t.regs.high = s.regs.high ∧
        t.regs.code.toNat < 2 ^ p) := by
  induction n generalizing s with
  | zero => exact ⟨.refl s, rfl, rfl, by simpa using hc⟩
  | succ n ih =>
    have hpow : 2 ^ (p - n) = 2 * 2 ^ (p - (n + 1)) := by
      rw [show p - n = (p - (n + 1)) + 1 by omega]; ring
    have hle : 2 ^ (p - n) ≤ 2 ^ p := Nat.pow_le_pow_right (by decide) (by omega)
    have hle' : 2 ^ p ≤ 2 ^ 64 := Nat.pow_le_pow_right (by decide) hp
    rw [fillCode]
    refine Flow.Holds.andThen (G := fun _ t => SourceChange s t) ?_ fun bit t ht => ?_
    · refine (nextBit_holds s).mono (fun _ _ k => k) (fun e t k => ⟨k.1, k.2.dec, ?_, ?_, ?_⟩)
      · rw [k.2.regs]
      · rw [k.2.regs]
      · rw [k.2.regs]; exact Nat.lt_of_lt_of_le hc (Nat.pow_le_pow_right (by decide) (by omega))
    · have htc : t.regs.code = s.regs.code := by rw [ht.regs]
      have hbit : bit.toNat ≤ 1 := Bool.toNat_le bit
      refine (ih (s := setCode (2 * t.regs.code.toNat + bit.toNat) t) (by omega) ?_).mono
        (fun _ u k => ⟨(ht.dec.trans (setCode_dec _ t)).trans k.1, ?_, ?_, k.2.2.2⟩)
        (fun _ u k => ⟨k.1, (ht.dec.trans (setCode_dec _ t)).trans k.2.1, ?_, ?_, k.2.2.2.2⟩)
      · rw [setCode_regs, htc]
        simp only [BitVec.toNat_ofNat]
        rw [Nat.mod_eq_of_lt (by omega)]
        omega
      · rw [k.2.1, setCode_regs, ht.regs]
      · rw [k.2.2.1, setCode_regs, ht.regs]
      · rw [k.2.2.1, setCode_regs, ht.regs]
      · rw [k.2.2.2.1, setCode_regs, ht.regs]

end Sys2Proof.Machine
end

