-- ==== Sys2Proof/Laws/Bodies.lean ====
section
/-! SUPPORT. What a command body leaves alone in every state, one lemma a body (60_exceptions.md R302; 10_state.md R39-R48). -/

namespace Sys2Proof.Machine

/-- What a stretch of pseudocode promises of the states it ends in, if it ends. -/
def Flow.Gives {α : Type} (x : Flow α) (G : α → State → Prop) (R : ErrCode → State → Prop) : Prop :=
  match x with
  | .go a s => G a s
  | .raised e s => R e s
  | .stalled _ _ => True
  | .fault _ => True

theorem Flow.Holds.gives {α : Type} {x : Flow α} {G : α → State → Prop} {R : ErrCode → State → Prop} (h : x.Holds G R) :
    x.Gives G R := by
  cases x with
  | go a s => exact h
  | raised e s => exact h
  | stalled q s => trivial
  | fault r => trivial

theorem Flow.Gives.andThen {α β : Type} {x : Flow α} {f : α → State → Flow β} {G : α → State → Prop}
    {H : β → State → Prop} {R : ErrCode → State → Prop} (hx : x.Gives G R) (hf : ∀ a s, G a s → (f a s).Gives H R) :
    (x.andThen f).Gives H R := by
  cases x with
  | go a s => exact hf a s hx
  | raised e s => exact hx
  | stalled q s => trivial
  | fault r => trivial

theorem Flow.Gives.mono {α : Type} {x : Flow α} {G H : α → State → Prop} {R S : ErrCode → State → Prop}
    (hx : x.Gives G R) (hG : ∀ a s, G a s → H a s) (hR : ∀ e s, R e s → S e s) : x.Gives H S := by
  cases x with
  | go a s => exact hG a s hx
  | raised e s => exact hR e s hx
  | stalled q s => trivial
  | fault r => trivial

/-- What an encoder command can change before its STATE write: the sink's and FREQ's answers, and these registers. -/
structure EncSide (s t : State) : Prop where
  outside : SameOutside s t
  ports : t.ports = { s.ports with sink := t.ports.sink, freq := t.ports.freq }
  regs : t.regs = { s.regs with
    low := t.regs.low, high := t.regs.high, pending := t.regs.pending, bitcnt := t.regs.bitcnt, symcnt := t.regs.symcnt }

theorem EncSide.refl (s : State) : EncSide s s := ⟨.refl s, rfl, rfl⟩

theorem EncSide.trans {s t u : State} (h : EncSide s t) (k : EncSide t u) : EncSide s u := by
  refine ⟨h.outside.trans k.outside, ?_, ?_⟩
  · rw [k.ports, h.ports]
  · rw [k.regs, h.regs]

theorem EncChange.side {s t : State} (h : EncChange s t) : EncSide s t := by
  refine ⟨h.outside, ?_, ?_⟩
  · rw [h.ports]
  · rw [h.regs]

theorem SinkChange.side {s t : State} (h : SinkChange s t) : EncSide s t := h.enc.side

theorem setPending_side (v : Word) (s : State) : EncSide s (setPending v s) :=
  ⟨⟨rfl, rfl, rfl, rfl, rfl, rfl, rfl, rfl, rfl, rfl, rfl⟩, rfl, rfl⟩

theorem setInterval_encSide (x : Interval) (s : State) : EncSide s (setInterval x s) :=
  ⟨⟨rfl, rfl, rfl, rfl, rfl, rfl, rfl, rfl, rfl, rfl, rfl⟩, rfl, rfl⟩

/-- RENORM(ENC) in any state (R182). -/
theorem renormEnc_gives (fuel : Nat) (s : State) :
    (renormEnc fuel s).Gives (fun _ t => EncSide s t) (fun e t => e.fatal = true ∧ EncSide s t) := by
  induction fuel generalizing s with
  | zero =>
    unfold renormEnc
    split
    · exact .refl s
    · trivial
  | succ n ih =>
    unfold renormEnc
    split
    · exact .refl s
    · rename_i g _
      refine Flow.Gives.andThen ((sideAction_holds g s).gives.mono (fun _ _ k => k.1.side)
        (fun e t k => ⟨by rcases k.1 with rfl | rfl <;> rfl, k.2.side⟩)) fun _ t k => ?_
      have := k.trans (setInterval_encSide (g.transform t.precision t.interval) t)
      exact (ih _).mono (fun _ _ j => this.trans j) (fun _ _ j => ⟨j.1, this.trans j.2⟩)

theorem require_gives {c : Bool} {e : ErrCode} {s : State} {G : Unit → State → Prop} {R : ErrCode → State → Prop}
    (hg : c = true → G () s) (hr : c = false → R e s) : (require c e s).Gives G R := by
  cases c
  · exact hr rfl
  · exact hg rfl

theorem narrow_gives (cl ch t : Word) (s : State) (R : ErrCode → State → Prop) :
    (narrow cl ch t s).Gives (fun _ u => ∃ x, u = setInterval x s) R := by
  unfold narrow
  split
  · exact ⟨_, rfl⟩
  · trivial

/-- ENCODE in any state (R205): a recoverable error changes no register. -/
theorem encode_gives (s : State) :
    (encodeBody s).Gives (fun x t => x = .normal ∧ EncSide s t)
      (fun e t => e ≠ .ok ∧ EncSide s t ∧ (e.fatal = false → t.regs = s.regs)) := by
  unfold encodeBody
  refine Flow.Gives.andThen (G := fun _ t => t = s)
    (require_gives (fun _ => rfl) (fun _ => ⟨by decide, .refl s, fun _ => rfl⟩)) ?_
  rintro _ _ rfl
  rename_i s
  unfold askFreq
  cases s.ports.freq with
  | nil => trivial
  | cons a rest =>
    simp only [andThen_go]
    generalize hu : record _ _ = u
    have hs : EncSide s u := by rw [← hu]; exact ⟨⟨rfl, rfl, rfl, rfl, rfl, rfl, rfl, rfl, rfl, rfl, rfl⟩, rfl, rfl⟩
    have hr : u.regs = s.regs := by rw [← hu]; rfl
    cases a with
    | unknown => exact ⟨by decide, hs, fun _ => hr⟩
    | freqOk cl ch t =>
      refine Flow.Gives.andThen (G := fun _ t => t = u)
        (require_gives (fun _ => rfl) (fun _ => ⟨by decide, hs, fun _ => hr⟩)) ?_
      rintro _ _ rfl
      rename_i u
      refine Flow.Gives.andThen (narrow_gives cl ch t u _) ?_
      rintro _ _ ⟨x, rfl⟩
      have hv := hs.trans (setInterval_encSide x u)
      refine Flow.Gives.andThen ((renormEnc_gives _ _).mono (fun _ _ k => k)
        (fun e t k => ⟨fun h => by rw [h] at k; exact absurd k.1 (by decide), hv.trans k.2, fun h => by rw [h] at k; exact absurd k.1 (by decide)⟩)) fun _ w k => ?_
      refine ⟨rfl, (hv.trans k).trans ⟨⟨rfl, rfl, rfl, rfl, rfl, rfl, rfl, rfl, rfl, rfl, rfl⟩, rfl, rfl⟩⟩

/-- FINISH in any state (R215): it makes no model request, and its only recoverable error is BAD_STATE. -/
theorem finish_gives (s : State) :
    (finishBody s).Gives
      (fun x t => x = .normal ∧ ∃ u, EncSide s u ∧ u.ports.freq = s.ports.freq ∧ t = setState .done u)
      (fun e t => e ≠ .ok ∧ EncSide s t ∧ t.ports.freq = s.ports.freq ∧ (e.fatal = false → t.regs = s.regs)) := by
  have hfreq : ∀ t u : State, SinkChange t u → u.ports.freq = t.ports.freq := fun t u h => by rw [h.2.1]
  have hsink : ∀ (e : ErrCode) (u t : State), EncSide s u → u.ports.freq = s.ports.freq → e = .ioError ∧ SinkChange u t →
      e ≠ .ok ∧ EncSide s t ∧ t.ports.freq = s.ports.freq ∧ (e.fatal = false → t.regs = s.regs) := by
    rintro e u t hu hf ⟨rfl, h⟩
    exact ⟨by decide, hu.trans h.side, (hfreq _ _ h).trans hf, fun k => by cases k⟩
  unfold finishBody
  refine Flow.Gives.andThen (G := fun _ t => t = s)
    (require_gives (fun _ => rfl) (fun _ => ⟨by decide, .refl s, rfl, fun _ => rfl⟩)) ?_
  rintro _ _ rfl
  rename_i s
  refine Flow.Gives.andThen (G := fun _ t => t = s)
    (require_gives (fun _ => rfl) (fun _ => ⟨by decide, .refl s, rfl, fun _ => rfl⟩)) ?_
  rintro _ _ rfl
  rename_i s
  have h1 := setPending_side (s.regs.pending + 1) s
  refine Flow.Gives.andThen ((emit_holds _ _ _).gives.mono (fun _ _ k => k) (fun e t k => hsink e _ t h1 rfl k)) fun _ t k => ?_
  have hf : t.ports.freq = s.ports.freq := (hfreq _ _ k).trans rfl
  have h2 := (h1.trans k.side).trans (setPending_side 0 t)
  refine Flow.Gives.andThen ((sinkFlush_holds _).gives.mono (fun _ _ k => k) (fun e u k => hsink e _ u h2 hf k)) fun _ u k => ?_
  exact ⟨rfl, u, h2.trans k.side, (hfreq _ _ k).trans hf, rfl⟩

/-- ENC_START in any state (R200). -/
theorem encStart_gives (p : Nat) (s : State) :
    (encStartBody p s).Gives (fun x t => x = .normal ∧ t = setState .enc (beginSession .encode p (maxTotalOperand s) s))
      (fun e t => e ≠ .ok ∧ e.fatal = false ∧ t = s) := by
  unfold encStartBody
  refine Flow.Gives.andThen (G := fun _ t => t = s) (require_gives (fun _ => rfl) (fun _ => ⟨by decide, rfl, rfl⟩)) ?_
  rintro _ _ rfl
  refine Flow.Gives.andThen (G := fun _ t => t = _) (require_gives (fun _ => rfl) (fun _ => ⟨by decide, rfl, rfl⟩)) ?_
  rintro _ _ rfl
  exact ⟨rfl, rfl⟩

/-- What a decoder command can change before its STATE write: the source's and the model's answers, and these registers;
EXHAUSTED once set stays set (R39). -/
structure DecSide (s t : State) : Prop where
  outside : SameOutside s t
  ports : t.ports = { s.ports with source := t.ports.source, total := t.ports.total, symbol := t.ports.symbol }
  regs : t.regs = { s.regs with
    low := t.regs.low, high := t.regs.high, code := t.regs.code, exhausted := t.regs.exhausted, padcnt := t.regs.padcnt
    bitcnt := t.regs.bitcnt, symcnt := t.regs.symcnt, result := t.regs.result }
  latched : s.regs.exhausted = true → t.regs.exhausted = true

theorem DecSide.refl (s : State) : DecSide s s := ⟨.refl s, rfl, rfl, id⟩

theorem DecSide.trans {s t u : State} (h : DecSide s t) (k : DecSide t u) : DecSide s u := by
  refine ⟨h.outside.trans k.outside, ?_, ?_, fun hx => k.latched (h.latched hx)⟩
  · rw [k.ports, h.ports]
  · rw [k.regs, h.regs]

theorem DecChange.side {s t : State} (h : DecChange s t) : DecSide s t := by
  refine ⟨h.outside, ?_, ?_, h.latched⟩
  · rw [h.ports]
  · rw [h.regs]

theorem shiftCode_gives (g : Regime) (s : State) :
    (shiftCode g s).Gives (fun _ t => DecSide s t) (fun e t => e = .ioError ∧ DecSide s t) :=
  Flow.Gives.andThen ((nextBit_holds s).gives.mono (fun _ _ k => k) (fun _ _ k => ⟨k.1, k.2.dec.side⟩)) fun _ t k =>
    (k.dec.trans (setCode_dec _ t)).side

/-- RENORM(DEC) in any state (R182). -/
theorem renormDec_gives (fuel : Nat) (s : State) :
    (renormDec fuel s).Gives (fun _ t => DecSide s t) (fun e t => e = .ioError ∧ DecSide s t) := by
  induction fuel generalizing s with
  | zero =>
    unfold renormDec
    split
    · exact .refl s
    · trivial
  | succ n ih =>
    unfold renormDec
    split
    · exact .refl s
    · rename_i g _
      have h1 := (setInterval_dec (g.transform s.precision s.interval) s).side
      refine Flow.Gives.andThen ((shiftCode_gives g _).mono (fun _ _ k => h1.trans k) (fun _ _ k => ⟨k.1, h1.trans k.2⟩))
        fun _ t k => ?_
      exact (ih t).mono (fun _ _ j => k.trans j) (fun _ _ j => ⟨j.1, k.trans j.2⟩)

theorem fillCode_gives (n : Nat) (s : State) :
    (fillCode n s).Gives (fun _ t => DecChange s t) (fun e t => e = .ioError ∧ DecChange s t) := by
  induction n generalizing s with
  | zero => exact .refl s
  | succ n ih =>
    refine Flow.Gives.andThen ((nextBit_holds s).gives.mono (fun _ _ k => k) (fun _ _ k => ⟨k.1, k.2.dec⟩)) fun b t k => ?_
    have := k.dec.trans (setCode_dec (2 * t.regs.code.toNat + b.toNat) t)
    exact (ih _).mono (fun _ _ j => this.trans j) (fun _ _ j => ⟨j.1, this.trans j.2⟩)

/-- DEC_START in any state (R230): it makes no model request. -/
theorem decStart_gives (p : Nat) (s : State) :
    (decStartBody p s).Gives
      (fun x t => x = .normal ∧ ∃ u, DecChange (beginSession .decode p (maxTotalOperand s) s) u ∧ t = setState .dec u)
      (fun e t => e ≠ .ok ∧ (e.fatal = true ∧ DecChange (beginSession .decode p (maxTotalOperand s) s) t ∨
        e.fatal = false ∧ t = s)) := by
  unfold decStartBody
  refine Flow.Gives.andThen (G := fun _ t => t = s) (require_gives (fun _ => rfl) (fun _ => ⟨by decide, .inr ⟨rfl, rfl⟩⟩)) ?_
  rintro _ _ rfl
  rename_i s
  refine Flow.Gives.andThen (G := fun _ t => t = s) (require_gives (fun _ => rfl) (fun _ => ⟨by decide, .inr ⟨rfl, rfl⟩⟩)) ?_
  rintro _ _ rfl
  refine Flow.Gives.andThen ((fillCode_gives p _).mono (fun _ _ k => k) (fun e t k => ?_)) fun _ t k => ⟨rfl, t, k, rfl⟩
  obtain ⟨rfl, k⟩ := k
  exact ⟨by decide, .inl ⟨rfl, k⟩⟩

/-- DECODE in any state (R235): it goes on to DONE exactly when it ends the stream, and a recoverable error changes no
register. -/
theorem decode_gives (s : State) :
    (decodeBody s).Gives
      (fun x t => s.regs.state = .dec ∧ ((x = .endOfStream ∧ ∃ u, DecSide s u ∧ t = setState .done u) ∨ (x = .normal ∧ DecSide s t)))
      (fun e t => e ≠ .ok ∧ DecSide s t ∧ (e.fatal = false → t.regs = s.regs)) := by
  unfold decodeBody
  refine Flow.Gives.andThen (G := fun _ t => t = s ∧ s.regs.state = .dec)
    (require_gives (fun k => ⟨rfl, by simpa using k⟩) (fun _ => ⟨by decide, .refl s, fun _ => rfl⟩)) ?_
  rintro _ _ ⟨rfl, hd⟩
  rename_i s
  split
  · exact ⟨hd, .inl ⟨rfl, setResult 0 s, ⟨⟨rfl, rfl, rfl, rfl, rfl, rfl, rfl, rfl, rfl, rfl, rfl⟩, rfl, rfl, id⟩, rfl⟩⟩
  · unfold askTotal
    cases s.ports.total with
    | nil => trivial
    | cons t rest =>
      simp only [andThen_go]
      generalize hu : record _ _ = u
      have hs : DecSide s u := by rw [← hu]; exact ⟨⟨rfl, rfl, rfl, rfl, rfl, rfl, rfl, rfl, rfl, rfl, rfl⟩, rfl, rfl, id⟩
      refine Flow.Gives.andThen (G := fun _ t => t = u)
        (require_gives (fun _ => rfl) (fun _ => ⟨by decide, hs, fun k => by cases k⟩)) ?_
      rintro _ _ rfl
      rename_i u
      refine Flow.Gives.andThen (x := value t u) (G := fun _ t => t = u) ?_ ?_
      · unfold value
        split
        · rfl
        · trivial
      rintro v _ rfl
      rename_i u
      unfold askSymbol
      cases u.ports.symbol with
      | nil => trivial
      | cons a as =>
        simp only [andThen_go]
        generalize hw : record _ _ = w
        have hsw : DecSide s w := hs.trans (by rw [← hw]; exact ⟨⟨rfl, rfl, rfl, rfl, rfl, rfl, rfl, rfl, rfl, rfl, rfl⟩, rfl, rfl, id⟩)
        unfold resolveSymbol
        refine Flow.Gives.andThen (G := fun _ t => t = w)
          (require_gives (fun _ => rfl) (fun _ => ⟨by decide, hsw, fun k => by cases k⟩)) ?_
        rintro _ _ rfl
        clear hw
        rename_i w
        refine Flow.Gives.andThen (narrow_gives a.cl a.ch t w _) ?_
        rintro _ _ ⟨x, rfl⟩
        have hv := hsw.trans (setInterval_dec x w).side
        refine Flow.Gives.andThen ((renormDec_gives _ _).mono (fun _ _ k => hv.trans k) (fun e t k => ?_)) fun _ z k => ?_
        · obtain ⟨rfl, k⟩ := k
          exact ⟨by decide, hv.trans k, fun k => by cases k⟩
        · have hz : DecSide s (setResult a.symbol (countSymbol z)) :=
            k.trans ⟨⟨rfl, rfl, rfl, rfl, rfl, rfl, rfl, rfl, rfl, rfl, rfl⟩, rfl, rfl, id⟩
          split
          · exact ⟨hd, .inl ⟨rfl, _, hz, rfl⟩⟩
          · exact ⟨hd, .inr ⟨rfl, hz⟩⟩

end Sys2Proof.Machine
end

