-- ==== Sys2Proof/Laws/Inputs.lean ====
section
/-! SUPPORT. No command looks at the order of the coming inputs: one lemma an operation, up to what the host reads
(45_host_commands.md R281, R286). -/

namespace Sys2Proof.Machine

/-- The state with other coming inputs. -/
def State.withInputs (r : List Input) (s : State) : State := { s with inputs := r }

/-- A stretch of pseudocode with other coming inputs. -/
def Flow.withInputs {α : Type} (r : List Input) : Flow α → Flow α
  | .go a s => .go a (s.withInputs r)
  | .raised e s => .raised e (s.withInputs r)
  | .stalled q s => .stalled q (s.withInputs r)
  | .fault f => .fault f

/-- Two stretches that do not look at the inputs make one that does not. -/
theorem andThen_withInputs {α β : Type} {r : List Input} {x y : Flow α} {f g : α → State → Flow β}
    (hx : y = x.withInputs r) (hf : ∀ a s, g a (s.withInputs r) = (f a s).withInputs r) :
    y.andThen g = (x.andThen f).withInputs r := by
  subst hx
  cases x with
  | go a s => exact hf a s
  | raised e s => rfl
  | stalled q s => rfl
  | fault f => rfl

theorem require_withInputs (r : List Input) (c : Bool) (e : ErrCode) (s : State) :
    require c e (s.withInputs r) = (require c e s).withInputs r := by cases c <;> rfl

theorem sinkWrite_withInputs (r : List Input) (b : Bool) (s : State) :
    sinkWrite b (s.withInputs r) = (sinkWrite b s).withInputs r := by
  obtain ⟨_, _, _, _, _, _, ⟨_, _, _, sink, _⟩, _, _, _, _, _, _, _⟩ := s
  rcases sink with _ | ⟨_ | _, _⟩ <;> rfl

theorem sinkRepeat_withInputs (r : List Input) (b : Bool) (n : Nat) (s : State) :
    sinkRepeat b n (s.withInputs r) = (sinkRepeat b n s).withInputs r := by
  induction n generalizing s with
  | zero => rfl
  | succ n ih => exact andThen_withInputs (sinkWrite_withInputs r b s) fun _ => ih

theorem emit_withInputs (r : List Input) (b : Bool) (n : Nat) (s : State) :
    emit b n (s.withInputs r) = (emit b n s).withInputs r :=
  andThen_withInputs (sinkWrite_withInputs r b s) fun _ => sinkRepeat_withInputs r (!b) n

theorem sinkFlush_withInputs (r : List Input) (s : State) : sinkFlush (s.withInputs r) = (sinkFlush s).withInputs r := by
  obtain ⟨_, _, _, _, _, _, ⟨_, _, _, sink, _⟩, _, _, _, _, _, _, _⟩ := s
  rcases sink with _ | ⟨_ | _, _⟩ <;> rfl

theorem nextBit_withInputs (r : List Input) (s : State) : nextBit (s.withInputs r) = (nextBit s).withInputs r := by
  unfold nextBit
  show (if s.regs.exhausted then _ else _) = _
  cases hx : s.regs.exhausted with
  | true => rfl
  | false =>
    obtain ⟨_, _, _, _, _, _, ⟨_, _, _, _, source⟩, _, _, _, _, _, _, _⟩ := s
    rcases source with _ | ⟨_ | _ | _, _⟩ <;> rfl

theorem sideAction_withInputs (r : List Input) (g : Regime) (s : State) :
    sideAction g (s.withInputs r) = (sideAction g s).withInputs r := by
  cases g with
  | e1 => exact andThen_withInputs (emit_withInputs r _ _ s) fun _ _ => rfl
  | e2 => exact andThen_withInputs (emit_withInputs r _ _ s) fun _ _ => rfl
  | e3 =>
    show (if s.regs.pending.toNat = pendingLimit s.build then _ else _) = Flow.withInputs r (if _ then _ else _)
    split <;> rfl

theorem renormEnc_withInputs (r : List Input) (fuel : Nat) (s : State) :
    renormEnc fuel (s.withInputs r) = (renormEnc fuel s).withInputs r := by
  induction fuel generalizing s with
  | zero =>
    show (match s.regime with | none => _ | some _ => _) = Flow.withInputs r (match s.regime with | none => _ | some _ => _)
    cases s.regime <;> rfl
  | succ n ih =>
    show (match s.regime with | none => _ | some g => _) = Flow.withInputs r (match s.regime with | none => _ | some g => _)
    cases s.regime with
    | none => rfl
    | some g => exact andThen_withInputs (sideAction_withInputs r g s) fun _ t => ih (applyTransform g t)

theorem shiftCode_withInputs (r : List Input) (g : Regime) (s : State) :
    shiftCode g (s.withInputs r) = (shiftCode g s).withInputs r :=
  andThen_withInputs (nextBit_withInputs r s) fun _ _ => rfl

theorem renormDec_withInputs (r : List Input) (fuel : Nat) (s : State) :
    renormDec fuel (s.withInputs r) = (renormDec fuel s).withInputs r := by
  induction fuel generalizing s with
  | zero =>
    show (match s.regime with | none => _ | some _ => _) = Flow.withInputs r (match s.regime with | none => _ | some _ => _)
    cases s.regime <;> rfl
  | succ n ih =>
    show (match s.regime with | none => _ | some g => _) = Flow.withInputs r (match s.regime with | none => _ | some g => _)
    cases s.regime with
    | none => rfl
    | some g => exact andThen_withInputs (shiftCode_withInputs r g (applyTransform g s)) fun _ => ih

theorem fillCode_withInputs (r : List Input) (n : Nat) (s : State) :
    fillCode n (s.withInputs r) = (fillCode n s).withInputs r := by
  induction n generalizing s with
  | zero => rfl
  | succ n ih =>
    exact andThen_withInputs (nextBit_withInputs r s) fun b t => ih (setCode (2 * t.regs.code.toNat + b.toNat) t)

theorem narrow_withInputs (r : List Input) (cl ch t : Word) (s : State) :
    narrow cl ch t (s.withInputs r) = (narrow cl ch t s).withInputs r := by
  show (if s.interval.narrows s.precision cl.toNat ch.toNat t.toNat then _ else _) = Flow.withInputs r (if _ then _ else _)
  split <;> rfl

theorem value_withInputs (r : List Input) (t : Word) (s : State) :
    value t (s.withInputs r) = (value t s).withInputs r := by
  show (if s.regs.low.toNat ≤ s.regs.code.toNat ∧ s.regs.code.toNat ≤ s.regs.high.toNat ∧ s.regs.high.toNat ≤ top s.precision
    then _ else _) = Flow.withInputs r (if _ then _ else _)
  split <;> rfl

theorem askFreq_withInputs (r : List Input) (x : Word) (s : State) :
    askFreq x (s.withInputs r) = (askFreq x s).withInputs r := by
  obtain ⟨_, _, _, _, _, _, ⟨freq, _, _, _, _⟩, _, _, _, _, _, _, _⟩ := s
  cases freq <;> rfl

theorem askTotal_withInputs (r : List Input) (s : State) : askTotal (s.withInputs r) = (askTotal s).withInputs r := by
  obtain ⟨_, _, _, _, _, _, ⟨_, total, _, _, _⟩, _, _, _, _, _, _, _⟩ := s
  cases total <;> rfl

theorem askSymbol_withInputs (r : List Input) (v t : Word) (s : State) :
    askSymbol v t (s.withInputs r) = (askSymbol v t s).withInputs r := by
  obtain ⟨_, _, _, _, _, _, ⟨_, _, symbol, _, _⟩, _, _, _, _, _, _, _⟩ := s
  cases symbol <;> rfl

theorem encStartBody_withInputs (r : List Input) (p : Nat) (s : State) :
    encStartBody p (s.withInputs r) = (encStartBody p s).withInputs r :=
  andThen_withInputs (require_withInputs r _ _ s) fun _ s =>
  andThen_withInputs (require_withInputs r _ _ s) fun _ _ => rfl

theorem encodeBody_withInputs (r : List Input) (s : State) :
    encodeBody (s.withInputs r) = (encodeBody s).withInputs r :=
  andThen_withInputs (require_withInputs r _ _ s) fun _ s =>
  andThen_withInputs (askFreq_withInputs r _ s) fun a s => by
    cases a with
    | unknown => rfl
    | freqOk cl ch t =>
      exact andThen_withInputs (require_withInputs r _ _ s) fun _ s =>
        andThen_withInputs (narrow_withInputs r cl ch t s) fun _ s =>
        andThen_withInputs (renormEnc_withInputs r _ s) fun _ _ => rfl

theorem finishBody_withInputs (r : List Input) (s : State) :
    finishBody (s.withInputs r) = (finishBody s).withInputs r :=
  andThen_withInputs (require_withInputs r _ _ s) fun _ s =>
  andThen_withInputs (require_withInputs r _ _ s) fun _ s =>
  andThen_withInputs (emit_withInputs r _ _ (setPending (s.regs.pending + 1) s)) fun _ s =>
  andThen_withInputs (sinkFlush_withInputs r (setPending 0 s)) fun _ _ => rfl

theorem decStartBody_withInputs (r : List Input) (p : Nat) (s : State) :
    decStartBody p (s.withInputs r) = (decStartBody p s).withInputs r :=
  andThen_withInputs (require_withInputs r _ _ s) fun _ s =>
  andThen_withInputs (require_withInputs r _ _ s) fun _ s =>
  andThen_withInputs (fillCode_withInputs r p (beginSession .decode p (maxTotalOperand s) s)) fun _ _ => rfl

theorem resolveSymbol_withInputs (r : List Input) (a : SymbolAnswer) (v t : Word) (s : State) :
    resolveSymbol a v t (s.withInputs r) = (resolveSymbol a v t s).withInputs r :=
  andThen_withInputs (require_withInputs r _ _ s) fun _ s =>
  andThen_withInputs (narrow_withInputs r _ _ _ s) fun _ s =>
  andThen_withInputs (renormDec_withInputs r _ s) fun _ s => by
    show (if a.eos then _ else _) = Flow.withInputs r (if a.eos then _ else _)
    split <;> rfl

theorem decodeBody_withInputs (r : List Input) (s : State) :
    decodeBody (s.withInputs r) = (decodeBody s).withInputs r :=
  andThen_withInputs (require_withInputs r _ _ s) fun _ s => by
    show (if streamUsedUp s then _ else _) = Flow.withInputs r (if streamUsedUp s then _ else _)
    split
    · rfl
    · exact andThen_withInputs (askTotal_withInputs r s) fun t s =>
        andThen_withInputs (require_withInputs r _ _ s) fun _ s =>
        andThen_withInputs (value_withInputs r t s) fun v s =>
        andThen_withInputs (askSymbol_withInputs r v t s) fun a s => resolveSymbol_withInputs r a v t s

/-- An outcome with other coming inputs. -/
def withInputsAfter (r : List Input) : Host.Outcome State Fault Refusal → Host.Outcome State Fault Refusal
  | .next t => .next (t.withInputs r)
  | .fault f => .fault f
  | .refused x => .refused x

theorem runCommand_withInputs {r : List Input} {body : State → Flow Ending} {s : State}
    (h : ∀ s : State, body (s.withInputs r) = (body s).withInputs r) :
    runCommand body (s.withInputs r) = withInputsAfter r (runCommand body s) := by
  unfold runCommand
  rw [show fresh (s.withInputs r) = (fresh s).withInputs r from rfl, h]
  cases body (fresh s) with
  | go x t => rfl
  | raised e t => cases e <;> rfl
  | stalled q t => rfl
  | fault f => rfl

/-- No command looks at the coming inputs. -/
theorem exec_withInputs (r : List Input) (i : Instr) (s : State) :
    exec i (s.withInputs r) = withInputsAfter r (exec i s) := by
  cases i with
  | encStart p => exact runCommand_withInputs (encStartBody_withInputs r p)
  | encode => exact runCommand_withInputs (encodeBody_withInputs r)
  | finish => exact runCommand_withInputs (finishBody_withInputs r)
  | decStart p => exact runCommand_withInputs (decStartBody_withInputs r p)
  | decode => exact runCommand_withInputs (decodeBody_withInputs r)
  | abort => exact runCommand_withInputs (body := abortBody) fun _ => rfl

theorem blockStep_withInputs (r : List Input) (s : State) :
    blockStep (s.withInputs r) = withInputsAfter r (blockStep s) := by
  show (if s.busy then (match decode s.cmd with | .ok i => exec i (s.withInputs r) | .error _ => execIllegal (s.withInputs r))
    else _) = withInputsAfter r (if s.busy then (match decode s.cmd with | .ok i => exec i s | .error _ => execIllegal s) else _)
  split
  · cases decode s.cmd with
    | ok i => exact exec_withInputs r i s
    | error e => exact runCommand_withInputs fun _ => rfl
  · rfl

theorem exhaustedShown_withInputs (r : List Input) (s : State) : exhaustedShown (s.withInputs r) = exhaustedShown s := by
  unfold exhaustedShown exhaustedAtCompletion
  rw [blockStep_withInputs]
  cases blockStep s <;> rfl

/-- What the host reads does not depend on the coming inputs. -/
@[simp] theorem readReg_withInputs (r : List Input) (s : State) (reg : WinReg) :
    readReg { s with inputs := r } reg = readReg s reg := by
  cases reg with
  | status =>
    show statusWord s.regs s.busy (exhaustedShown (s.withInputs r)) = _
    rw [exhaustedShown_withInputs]
    rfl
  | _ => rfl

@[simp] theorem readOffset_withInputs (r : List Input) (s : State) (offset : Nat) :
    readOffset { s with inputs := r } offset = readOffset s offset := by
  unfold readOffset
  split
  · exact readReg_withInputs r s _
  · rfl

end Sys2Proof.Machine
end

