-- ==== Sys2Proof/Laws/Invariant.lean ====
section
/-! SUPPORT. The registers' invariant (Safety.lean) under the updates that the commands make, and one lemma a command body:
it never faults, and what it leaves satisfies the invariant. -/

namespace Sys2Proof.Machine

theorem cleared_ending (r : Regs) (e : ErrCode) (b : Bool) : Regs.cleared { r with err := e, eos := b } = r.cleared := by
  cases r; simp [Regs.cleared, Regs.reset]

/-- ERR and EOS are free (R45, R48). -/
theorem Regs.Inv.ending {b : Build} {r : Regs} (h : r.Inv b) (e : ErrCode) (x : Bool) :
    Regs.Inv b { r with err := e, eos := x } :=
  { h with idle := fun k => (cleared_ending r e x).trans (h.idle k) }

/-- What a session that has ended, or that is about to fail, still satisfies. -/
structure Regs.Ended (b : Build) (r : Regs) : Prop where
  low : r.low.toNat < 2 ^ r.prec.toNat
  high : r.high.toNat < 2 ^ r.prec.toNat
  code : r.code.toNat < 2 ^ r.prec.toNat
  pending : r.pending.toNat ≤ pendingLimit b
  encode : r.kind = .encode → r.code = 0 ∧ r.exhausted = false
  decode : r.kind = .decode → r.pending = 0
  pad : r.exhausted = false → r.padcnt = 0

theorem Regs.Inv.ended {b : Build} {r : Regs} (h : r.Inv b) : r.Ended b :=
  { low := h.low, high := h.high, code := h.code, pending := h.pending, encode := h.encode, decode := h.decode, pad := h.pad }

theorem Regs.Ended.inv {b : Build} {r : Regs} (h : r.Ended b) {x : Session} (hx : x = .done ∨ x = .failed) :
    Regs.Inv b { r with state := x } :=
  { h with
    operands := fun k => by rcases hx with rfl | rfl <;> cases k
    interval := fun k => by rcases hx with rfl | rfl <;> cases k
    encKind := fun k => by rcases hx with rfl | rfl <;> cases k
    decKind := fun k => by rcases hx with rfl | rfl <;> cases k
    inside := fun k => by rcases hx with rfl | rfl <;> cases k
    idle := fun k => by rcases hx with rfl | rfl <;> cases k }

theorem raise_inv {t : State} {e : ErrCode} (h : t.regs.Ended t.build) (h' : e.fatal = false → t.regs.Inv t.build) :
    (raise e t).regs.Inv t.build := by
  unfold raise failIfFatal
  split
  · exact (h.inv (.inr rfl)).ending e false
  · rename_i he
    exact (h' (by simpa using he)).ending e false

/-- What a command body promises whatever the agents answer: no fault, and the registers' invariant at its completion. -/
def Keeps (b : Build) (x : Flow Ending) : Prop :=
  x.Holds (fun _ t => t.build = b ∧ t.regs.Inv b)
    (fun e t => t.build = b ∧ t.regs.Ended b ∧ (e.fatal = false → t.regs.Inv b))

theorem Regs.Inv.bounds {b : Build} {r : Regs} (hb : b.wf = true) (h : r.Inv b) (hl : r.state.live = true) :
    2 ≤ r.prec.toNat ∧ r.prec.toNat ≤ 64 ∧ 1 ≤ r.maxtot.toNat ∧ r.maxtot.toNat ≤ quarter r.prec.toNat := by
  have := h.operands hl
  simp only [precisionOk, Build.wf, Bool.and_eq_true, decide_eq_true_eq, quarter] at *
  omega

theorem Regs.Inv.within {b : Build} {r : Regs} (h : r.Inv b) (hl : r.state.live = true) :
    Interval.within r.prec.toNat { lo := r.low.toNat, hi := r.high.toNat } := by
  have := h.interval hl
  simp only [Interval.settled, Bool.and_eq_true, decide_eq_true_eq] at this
  exact ⟨Nat.le_of_lt this.1.1, this.1.2⟩

theorem within_pow {p : Nat} (hp : 2 ≤ p) {x : Interval} (h : x.within p) : x.lo < 2 ^ p ∧ x.hi < 2 ^ p := by
  have := (constants p hp).2.2.2
  obtain ⟨h1, h2⟩ := h
  omega

/-- NARROW on a settled interval with an answer that passed the checks stays in bounds (R172, R175). -/
theorem narrow_ok {s : State} {cl ch t : Word} (hp : 2 ≤ s.precision)
    (hx : s.interval.settled s.precision = true) (h1 : cl.toNat < ch.toNat) (h2 : ch.toNat ≤ t.toNat)
    (h3 : t.toNat ≤ quarter s.precision) :
    narrow cl ch t s = .go () (setInterval (s.interval.narrow cl.toNat ch.toNat t.toNat) s) ∧
      (s.interval.narrow cl.toNat ch.toNat t.toNat).within s.precision := by
  obtain ⟨hw, hlt, -, hq⟩ := settled_bounds hp hx
  have hn := narrow_within (by omega : s.interval.lo ≤ s.interval.hi) (by omega : t.toNat ≤ s.interval.range) h1 h2
  refine ⟨?_, hn.2.2.1, by have := hw.2; omega⟩
  have : s.interval.narrows s.precision cl.toNat ch.toNat t.toNat = true := by
    simp [Interval.narrows, hn.1, hw.1, hw.2]
  simp [narrow, this]

theorem require_holds {c : Bool} {e : ErrCode} {s : State} {G : Unit → State → Prop} {R : ErrCode → State → Prop}
    (hg : c = true → G () s) (hr : c = false → R e s) : (require c e s).Holds G R := by
  cases c
  · exact hr rfl
  · exact hg rfl

/-- An encode session after RENORM(ENC) and the symbol count. -/
theorem Regs.Inv.encoded {b : Build} {r : Regs} (h : r.Inv b) (hs : r.state = .enc) {lo hi pe bc sc : Word}
    (hw : lo.toNat < 2 ^ r.prec.toNat ∧ hi.toNat < 2 ^ r.prec.toNat) (hp : pe.toNat ≤ pendingLimit b)
    (hx : Interval.settled r.prec.toNat { lo := lo.toNat, hi := hi.toNat } = true) :
    Regs.Inv b { r with low := lo, high := hi, pending := pe, bitcnt := bc, symcnt := sc } :=
  { h with
    low := hw.1, high := hw.2, pending := hp
    interval := fun _ => hx
    decode := fun k => by rw [h.encKind hs] at k; cases k
    inside := fun k => by rw [hs] at k; cases k
    idle := fun k => by rw [hs] at k; cases k }

theorem Regs.Ended.encoded {b : Build} {r : Regs} (h : r.Ended b) (hs : r.kind = .encode) {lo hi pe bc sc : Word}
    (hw : lo.toNat < 2 ^ r.prec.toNat ∧ hi.toNat < 2 ^ r.prec.toNat) (hp : pe.toNat ≤ pendingLimit b) :
    Regs.Ended b { r with low := lo, high := hi, pending := pe, bitcnt := bc, symcnt := sc } :=
  { h with low := hw.1, high := hw.2, pending := hp, decode := fun k => by rw [hs] at k; cases k }

/-- A decode session after RENORM(DEC), the symbol count and the result. -/
theorem Regs.Ended.decoded {b : Build} {r : Regs} (h : r.Ended b) (hs : r.kind = .decode) {lo hi co pc bc sc re : Word}
    {ex : Bool} (hw : lo.toNat < 2 ^ r.prec.toNat ∧ hi.toNat < 2 ^ r.prec.toNat) (hc : co.toNat < 2 ^ r.prec.toNat)
    (hp : ex = false → pc = 0) :
    Regs.Ended b { r with
      low := lo, high := hi, code := co, exhausted := ex, padcnt := pc, bitcnt := bc, symcnt := sc, result := re } :=
  { h with low := hw.1, high := hw.2, code := hc, pad := hp, encode := fun k => by rw [hs] at k; cases k }

theorem Regs.Inv.decoded {b : Build} {r : Regs} (h : r.Inv b) (hs : r.state = .dec) {lo hi co pc bc sc re : Word}
    {ex : Bool} (hw : lo.toNat < 2 ^ r.prec.toNat ∧ hi.toNat < 2 ^ r.prec.toNat)
    (hx : Interval.settled r.prec.toNat { lo := lo.toNat, hi := hi.toNat } = true)
    (hc : lo.toNat ≤ co.toNat ∧ co.toNat ≤ hi.toNat) (hp : ex = false → pc = 0) :
    Regs.Inv b { r with
      low := lo, high := hi, code := co, exhausted := ex, padcnt := pc, bitcnt := bc, symcnt := sc, result := re } :=
  { h with
    low := hw.1, high := hw.2, code := Nat.lt_of_le_of_lt hc.2 hw.2, pad := hp
    interval := fun _ => hx
    encKind := fun k => by rw [hs] at k; cases k
    encode := fun k => by rw [h.decKind hs] at k; cases k
    inside := fun _ => hc
    idle := fun k => by rw [hs] at k; cases k }

theorem encode_keeps {s : State} (hb : s.build.wf = true) (h : s.regs.Inv s.build) : Keeps s.build (encodeBody s) := by
  unfold encodeBody
  refine Flow.Holds.andThen (G := fun _ t => t = s ∧ s.regs.state = .enc)
    (require_holds (fun k => ⟨rfl, by simpa using k⟩) (fun _ => ⟨rfl, h.ended, fun _ => h⟩)) ?_
  rintro _ _ ⟨rfl, he⟩
  rename_i s
  have hl : s.regs.state.live = true := by rw [he]; rfl
  obtain ⟨h2, h64, -, hq⟩ := h.bounds hb hl
  have hset := h.interval hl
  unfold askFreq
  cases s.ports.freq with
  | nil => trivial
  | cons a rest =>
    cases a with
    | unknown => exact ⟨rfl, h.ended, fun _ => h⟩
    | freqOk cl ch t =>
      simp only [andThen_go]
      generalize hu : record _ _ = u
      have hur : u.regs = s.regs := by rw [← hu]; rfl
      have hub : u.build = s.build := by rw [← hu]; rfl
      have hui : u.interval = { lo := s.regs.low.toNat, hi := s.regs.high.toNat } := by rw [← hu]; rfl
      have hup : u.precision = s.regs.prec.toNat := by rw [← hu]; rfl
      refine Flow.Holds.andThen (G := fun _ v => v = u ∧ freqOkValid cl ch t u.regs.maxtot = true)
        (require_holds (fun k => ⟨rfl, k⟩) (fun _ => ⟨hub, by rw [hur]; exact h.ended, fun k => by cases k⟩)) ?_
      rintro _ _ ⟨rfl, hv⟩
      rename_i u
      simp only [freqOkValid, Bool.and_eq_true, decide_eq_true_eq, hur] at hv
      obtain ⟨hn, hw⟩ := narrow_ok (s := u) (by omega) (by rw [hui, hup]; exact hset) hv.1.1 hv.1.2 (by rw [hup]; omega)
      rw [hn, andThen_go]
      generalize hvv : setInterval _ u = v
      have hvp : v.precision = u.precision := by rw [← hvv]; rfl
      have hvi : v.interval = u.interval.narrow cl.toNat ch.toNat t.toNat := by
        have := within_lt (by omega) (by omega) hw
        rw [← hvv, interval_setInterval _ this.1 this.2]
      have hvb : v.build = s.build := by rw [← hvv]; exact hub
      have hvr : v.regs = { s.regs with low := v.regs.low, high := v.regs.high } := by rw [← hvv, setInterval_regs, hur]
      have hvw : v.interval.within v.precision := by rw [hvi, hvp]; exact hw
      have hvl : v.regs.pending.toNat ≤ pendingLimit v.build := by rw [hvr, hvb]; exact h.pending
      have key : ∀ w : State, EncChange v w → w.build = s.build ∧ w.regs.pending.toNat ≤ pendingLimit s.build ∧
          w.interval.within s.regs.prec.toNat ∧ w.precision = s.regs.prec.toNat ∧ w.regs = { s.regs with
            low := w.regs.low, high := w.regs.high, pending := w.regs.pending, bitcnt := w.regs.bitcnt } := by
        intro w hw
        refine ⟨hw.outside.build.trans hvb, ?_, ?_, hw.precision.trans (hvp.trans hup), ?_⟩
        · have := hw.pending hvl; rwa [hvb] at this
        · have := hw.within hvw; rwa [hvp, hup] at this
        · rw [hw.regs, hvr]
      refine Flow.Holds.andThen ((renormEnc_holds v.precision (by omega) (by omega) hvw (fuelEnough_precision v)).mono
        (fun _ _ k => k) (fun e w k => ?_)) (fun _ w k => ?_)
      · obtain ⟨k1, k2, k3, k4, k5⟩ := key w k.2
        have hf : e.fatal = true := by rcases k.1 with rfl | rfl <;> rfl
        refine ⟨k1, ?_, fun k => by rw [hf] at k; cases k⟩
        rw [k5]
        exact h.ended.encoded (h.encKind he) (within_pow (by omega) k3) k2
      · obtain ⟨k1, k2, k3, k4, k5⟩ := key w k.1
        refine ⟨k1, ?_⟩
        have : (countSymbol w).regs = { s.regs with
            low := w.regs.low, high := w.regs.high, pending := w.regs.pending, bitcnt := w.regs.bitcnt
            symcnt := w.regs.symcnt + 1 } := by
          show ({ w.regs with symcnt := w.regs.symcnt + 1 } : Regs) = _
          rw [k5]
        rw [this]
        refine h.encoded he (within_pow (by omega) k3) k2 (settled_of_none (by omega) k3 ?_)
        have hr := k.2
        simp only [State.regime, k4] at hr
        exact hr

theorem finish_keeps {s : State} (hb : s.build.wf = true) (h : s.regs.Inv s.build) : Keeps s.build (finishBody s) := by
  unfold finishBody
  refine Flow.Holds.andThen (G := fun _ t => t = s ∧ s.regs.state = .enc)
    (require_holds (fun k => ⟨rfl, by simpa using k⟩) (fun _ => ⟨rfl, h.ended, fun _ => h⟩)) ?_
  rintro _ _ ⟨rfl, he⟩
  rename_i s
  refine Flow.Holds.andThen (G := fun _ t => t = s ∧ s.regs.pending.toNat ≠ pendingLimit s.build)
    (require_holds (fun k => ⟨rfl, by simpa using k⟩) (fun _ => ⟨rfl, h.ended, fun k => by cases k⟩)) ?_
  rintro _ _ ⟨rfl, hp⟩
  rename_i s
  have hk := h.encKind he
  have hpe : (s.regs.pending + 1).toNat ≤ pendingLimit s.build := by
    have := h.pending
    have : (s.regs.pending + 1).toNat ≤ s.regs.pending.toNat + 1 := by rw [BitVec.toNat_add]; exact Nat.mod_le _ _
    omega
  refine Flow.Holds.andThen ((emit_holds _ _ _).mono (fun _ _ k => k) (fun e t k => ?_)) (fun _ t k => ?_)
  · obtain ⟨rfl, ho, -, hr⟩ := k
    refine ⟨ho.build, ?_, fun k => by cases k⟩
    rw [hr]
    exact h.ended.encoded hk ⟨h.low, h.high⟩ hpe
  · obtain ⟨ho, -, hr⟩ := k
    refine Flow.Holds.andThen ((sinkFlush_holds _).mono (fun _ _ k => k) (fun e u k => ?_)) (fun _ u k => ?_)
    · obtain ⟨rfl, hu, -, hur⟩ := k
      refine ⟨hu.build.trans ho.build, ?_, fun k => by cases k⟩
      rw [hur, setPending_regs, hr]
      exact h.ended.encoded hk ⟨h.low, h.high⟩ (Nat.zero_le _)
    · obtain ⟨hu, -, hur⟩ := k
      refine ⟨hu.build.trans ho.build, ?_⟩
      rw [setState_regs, hur, setPending_regs, hr]
      exact (h.ended.encoded hk ⟨h.low, h.high⟩ (Nat.zero_le _)).inv (.inl rfl)

theorem precisionOk_bounds {b : Build} (hb : b.wf = true) {p : Nat} {m : Word} (h : precisionOk b p m = true) :
    2 ≤ p ∧ p ≤ 64 ∧ (BitVec.ofNat 7 p).toNat = p ∧ (BitVec.ofNat 64 (2 ^ p - 1)).toNat = top p ∧ top p < 2 ^ p := by
  simp only [precisionOk, Build.wf, Bool.and_eq_true, decide_eq_true_eq] at *
  have : 2 ^ p ≤ 2 ^ 64 := Nat.pow_le_pow_right (by decide) (by omega)
  have : 0 < 2 ^ p := by positivity
  simp only [BitVec.toNat_ofNat, top]
  refine ⟨by omega, by omega, Nat.mod_eq_of_lt (by omega), Nat.mod_eq_of_lt (by omega), by omega⟩

theorem beginSession_regs (kind : Kind) (p : Nat) (m : Word) (s : State) :
    (beginSession kind p m s).regs =
      { s.regs with
        prec := BitVec.ofNat 7 p, maxtot := m, low := 0, high := BitVec.ofNat 64 (2 ^ p - 1), pending := 0, code := 0
        exhausted := false, padcnt := 0, bitcnt := 0, symcnt := 0, result := 0, kind := kind } := rfl

theorem encStart_keeps {s : State} (hb : s.build.wf = true) (h : s.regs.Inv s.build) (p : Nat) :
    Keeps s.build (encStartBody p s) := by
  unfold encStartBody
  refine Flow.Holds.andThen (G := fun _ t => t = s) (require_holds (fun _ => rfl) (fun _ => ⟨rfl, h.ended, fun _ => h⟩)) ?_
  rintro _ _ rfl
  rename_i s
  refine Flow.Holds.andThen (G := fun _ t => t = s ∧ precisionOk s.build p (maxTotalOperand s) = true)
    (require_holds (fun k => ⟨rfl, k⟩) (fun _ => ⟨rfl, h.ended, fun _ => h⟩)) ?_
  rintro _ _ ⟨rfl, hp⟩
  rename_i s
  obtain ⟨h2, -, hpp, hht, hlt⟩ := precisionOk_bounds hb hp
  refine ⟨rfl, ?_⟩
  exact {
    low := by positivity
    high := by simp only [setState_regs, beginSession_regs, hpp, hht]; exact hlt
    code := by positivity
    pending := Nat.zero_le _
    operands := fun _ => by simp only [setState_regs, beginSession_regs, hpp]; exact hp
    interval := fun _ => by simp only [setState_regs, beginSession_regs, hpp, hht]; exact whole_settled h2
    encKind := fun _ => rfl
    decKind := fun k => by cases k
    encode := fun _ => ⟨rfl, rfl⟩
    decode := fun k => by cases k
    inside := fun k => by cases k
    idle := fun k => by cases k
    pad := fun _ => rfl }

theorem decStart_keeps {s : State} (hb : s.build.wf = true) (h : s.regs.Inv s.build) (p : Nat) :
    Keeps s.build (decStartBody p s) := by
  unfold decStartBody
  refine Flow.Holds.andThen (G := fun _ t => t = s) (require_holds (fun _ => rfl) (fun _ => ⟨rfl, h.ended, fun _ => h⟩)) ?_
  rintro _ _ rfl
  rename_i s
  refine Flow.Holds.andThen (G := fun _ t => t = s ∧ precisionOk s.build p (maxTotalOperand s) = true)
    (require_holds (fun k => ⟨rfl, k⟩) (fun _ => ⟨rfl, h.ended, fun _ => h⟩)) ?_
  rintro _ _ ⟨rfl, hp⟩
  rename_i s
  obtain ⟨h2, h64, hpp, hht, hlt⟩ := precisionOk_bounds hb hp
  generalize hu : beginSession .decode p (maxTotalOperand s) s = u
  have key : ∀ t : State, DecChange u t → t.regs.low = u.regs.low → t.regs.high = u.regs.high → t.regs.code.toNat < 2 ^ p →
      t.build = s.build ∧ t.regs.Ended s.build ∧ Regs.Inv s.build { t.regs with state := .dec } := by
    intro t hd hl hh hc
    have hr : t.regs = { u.regs with
        code := t.regs.code, exhausted := t.regs.exhausted, padcnt := t.regs.padcnt, bitcnt := t.regs.bitcnt } := by
      rw [hd.regs, hl, hh]
    have hpad : t.regs.exhausted = false → t.regs.padcnt = 0 := hd.pad (by rw [← hu]; exact fun _ => rfl)
    have hb' : t.build = s.build := hd.outside.build.trans (by rw [← hu]; rfl)
    have hur : u.regs = (beginSession .decode p (maxTotalOperand s) s).regs := by rw [hu]
    rw [hur, beginSession_regs] at hr
    have he : t.regs.Ended s.build := by
      rw [hr]
      exact {
        low := by positivity
        high := by simp only [hpp, hht]; exact hlt
        code := by simp only [hpp]; exact hc
        pending := Nat.zero_le _
        encode := fun k => by cases k
        decode := fun _ => rfl
        pad := hpad }
    refine ⟨hb', he, ?_⟩
    rw [hr] at he ⊢
    exact { he with
      operands := fun _ => by simp only [hpp]; exact hp
      interval := fun _ => by simp only [hpp, hht]; exact whole_settled h2
      encKind := fun k => by cases k
      decKind := fun _ => rfl
      inside := fun _ => ⟨Nat.zero_le _, by simp only [hht, top]; omega⟩
      idle := fun k => by cases k }
  refine Flow.Holds.andThen ((fillCode_holds p (p := p) (by omega) (Nat.le_refl _) (s := u)
    (by rw [← hu]; simp)).mono (fun _ _ k => k) (fun e t k => ?_)) (fun _ t k => ?_)
  · obtain ⟨k1, k2, -⟩ := key t k.2.1 k.2.2.1 k.2.2.2.1 k.2.2.2.2
    obtain ⟨rfl, -⟩ := k
    exact ⟨k1, k2, fun k => by cases k⟩
  · obtain ⟨k1, -, k3⟩ := key t k.1 k.2.1 k.2.2.1 k.2.2.2
    exact ⟨k1, k3⟩

theorem decode_keeps {s : State} (hb : s.build.wf = true) (h : s.regs.Inv s.build) : Keeps s.build (decodeBody s) := by
  unfold decodeBody
  refine Flow.Holds.andThen (G := fun _ t => t = s ∧ s.regs.state = .dec)
    (require_holds (fun k => ⟨rfl, by simpa using k⟩) (fun _ => ⟨rfl, h.ended, fun _ => h⟩)) ?_
  rintro _ _ ⟨rfl, he⟩
  rename_i s
  have hl : s.regs.state.live = true := by rw [he]; rfl
  have hkd := h.decKind he
  obtain ⟨h2, h64, -, hq⟩ := h.bounds hb hl
  have hset := h.interval hl
  have hin := h.inside he
  have hwi := h.within hl
  split
  · refine ⟨rfl, ?_⟩
    exact (h.ended.decoded hkd ⟨h.low, h.high⟩ h.code h.pad).inv (.inl rfl)
  · unfold askTotal
    cases s.ports.total with
    | nil => trivial
    | cons t rest =>
      simp only [andThen_go]
      generalize hu : record _ _ = u
      have hur : u.regs = s.regs := by rw [← hu]; rfl
      have hub : u.build = s.build := by rw [← hu]; rfl
      have hup : u.precision = s.regs.prec.toNat := by rw [← hu]; rfl
      have hui : u.interval = { lo := s.regs.low.toNat, hi := s.regs.high.toNat } := by rw [← hu]; rfl
      refine Flow.Holds.andThen (G := fun _ v => v = u ∧ totalValid t s.regs.maxtot = true)
        (require_holds (fun k => ⟨rfl, by rwa [hur] at k⟩) (fun _ => ⟨hub, by rw [hur]; exact h.ended, fun k => by cases k⟩)) ?_
      rintro _ _ ⟨rfl, hv⟩
      rename_i u
      simp only [totalValid, Bool.and_eq_true, decide_eq_true_eq] at hv
      have hvo : value t u = .go (BitVec.ofNat 64 (u.interval.value s.regs.code.toNat t.toNat)) u := by
        unfold value
        rw [if_pos (by rw [hur, hup]; exact ⟨hin.1, hin.2, hwi.2⟩), hur]
      rw [hvo, andThen_go]
      generalize hvv : BitVec.ofNat 64 (u.interval.value s.regs.code.toNat t.toNat) = v
      have hval : v.toNat = u.interval.value s.regs.code.toNat t.toNat := by
        have := value_lt (x := u.interval) (code := s.regs.code.toNat) (by rw [hui]; exact hin.1) (by rw [hui]; exact hin.2) hv.1
        rw [← hvv, BitVec.toNat_ofNat, Nat.mod_eq_of_lt (by have := t.isLt; omega)]
      unfold askSymbol
      cases u.ports.symbol with
      | nil => trivial
      | cons a as =>
        simp only [andThen_go]
        generalize hw : record _ _ = w
        have hwr : w.regs = s.regs := by rw [← hw]; exact hur
        have hwb : w.build = s.build := by rw [← hw]; exact hub
        have hwp : w.precision = s.regs.prec.toNat := by rw [← hw]; exact hup
        have hwi' : w.interval = u.interval := by rw [← hw]; rfl
        unfold resolveSymbol
        refine Flow.Holds.andThen (G := fun _ v' => v' = w ∧ symbolValid a v t = true)
          (require_holds (fun k => ⟨rfl, k⟩) (fun _ => ⟨hwb, by rw [hwr]; exact h.ended, fun k => by cases k⟩)) ?_
        rintro _ _ ⟨rfl, hy⟩
        rename_i w
        simp only [symbolValid, Bool.and_eq_true, decide_eq_true_eq] at hy
        obtain ⟨hn, hnw⟩ := narrow_ok (s := w) (cl := a.cl) (ch := a.ch) (t := t) (by omega)
          (by rw [hwi', hui, hwp]; exact hset) (by omega) hy.2 (by rw [hwp]; omega)
        rw [hn, andThen_go]
        have hcode := narrow_holds_code (x := u.interval) (code := s.regs.code.toNat) (cl := a.cl.toNat) (ch := a.ch.toNat)
          (t := t.toNat) (by rw [hui]; exact hin.1) hv.1 (by omega) (by omega)
        generalize hz : setInterval _ w = z
        have hzp : z.precision = s.regs.prec.toNat := by rw [← hz]; exact hwp
        have hzi : z.interval = u.interval.narrow a.cl.toNat a.ch.toNat t.toNat := by
          have := within_lt (by omega) (by omega) hnw
          rw [← hz, interval_setInterval _ this.1 this.2, hwi']
        have hzb : z.build = s.build := by rw [← hz]; exact hwb
        have hzr : z.regs = { s.regs with low := z.regs.low, high := z.regs.high } := by rw [← hz, setInterval_regs, hwr]
        have hzc : codeInside z := by
          refine ⟨by rw [hzi, hzp, ← hwp, ← hwi']; exact hnw, ?_, ?_⟩
          · rw [hzi, hzr]; exact hcode.1
          · rw [hzi, hzr]; exact hcode.2
        have key : ∀ x : State, DecChange z x → x.build = s.build ∧ x.precision = s.regs.prec.toNat ∧
            (x.regs.exhausted = false → x.regs.padcnt = 0) ∧ x.regs = { s.regs with
              low := x.regs.low, high := x.regs.high, code := x.regs.code, exhausted := x.regs.exhausted
              padcnt := x.regs.padcnt, bitcnt := x.regs.bitcnt } := by
          intro x hx
          refine ⟨hx.outside.build.trans hzb, hx.precision.trans hzp, hx.pad (by rw [hzr]; exact h.pad), ?_⟩
          rw [hx.regs, hzr]
        refine Flow.Holds.andThen ((renormDec_holds z.precision (by omega) (by omega) hzc (fuelEnough_precision z)).mono
          (fun _ _ k => k) (fun e x k => ?_)) (fun _ x k => ?_)
        · obtain ⟨k1, k2, k3, k4⟩ := key x k.2.1
          obtain ⟨rfl, -, kw, kc⟩ := k
          rw [k2] at kw kc
          refine ⟨k1, ?_, fun k => by cases k⟩
          rw [k4]
          exact h.ended.decoded hkd (within_pow (by omega) kw) kc k3
        · obtain ⟨k1, k2, k3, k4⟩ := key x k.1
          obtain ⟨-, ⟨kw, kl, kh⟩, kr⟩ := k
          rw [k2] at kw
          have hpow := within_pow (by omega) kw
          have hr : (setResult a.symbol (countSymbol x)).regs = { s.regs with
              low := x.regs.low, high := x.regs.high, code := x.regs.code, exhausted := x.regs.exhausted
              padcnt := x.regs.padcnt, bitcnt := x.regs.bitcnt, symcnt := x.regs.symcnt + 1, result := a.symbol } := by
            show ({ x.regs with symcnt := x.regs.symcnt + 1, result := a.symbol } : Regs) = _
            rw [k4]
          have hst : Interval.settled s.regs.prec.toNat x.interval = true :=
            settled_of_none (by omega) kw (by simpa [State.regime, k2] using kr)
          split
          · refine ⟨k1, ?_⟩
            rw [setState_regs, hr]
            exact (h.ended.decoded hkd hpow (Nat.lt_of_le_of_lt kh hpow.2) k3).inv (.inl rfl)
          · refine ⟨k1, ?_⟩
            rw [hr]
            exact h.decoded he hpow hst ⟨kl, kh⟩ k3

theorem clearSession_inv (s : State) (b : Build) : (clearSession s).regs.Inv b := by
  exact {
    low := by positivity
    high := by positivity
    code := by positivity
    pending := Nat.zero_le _
    operands := fun k => by cases k
    interval := fun k => by cases k
    encKind := fun k => by cases k
    decKind := fun k => by cases k
    encode := fun _ => ⟨rfl, rfl⟩
    decode := fun k => by cases k
    inside := fun k => by cases k
    idle := fun _ => by simp [clearSession, Regs.cleared, Regs.reset]
    pad := fun _ => rfl }

/-- A command whose body keeps the invariant keeps the state's. -/
theorem Keeps.next {body : State → Flow Ending} {s t : State} (hs : s.Inv) (h : Keeps s.build (body (fresh s)))
    (hn : runCommand body s = .next t) : t.Inv := by
  rcases runCommand_next hn with ⟨x, u, hb, rfl⟩ | ⟨e, u, hb, rfl⟩ | ⟨q, u, hb, rfl⟩
  · unfold Keeps at h
    rw [hb] at h
    obtain ⟨h1, h2⟩ := h
    exact ⟨by rw [complete_build, h1]; exact hs.build, by rw [complete_build, h1]; exact h2.ending _ _, fun _ => ⟨rfl, rfl⟩⟩
  · unfold Keeps at h
    rw [hb] at h
    obtain ⟨h1, h2, h3⟩ := h
    have hbd : (raise e u).build = u.build := by unfold raise failIfFatal; split <;> rfl
    refine ⟨by rw [hbd, h1]; exact hs.build, by rw [hbd]; exact raise_inv (by rw [h1]; exact h2) (by rw [h1]; exact h3), fun _ => ⟨rfl, rfl⟩⟩
  · exact ⟨hs.build, hs.regs, fun k => by cases k⟩

/-- A command whose body keeps the invariant answers a next state. -/
theorem Keeps.answers {b : Build} {body : State → Flow Ending} {s : State} (h : Keeps b (body (fresh s))) :
    ∃ t, runCommand body s = .next t := by
  unfold runCommand
  unfold Keeps at h
  cases hb : body (fresh s) with
  | go x t => exact ⟨_, rfl⟩
  | raised e t => exact ⟨_, rfl⟩
  | stalled q t => exact ⟨_, rfl⟩
  | fault f => rw [hb] at h; exact h.elim

end Sys2Proof.Machine
end

