-- ==== Sys2Proof/Laws/PerInstr.lean ====
section
/-! SUPPORT. Statements made of every command as syntax, one lemma a constructor. -/

namespace Sys2Proof.Laws.Encoding

/-- The word of a well-formed command fits the command's row of the table of word patterns (30_encoding.md R125). -/
def Statement (i : Instr) : Prop := i.wf = true → i.row.fits (encode i) = true

/-- A format S word under the rows' mask: the OP value alone (R120). -/
theorem formatS_masked (op : BitVec 8) (p : BitVec 7) :
    formatS op p.toNat &&& 0xFFFFFFFFFFFF80FF#64 = op.zeroExtend 64 := by
  simp only [formatS, BitVec.ofNat_toNat, BitVec.setWidth_eq]
  apply BitVec.eq_of_getLsbD_eq
  intro k hk
  have hm : ∀ j, j < 64 → (0xFFFFFFFFFFFF80FF#64).getLsbD j = (decide (j < 8) || decide (15 ≤ j)) := by decide
  simp only [BitVec.getLsbD_and, BitVec.getLsbD_append, hm k hk, BitVec.getLsbD_setWidth, BitVec.getLsbD_zero]
  by_cases h8 : k < 8
  · simp [h8, hk]
  · by_cases h15 : 15 ≤ k
    · simp [h8, h15, hk, show ¬ k - 8 < 7 by omega, BitVec.getLsbD_of_ge op k (by omega)]
    · simp [h8, h15, BitVec.getLsbD_of_ge op k (by omega)]

theorem encStart (prec : Nat) : Statement (.encStart prec) := by
  intro h
  simp only [Instr.wf, decide_eq_true_eq] at h
  obtain ⟨p, rfl⟩ : ∃ p : BitVec 7, prec = p.toNat :=
    ⟨BitVec.ofNat 7 prec, by rw [BitVec.toNat_ofNat, Nat.mod_eq_of_lt h]⟩
  show decide (formatS 0x01#8 p.toNat &&& 0xFFFFFFFFFFFF80FF#64 = 0x01#64) = true
  rw [decide_eq_true_eq, formatS_masked]
  decide

theorem encode : Statement .encode := fun _ => by decide

theorem finish : Statement .finish := fun _ => by decide

theorem decStart (prec : Nat) : Statement (.decStart prec) := by
  intro h
  simp only [Instr.wf, decide_eq_true_eq] at h
  obtain ⟨p, rfl⟩ : ∃ p : BitVec 7, prec = p.toNat :=
    ⟨BitVec.ofNat 7 prec, by rw [BitVec.toNat_ofNat, Nat.mod_eq_of_lt h]⟩
  show decide (formatS 0x11#8 p.toNat &&& 0xFFFFFFFFFFFF80FF#64 = 0x11#64) = true
  rw [decide_eq_true_eq, formatS_masked]
  decide

theorem decode : Statement .decode := fun _ => by decide

theorem abort : Statement .abort := fun _ => by decide

end Sys2Proof.Laws.Encoding
end

