-- ==== Sys2Proof/Laws/Results.lean ====
section
/-! SUPPORT. The command bodies up to their first renormalization, when the answers at hand pass the checks
(42_encoder.md R205; 43_decoder.md R230, R235). -/

namespace Sys2Proof.Machine

/-- ENCODE with a FREQ_OK answer that passes the checks of R156, up to NARROW. -/
theorem encodeBody_ok {s : State} {cl ch t : Word} {fs : List FreqAnswer} (he : s.regs.state = .enc)
    (hf : s.ports.freq = .freqOk cl ch t :: fs) (hv : freqOkValid cl ch t s.regs.maxtot = true) :
    ∃ u, u = record (.freq s.argL (.freqOk cl ch t)) { s with ports := { s.ports with freq := fs } } ∧
      encodeBody s = (narrow cl ch t u).andThen fun _ s => (renormEnc s.precision s).andThen fun _ s =>
        .go .normal (countSymbol s) := by
  refine ⟨_, rfl, ?_⟩
  unfold encodeBody
  rw [show decide (s.regs.state = .enc) = true by simp [he], require_true, andThen_go]
  simp only [askFreq, hf, andThen_go, symbolOperand]
  generalize hu : record _ _ = u
  have hr : u.regs = s.regs := by rw [← hu]; rfl
  rw [hr, hv, require_true, andThen_go]

/-- FINISH with PENDING below its limit, from its increment of PENDING on (R215). -/
theorem finishBody_ok {s : State} (he : s.regs.state = .enc) (hp : s.regs.pending.toNat ≠ pendingLimit s.build) :
    ∃ u, u = setPending (s.regs.pending + 1) s ∧
      finishBody s = (emit (terminationBit s) (s.regs.pending + 1).toNat u).andThen fun _ s =>
        (sinkFlush (setPending 0 s)).andThen fun _ s => .go .normal (setState .done s) := by
  refine ⟨_, rfl, ?_⟩
  unfold finishBody
  rw [show decide (s.regs.state = .enc) = true by simp [he], require_true, andThen_go]
  rw [show (!decide (s.regs.pending.toNat = pendingLimit s.build)) = true by simp [hp], require_true, andThen_go]
  rfl

/-- DEC_START with legal operands, from its fill on (R230). -/
theorem decStartBody_ok {s : State} {p : Nat} (hl : s.regs.state.live = false) (hp : precisionOk s.build p s.argL = true) :
    ∃ u, u = beginSession .decode p s.argL s ∧
      decStartBody p s = (fillCode p u).andThen fun _ s => .go .normal (setState .dec s) := by
  refine ⟨_, rfl, ?_⟩
  unfold decStartBody
  rw [hl, Bool.not_false, require_true, andThen_go, show maxTotalOperand s = s.argL from rfl, hp, require_true, andThen_go]
  rfl

/-- DECODE with a TOTAL answer that passes its check and a stream that is not used up, up to its SYMBOL request (R235). -/
theorem decodeBody_total {s : State} {t : Word} {ts : List Word} (he : s.regs.state = .dec) (hu : streamUsedUp s = false)
    (ht : s.ports.total = t :: ts) (hv : totalValid t s.regs.maxtot = true)
    (hc : s.regs.low.toNat ≤ s.regs.code.toNat ∧ s.regs.code.toNat ≤ s.regs.high.toNat ∧
      s.regs.high.toNat ≤ top s.precision) :
    ∃ u, u = record (.total t) { s with ports := { s.ports with total := ts } } ∧
      decodeBody s = (askSymbol (BitVec.ofNat 64 (s.interval.value s.regs.code.toNat t.toNat)) t u).andThen fun a v =>
        resolveSymbol a (BitVec.ofNat 64 (s.interval.value s.regs.code.toNat t.toNat)) t v := by
  refine ⟨_, rfl, ?_⟩
  unfold decodeBody
  rw [show decide (s.regs.state = .dec) = true by simp [he], require_true, andThen_go, hu]
  simp only [Bool.false_eq_true, if_false, askTotal, ht, andThen_go]
  generalize hw : record _ _ = w
  have hr : w.regs = s.regs := by rw [← hw]; rfl
  have hi : w.interval = s.interval := by rw [← hw]; rfl
  have hp : w.precision = s.precision := by rw [← hw]; rfl
  rw [hr, hv, require_true, andThen_go]
  unfold value
  rw [hr, hp, if_pos hc, andThen_go, hi]

/-- DECODE from an answer that passes the checks of R157 on, up to NARROW. -/
theorem resolveSymbol_ok {s : State} {a : SymbolAnswer} {v t : Word} (hv : symbolValid a v t = true) :
    resolveSymbol a v t s = (narrow a.cl a.ch t s).andThen fun _ s => (renormDec s.precision s).andThen fun _ s =>
      if a.eos then .go .endOfStream (setState .done (setResult a.symbol (countSymbol s)))
      else .go .normal (setResult a.symbol (countSymbol s)) := by
  unfold resolveSymbol
  rw [hv, require_true, andThen_go]

end Sys2Proof.Machine
end

