-- ==== Sys2Proof/Tests/Slice0.lean ====
section
/-! SUPPORT. The model's own tests. Expected results come from spec/95_test_vectors.md and the rules named, never from the
model. The witness theorems show a state and operands that meet the hypotheses of the obligation they name. -/

namespace Sys2Proof.Tests

open Sys2Proof.Machine

/-! ## Well-formedness and encodings -/

theorem smoke_encStart_prec_refused : (Instr.encStart 128).wf = false := by decide
theorem smoke_decStart_prec_refused : (Instr.decStart 200).wf = false := by decide
theorem smoke_prec_admitted : (Instr.encStart 127).wf = true ∧ (Instr.decStart 0).wf = true := by decide

/-- Bits written out from R120: RSV 63:15, PREC 14:8, OP 7:0. -/
theorem test_decode_encStart : decode (0b0000000000000000000000000000000000000000000000000_0001000_00000001#64) = .ok (.encStart 8) := by
  decide
theorem test_decode_encode : decode (0b00000000000000000000000000000000000000000000000000000000_00000010#64) = .ok .encode := by decide
theorem test_decode_finish : decode (0b00000000000000000000000000000000000000000000000000000000_00000011#64) = .ok .finish := by decide
theorem test_decode_decStart : decode (0b0000000000000000000000000000000000000000000000000_1000000_00010001#64) = .ok (.decStart 64) := by
  decide
theorem test_decode_decode : decode (0b00000000000000000000000000000000000000000000000000000000_00010010#64) = .ok .decode := by decide
theorem test_decode_abort : decode (0b00000000000000000000000000000000000000000000000000000000_00100000#64) = .ok .abort := by decide

/-- V-H1 and the last row of V-E1. -/
theorem test_illegal_words :
    decode 0x0000000000000000#64 = .error (.unassignedOpcode 0x00) ∧
    decode 0x0000000000000004#64 = .error (.unassignedOpcode 0x04) ∧
    decode 0x0000000000000102#64 = .error (.reservedBits 0x02) ∧
    decode 0x8000000000000012#64 = .error (.reservedBits 0x12) ∧
    decode 0x00000000000000FF#64 = .error (.unassignedOpcode 0xFF) ∧
    decode 0x0000000000008801#64 = .error (.reservedBits 0x01) := by decide

/-- V-H4. -/
theorem test_caps : readOffset State.reset 0x00 = 0x0000000000012040#64 := by decide

/-- R60: STATUS at reset. -/
theorem test_reset_status : readOffset State.reset 0x18 = 0 := by decide

/-! ## Commands, one step each -/

/-- What a check finds in the next state; false where there is none. -/
def after (o : Host.Outcome State Fault Refusal) (check : State → Bool) : Bool :=
  match o with
  | .next t => check t
  | .fault _ => false
  | .refused _ => false

/-- The STATUS word of a state between commands. -/
def statusOf (s : State) : Word := statusWord s.regs s.busy s.regs.exhausted

/-- IDLE with an operand latched. -/
def idleWith (arg : Word) : State := { State.reset with argL := arg }

/-- The registers of a live encode session at P = 8, M = 4 over the whole interval. -/
def encRegs : Regs := { Regs.reset with state := .enc, prec := 8, maxtot := 4, high := 255 }

/-- The registers of a live decode session at P = 8, M = 4 over the whole interval, CODE = 0x1C after eight bits. -/
def decRegs : Regs :=
  { Regs.reset with state := .dec, kind := .decode, prec := 8, maxtot := 4, high := 255, code := 0x1C, bitcnt := 8 }

/-- A live encode session with ENCODE in progress and its coming answers. -/
def encSession (freq : List FreqAnswer) (sink : List SinkAnswer) : State :=
  { State.reset with
    busy := true, cmd := 0x02#64, argL := 7
    regs := encRegs
    ports := { Ports.none with freq := freq, sink := sink } }

/-- A live decode session with DECODE in progress and its coming answers. -/
def decSession (total : List Word) (symbol : List SymbolAnswer) (source : List SourceAnswer) : State :=
  { State.reset with
    busy := true, cmd := 0x12#64
    regs := decRegs
    ports := { Ports.none with total := total, symbol := symbol, source := source } }

/-- A decode session whose stream is used up (V-D2). -/
def usedUpSession : State :=
  { decSession [] [] [] with
    regs := { decRegs with exhausted := true, padcnt := 8 } }

/-- V-E1: P = 64, M = 2^62. -/
theorem test_encStart_largest :
    after (exec (.encStart 64) (idleWith 0x4000000000000000#64)) (fun t => statusOf t = 0x00400001#64 ∧ t.regs.low = 0 ∧
      t.regs.high = 0xFFFFFFFFFFFFFFFF#64 ∧ t.regs.maxtot = 0x4000000000000000#64) = true := by decide

/-- V-E1: P = 8, M = 65 is PRECISION. -/
theorem test_encStart_precision :
    after (exec (.encStart 8) (idleWith 65)) (fun t => statusOf t = 0x00000300#64 ∧ t.regs.maxtot = 0) = true := by decide

/-- V-L1, encode B: two steps, bits 01. -/
theorem test_encode_two_steps :
    after (exec .encode (encSession [.freqOk 1 2 4] [.ok, .ok])) (fun t => t.sinkBits = [false, true] ∧ t.regs.low = 0 ∧
      t.regs.high = 255 ∧ t.regs.bitcnt = 2 ∧ t.regs.symcnt = 1) = true := by decide

/-- V-E7: the sink's ERROR at the second WRITE_BIT. -/
theorem test_encode_sink_error :
    after (exec .encode (encSession [.freqOk 0 1 4] [.ok, .error])) (fun t => statusOf t = 0x00080604#64 ∧ t.regs.low = 0 ∧
      t.regs.high = 127 ∧ t.regs.bitcnt = 1 ∧ t.regs.symcnt = 0) = true := by decide

/-- V-E8: finish right after enc_start writes 01. -/
theorem test_finish_writes_01 :
    after (exec .finish (encSession [] [.ok, .ok, .ok])) (fun t => statusOf t = 0x00080003#64 ∧
      t.sinkBits = [false, true] ∧ t.sinkFlushes = 1 ∧ t.regs.bitcnt = 2) = true := by decide

/-- V-E6, second case: PENDING at its limit (PEND_W = 1) fails before any bit. -/
theorem test_finish_pending_overflow :
    after (exec .finish { encSession [] [.ok] with
      build := { Build.reference with pendW := 1 }
      regs := { encRegs with pending := 1 } })
      (fun t => statusOf t = 0x00080704#64 ∧ t.sinkBits = [] ∧ t.ports.sink = [.ok]) = true := by decide

/-- V-D1, third row: the source 01 and END. -/
theorem test_decStart_short_stream :
    after (exec (.decStart 8) { idleWith 4 with ports := { Ports.none with source := [.bit false, .bit true, .endOfInput] } })
      (fun t => statusOf t = 0x000800A2#64 ∧ t.regs.code = 0x40 ∧ t.regs.bitcnt = 2 ∧ t.regs.padcnt = 6) = true := by decide

/-- V-D5: the source's ERROR at the third READ_BIT. -/
theorem test_decStart_source_error :
    after (exec (.decStart 8) { idleWith 4 with ports := { Ports.none with source := [.bit false, .bit true, .error] } })
      (fun t => statusOf t = 0x00080624#64 ∧ t.regs.code = 1 ∧ t.regs.low = 0 ∧ t.regs.high = 255 ∧ t.regs.bitcnt = 2 ∧
        t.regs.padcnt = 0) = true := by decide

/-- V-L1d, DECODE 1: v = 0, two E1 steps, CODE 113. -/
theorem test_decode_first_symbol :
    after (exec .decode (decSession [4] [⟨0, 0, 1, false⟩] [.bit false, .bit true])) (fun t => statusOf t = 0x00080022#64 ∧
      t.regs.code = 113 ∧ t.regs.bitcnt = 10 ∧ t.regs.result = 0 ∧ t.regs.symcnt = 1 ∧
      decide (.symbol 0 4 ⟨0, 0, 1, false⟩ ∈ t.trace)) = true := by decide

/-- V-D2, DECODE 7: END by exhaustion, with no model request. -/
theorem test_decode_exhaustion :
    after (exec .decode usedUpSession) (fun t => statusOf t = 0x000800B3#64 ∧ t.regs.result = 0 ∧ t.trace = []) = true := by
  decide

/-- V-H2: ABORT from ENC. -/
theorem test_abort :
    after (exec .abort (encSession [] [])) (fun t => statusOf t = 0 ∧ t.regs.high = 0 ∧ t.regs.maxtot = 0 ∧
      t.sinkFlushes = 0) = true := by decide

/-- V-H1, in a live session. -/
theorem test_illegal_in_session :
    after (step { encSession [] [] with cmd := 0x0000000000000102#64, inputs := [.block] })
      (fun t => statusOf t = 0x00080101#64 ∧ t.regs.high = 255) = true := by decide

/-! ## Engine, adaptors, host language, packing -/

/-- V-N3, V-N5. -/
theorem test_narrow :
    Interval.narrow ⟨102, 255⟩ 0 2 5 = ⟨102, 162⟩ ∧
    Interval.narrow ⟨0, 2 ^ 64 - 1⟩ (2 ^ 62 - 1) (2 ^ 62) (2 ^ 62) = ⟨0xFFFFFFFFFFFFFFFC, 0xFFFFFFFFFFFFFFFF⟩ := by decide

/-- V-V6, V-V7, V-V8. -/
theorem test_value :
    Interval.value ⟨64, 191⟩ 105 3 = 0 ∧ Interval.value ⟨64, 191⟩ 106 3 = 1 ∧ Interval.value ⟨64, 191⟩ 191 3 = 2 := by decide

/-- V-K1 to V-K9. -/
theorem test_classify :
    [(0, 127), (0, 128), (128, 255), (127, 255), (64, 191), (64, 192), (63, 191), (64, 127), (128, 191)].map
      (fun x => classify 8 ⟨x.1, x.2⟩) =
    [some .e1, none, some .e2, none, some .e3, none, none, some .e1, some .e2] := by decide

/-- V-K5, V-K9. -/
theorem test_transform :
    Regime.transform 8 .e3 ⟨64, 191⟩ = ⟨0, 255⟩ ∧ Regime.transform 8 .e2 ⟨128, 191⟩ = ⟨0, 127⟩ ∧
    Regime.shiftCode 8 .e3 100 true = 73 := by decide

/-- V-S3. -/
theorem test_packing :
    packBits [false, false, false, true, true, true, false, false, false, true] = [0x1C#8, 0x40#8] := by decide

/-- R129, R130: what the assembler refuses. -/
theorem test_assembler_refusals :
    assemble [.halt, .wr .arg0 (2 ^ 64)] = .error ⟨1, .immTooLarge⟩ ∧
    assemble [.encStart 128 4] = .error ⟨0, .precTooLarge⟩ ∧
    assemble [.label 1, .label 1] = .error ⟨0, .labelDefinedTwice⟩ ∧
    assemble [.jmp 9] = .error ⟨0, .labelUndefined⟩ := by decide

/-- R135, R136: check_ok and the decode_all idiom. -/
theorem test_decode_all :
    assemble (decodeAll 0 1 2 ++ [.label 2, .halt]) =
      .ok [.wr .cmd 0x12#64, .rd .status, .jbs 3 1, .jbs 4 9, .jbs 8 9, .jbs 9 9, .jbs 10 9, .rd .result, .jmp 0, .halt] := by
  decide

/-- R86: byte lane 2 of a register. -/
theorem test_byteLane : byteLane 2 0x1122334455667788#64 = 0x66#8 := by decide

/-! ## Witnesses: the invariant -/

theorem encRegs_inv : encRegs.Inv Build.reference := by constructor <;> decide

theorem decRegs_inv : decRegs.Inv Build.reference := by constructor <;> decide

theorem encSession_inv (f : List FreqAnswer) (k : List SinkAnswer) : (encSession f k).Inv :=
  ⟨show Build.reference.wf = true by decide, encRegs_inv, fun h => by cases h⟩

theorem decSession_inv (t : List Word) (y : List SymbolAnswer) (k : List SourceAnswer) : (decSession t y k).Inv :=
  ⟨show Build.reference.wf = true by decide, decRegs_inv, fun h => by cases h⟩

/-- The encode session between commands. -/
def quietSession : State := { encSession [] [] with busy := false }

theorem witness_WindowReadsBetweenCommands : quietSession.Inv ∧ quietSession.busy = false :=
  ⟨⟨by decide, by constructor <;> decide, fun _ => ⟨rfl, rfl⟩⟩, rfl⟩

theorem witness_EveryStepKeepsTheInvariant : (encSession [.unknown] []).Inv ∧ ∃ t, step (encSession [.unknown] []) = .next t :=
  ⟨encSession_inv _ _, _, rfl⟩

theorem witness_CommandsNeverFault : (decSession [] [] []).Inv := decSession_inv _ _ _

/-! ## Witnesses: command words and steps -/

theorem witness_DecodingUndoesEncoding : (Instr.encStart 127).wf = true ∧ (Instr.decStart 0).wf = true := by decide

theorem witness_DecodedWordIsTheCommandsWord : decode 0x0000000000007F01#64 = .ok (.encStart 127) := by decide

theorem witness_StepRunsTheLatchedCommand :
    (encSession [] []).busy = true ∧ decode (encSession [] []).cmd = .ok .encode ∧ (encSession [] []).inputs = [] ∧
    ({ encSession [] [] with inputs := [.block] } : State).inputs = .block :: [] := by decide

theorem witness_StepRunsAFetchedWord : decodeTableWord 64 0x801 = some (.encStart 8) := by decide

theorem witness_IllegalWordCompletesWithIllegalCmd :
    let s : State := { encSession [] [] with cmd := 0x102#64, inputs := [.block] }
    s.busy = true ∧ decode s.cmd = .error (.reservedBits 0x02#8) ∧ s.inputs = .block :: [] ∧
    { s with inputs := [] }.inputs = [] := by decide

theorem witness_CmdWriteStartsACommand :
    State.reset.busy = false ∧ State.reset.live = [] ∧ State.reset.outstanding = none := by decide

theorem witness_CmdWriteWhileBusyIsDropped : (encSession [] []).busy = true := by decide

theorem witness_OtherHostWritesChangeOnlyArg0 :
    0x78 ≠ WinReg.cmd.offset ∧ 0x78 ≠ WinReg.arg0.offset ∧ 0x00 ≠ WinReg.cmd.offset ∧ 0x00 ≠ WinReg.arg0.offset := by decide

/-- The next input is an aligned 8-byte write at an offset of the window. -/
def accessWriting (offset : Nat) (v : Word) (s : State) : State :=
  { s with inputs := [.access { addr := s.build.windowBase + offset, bytes := 8, write := some v }] }

/-- The host is about to execute line `i`. -/
def hostAt (i : HostInstr) (s : State) : State :=
  { s with inputs := [.host], host := { prog := [i], pc := 0, acc := 0, halted := false } }

/-- The host is about to execute `wr reg, v`. -/
def hostWriting (reg : WinReg) (v : Word) (s : State) : State := hostAt (.wr reg v) s

/-- A host with no input left and no command in progress. -/
def hostAlone (s : State) : State := { s with inputs := [], busy := false }

/-- The host's move, named by an input and with no input left. -/
theorem witness_hostMoves (i : HostInstr) (s : State) :
    (∃ u, (hostAt i s).hostMoves u) ∧ (∃ u, (hostAlone (hostAt i s)).hostMoves u) ∧ (hostAt i s).hostRuns i ∧
    (hostAlone (hostAt i s)).hostRuns i :=
  ⟨⟨_, .inl ⟨[], rfl, rfl⟩⟩, ⟨_, .inr ⟨rfl, rfl, rfl⟩⟩, ⟨rfl, rfl⟩, rfl, rfl⟩

/-- The writes of the three statements, in each form, at every aligned offset of the window and for every register. -/
theorem witness_hostWrites (s : State) (v : Word) :
    (∀ k, k < 16 → ∃ t, (accessWriting (8 * k) v s).hostWrites (8 * k) v t) ∧
    ∀ reg : WinReg, (∃ t, (hostWriting reg v s).hostWrites reg.offset v t) ∧
      ∃ t, (hostAlone (hostWriting reg v s)).hostWrites reg.offset v t :=
  ⟨fun k hk => ⟨_, .inl ⟨_, [], rfl, rfl, by unfold windowBytes; omega, by omega, rfl, rfl, rfl⟩⟩,
    fun reg => ⟨⟨_, .inr ⟨_, reg, .inl ⟨[], rfl, rfl⟩, ⟨rfl, rfl⟩, rfl, rfl⟩⟩,
      ⟨_, .inr ⟨_, reg, .inr ⟨rfl, rfl, rfl⟩, ⟨rfl, rfl⟩, rfl, rfl⟩⟩⟩⟩

theorem witness_UnsupportedAccessIsABusError :
    let a : Access := { addr := 127, bytes := 8, write := none }
    let b : Access := { addr := 0, bytes := 4, write := some 1 }
    (a.addr = State.reset.build.windowBase + 127 ∧ 127 < 128 ∧ 127 % 8 ≠ 0) ∧
    (b.addr = State.reset.build.windowBase + 0 ∧ 0 < 128 ∧ b.bytes ≠ 8) ∧
    ({ State.reset with inputs := [.access a] } : State).inputs = .access a :: [] := by decide

theorem witness_ReadsHaveNoSideEffects :
    let a : Access := { addr := 0x78, bytes := 8, write := none }
    ({ State.reset with inputs := [.access a] } : State).inputs = .access a :: [] ∧
    a.addr = State.reset.build.windowBase + 0x78 ∧ 0x78 < 128 ∧ 0x78 % 8 = 0 ∧ a.bytes = 8 ∧ a.write = none := by decide

/-- An `rd` line of every register. -/
theorem witness_ReadsHaveNoSideEffects_line (reg : WinReg) (s : State) :
    (∃ u, (hostAt (.rd reg) s).hostMoves u) ∧ (hostAt (.rd reg) s).hostRuns (.rd reg) ∧
    (∃ u, (hostAlone (hostAt (.rd reg) s)).hostMoves u) ∧ (hostAlone (hostAt (.rd reg) s)).hostRuns (.rd reg) :=
  have h := witness_hostMoves (.rd reg) s
  ⟨h.1, h.2.2.1, h.2.1, h.2.2.2⟩

/-- EXHAUSTED set while DECODE waits at TOTAL (P = 16, one padding bit in CODE). -/
def waitingExhausted : State :=
  { decSession [] [] [] with regs := { decRegs with prec := 16, high := 65535, exhausted := true, padcnt := 1 } }

theorem witness_ReadsWhileBusy :
    ((encSession [.unknown] []).busy = true ∧ ∃ t, blockStep (encSession [.unknown] []) = .next t ∧ t.busy = false) ∧
    waitingExhausted.busy = true ∧ decode waitingExhausted.cmd = .ok .decode ∧ waitingExhausted.regs.exhausted = true ∧
    (∃ t, blockStep waitingExhausted = .next t ∧ t.busy = true) :=
  ⟨⟨rfl, _, rfl, rfl⟩, rfl, by decide, rfl, _, rfl, rfl⟩

/-- R286, R39: the old and the completion value of EXHAUSTED are both 1. -/
theorem test_exhausted_while_waiting : exhaustedShown waitingExhausted = true := by
  unfold exhaustedShown
  split
  · rfl
  · decide

theorem witness_UnansweredRequestHangs :
    (encSession [] []).busy = true ∧ ∃ t, exec .encode (encSession [] []) = .next t ∧ t.busy = true := ⟨rfl, _, rfl, rfl⟩

theorem witness_UnansweredRequestHangs_freq : (encSession [] []).regs.state = .enc ∧ (encSession [] []).ports.freq = [] := by
  decide

/-- V-L1, encode B, after no bit and after one. -/
theorem witness_UnansweredRequestHangs_encodeBit :
    let s := encSession [.freqOk 1 2 4] []
    let u := encSession [.freqOk 1 2 4] [.ok]
    let bits := encBits s.regs.pending.toNat ([.e1] ++ [.e2])
    s.Inv ∧ u.Inv ∧ s.regs.state = .enc ∧ s.ports.freq = .freqOk 1 2 4 :: [] ∧ (4 : Word).toNat ≤ s.regs.maxtot.toNat ∧
    regimes s.precision s.precision (s.interval.narrow 1 2 4) = [] ++ .e1 :: [.e2] ∧
    regimes s.precision s.precision (s.interval.narrow 1 2 4) = [.e1] ++ .e2 :: [] ∧
    pendingFits (pendingLimit s.build) s.regs.pending.toNat [.e1] = true ∧ bits = [false, true] ∧
    (encBits s.regs.pending.toNat []).length ≤ 0 ∧ (encBits s.regs.pending.toNat [.e1]).length ≤ 1 ∧ 1 < bits.length ∧
    s.ports.sink = List.replicate 0 .ok ∧ u.ports.sink = List.replicate 1 .ok :=
  ⟨encSession_inv _ _, encSession_inv _ _, by decide⟩

/-- On the first bit and at the FLUSH. -/
theorem witness_UnansweredRequestHangs_finish :
    let s := encSession [] []
    let u := encSession [] [.ok, .ok]
    s.regs.state = .enc ∧ s.regs.pending.toNat < pendingLimit s.build ∧ s.build.wf = true ∧
    s.ports.sink = List.replicate 0 .ok ∧ u.ports.sink = List.replicate 2 .ok ∧ 2 ≤ u.regs.pending.toNat + 2 := by decide

/-- Before the first bit and before the last. -/
theorem witness_UnansweredRequestHangs_fill :
    let s : State := { idleWith 1 with ports := { Ports.none with source := [.bit true] } }
    s.regs.state ≠ .enc ∧ s.regs.state ≠ .dec ∧ 2 ≤ s.build.pmax ∧ 1 ≤ s.argL.toNat ∧ s.argL.toNat ≤ 2 ^ (2 - 2) ∧
    [true].length < 2 ∧ s.ports.source = [true].map .bit ∧ (idleWith 1).ports.source = ([] : List Bool).map .bit := by decide

/-- At TOTAL, at SYMBOL and at the second READ_BIT (V-L1d, DECODE 1). -/
theorem witness_UnansweredRequestHangs_decode :
    let a : SymbolAnswer := ⟨0, 0, 1, false⟩
    let s := decSession [4] [a] [.bit false]
    s.Inv ∧ s.regs.state = .dec ∧ s.regs.exhausted = false ∧ (decSession [] [] []).ports.total = [] ∧
    (decSession [4] [] []).ports.total = 4 :: [] ∧ (decSession [4] [] []).ports.symbol = [] ∧ s.ports.total = 4 :: [] ∧
    s.ports.symbol = a :: [] ∧ (4 : Word).toNat ≤ s.regs.maxtot.toNat ∧ s.interval.value s.regs.code.toNat 4 = 0 ∧
    [false].length < (regimes s.precision s.precision (s.interval.narrow 0 1 4)).length ∧
    s.ports.source = [false].map .bit := ⟨decSession_inv _ _ _, by decide⟩

theorem witness_ResetInputSetsEveryRegister :
    ({ encSession [] [] with inputs := [.reset] } : State).inputs = .reset :: [] := by decide

/-- FREQ waits, and its answer comes before the reset. -/
theorem witness_ResetLeavesTheAgents :
    let s : State := { encSession [] [] with
      outstanding := some (.freq 7), inputs := [.answer (.freq .unknown), .reset] }
    s.inputs = .answer (.freq .unknown) :: .reset :: [] ∧ s.outstanding = some (.freq 7) ∧ (s.ports.after s.live).answerTo (.freq 7) = none ∧
    ((s.ports.push (.freq .unknown)).after s.live).answerTo (.freq 7) = some (.freq 7 .unknown) := by decide

/-- A late response to an abandoned request, and one to none. -/
theorem witness_ResetLeavesTheAgents_late :
    let s : State := { State.reset with abandoned := [.flush], inputs := [.late (.flush .ok)] }
    s.inputs = .late (.flush .ok) :: [] ∧ (Transaction.flush .ok).request ∈ s.abandoned ∧
    (Transaction.readBit .error).request ∉ s.abandoned := by decide

/-- R340: the response that came before the reset answers no later command. -/
theorem test_reset_drops_the_response :
    after (exec .encode (encSession [] [])) (fun t =>
      (resetBlock (deliver (.freq .unknown) t)).ports = Ports.none ∧ (resetBlock (deliver (.freq .unknown) t)).abandoned = [] ∧
      (resetBlock t).abandoned = [.freq 7]) = true := by decide

theorem witness_CapsIsConstant :
    (∃ t, step (encSession [] []) = .next t) ∧ Build.wf { Build.reference with pmax := 2, pendW := 1 } = true :=
  ⟨⟨_, rfl⟩, by decide⟩

/-! ## Witnesses: what commands leave alone, and rejections -/

theorem witness_CommandsLeaveHostAndOperandsAlone :
    (∃ t, exec .finish (encSession [] []) = .next t) ∧ Instr.finish ≠ .abort := ⟨⟨_, rfl⟩, by decide⟩

/-- A line that leaves the registers, a dropped CMD write, and an answer. -/
theorem witness_CommandsLeaveHostAndOperandsAlone_steps (s : State) :
    (∃ t, step (hostAt .halt s) = .next t) ∧ (∃ t, step (hostWriting .cmd 0 s) = .next t) ∧
    (hostAt .halt s).inputs = .host :: [] ∧
    (s.busy = true → (hostWriting .cmd 0 s).busy = true ∧ ∃ u, (hostWriting .cmd 0 s).hostWrites WinReg.cmd.offset 0 u) ∧
    ({ s with inputs := [.answer (.source .endOfInput)] } : State).inputs = .answer (.source .endOfInput) :: [] :=
  ⟨⟨_, rfl⟩, ⟨_, rfl⟩, rfl, fun h => ⟨h, ((witness_hostWrites s 0).2 .cmd).1⟩, rfl⟩

/-- A move of the block between commands (R325), and an answer that is the response to the outstanding request. -/
theorem witness_CommandsLeaveHostAndOperandsAlone_block :
    let q : State := { quietSession with inputs := [.block] }
    let s : State := { encSession [] [] with outstanding := some (.freq 7), inputs := [.answer (.freq .unknown)] }
    q.inputs = .block :: [] ∧ q.busy = false ∧ s.inputs = .answer (.freq .unknown) :: [] ∧
    s.outstanding.bind ((s.ports.push (.freq .unknown)).after s.live).answerTo = some (.freq 7 .unknown) := by decide

theorem witness_CommandsUseOnlyTheirPorts :
    (∃ t, exec .finish (encSession [.unknown] []) = .next t) ∧ (∃ t, exec (.decStart 8) (idleWith 4) = .next t) ∧
    (∃ t, exec .encode (encSession [] []) = .next t) ∧ (∃ t, exec .decode usedUpSession = .next t) ∧
    (∃ t, exec .abort State.reset = .next t) ∧ (∃ t, exec (.encStart 2) State.reset = .next t) :=
  ⟨⟨_, rfl⟩, ⟨_, rfl⟩, ⟨_, rfl⟩, ⟨_, rfl⟩, ⟨_, rfl⟩, ⟨_, rfl⟩⟩

theorem witness_ErrorsAreRecoverableOrFatal :
    (∃ t, exec .encode State.reset = .next t ∧ t.busy = false ∧ t.regs.err ≠ .ok ∧ t.regs.err.fatal = false) ∧
    (∃ t, exec .encode (encSession [.freqOk 1 1 4] []) = .next t ∧ t.busy = false ∧ t.regs.err ≠ .ok ∧
      t.regs.err.fatal = true) := ⟨⟨_, rfl, by decide⟩, ⟨_, rfl, by decide⟩⟩

theorem witness_EosExactlyAtEndOfStream :
    (∃ t, exec .decode usedUpSession = .next t ∧ t.busy = false ∧ t.regs.eos = true) ∧
    (∃ t, exec .decode State.reset = .next t ∧ t.busy = false ∧ t.regs.eos = false) := ⟨⟨_, rfl, by decide⟩, ⟨_, rfl, by decide⟩⟩

theorem witness_EncodeAndFinishKeepResult :
    (∃ t, exec .encode (encSession [.unknown] []) = .next t) ∧ (∃ t, exec .finish (encSession [] []) = .next t) :=
  ⟨⟨_, rfl⟩, ⟨_, rfl⟩⟩

theorem witness_CommandsOutsideTheirStateAreRejected :
    (encSession [] []).regs.state = .enc ∧ (decSession [] [] []).regs.state = .dec ∧ State.reset.regs.state ≠ .enc ∧
    State.reset.regs.state ≠ .dec := by decide

theorem witness_BadOperandsAreAPrecisionError :
    State.reset.regs.state ≠ .enc ∧ State.reset.regs.state ≠ .dec ∧ 1 < 2 ∧ State.reset.build.pmax < 65 ∧
    (idleWith 0).argL.toNat = 0 ∧ 2 ^ (8 - 2) < (idleWith 65).argL.toNat := by decide

/-! ## Witnesses: the encoder commands -/

theorem witness_EncStartBeginsAnEncodeSession :
    State.reset.regs.state ≠ .enc ∧ State.reset.regs.state ≠ .dec ∧ 64 ≤ State.reset.build.pmax ∧
    1 ≤ (idleWith 0x4000000000000000#64).argL.toNat ∧ (idleWith 0x4000000000000000#64).argL.toNat ≤ 2 ^ (64 - 2) ∧
    1 ≤ (idleWith 1).argL.toNat ∧ (idleWith 1).argL.toNat ≤ 2 ^ (2 - 2) := by decide

/-- V-L1, encode B. -/
theorem witness_EncodeCodesASymbol :
    let s := encSession [.freqOk 1 2 4] [.ok, .ok]
    let gs := regimes s.precision s.precision (s.interval.narrow 1 2 4)
    s.Inv ∧ s.regs.state = .enc ∧ s.ports.freq = .freqOk 1 2 4 :: [] ∧ (4 : Word).toNat ≤ s.regs.maxtot.toNat ∧
    pendingFits (pendingLimit s.build) s.regs.pending.toNat gs = true ∧
    sinkServes (encBits s.regs.pending.toNat gs).length s.ports.sink = true :=
  ⟨encSession_inv _ _, by decide⟩

/-- A step of E3, which writes no bit. -/
theorem witness_EncodeCodesASymbol_e3 :
    let s := encSession [.freqOk 1 3 4] []
    let gs := regimes s.precision s.precision (s.interval.narrow 1 3 4)
    s.Inv ∧ s.regs.state = .enc ∧ s.ports.freq = .freqOk 1 3 4 :: [] ∧ (4 : Word).toNat ≤ s.regs.maxtot.toNat ∧ gs = [.e3] ∧
    pendingFits (pendingLimit s.build) s.regs.pending.toNat gs = true ∧
    sinkServes (encBits s.regs.pending.toNat gs).length s.ports.sink = true :=
  ⟨encSession_inv _ _, by decide⟩

theorem witness_EncodeOfAnUnknownSymbol :
    (encSession [.unknown] []).regs.state = .enc ∧ (encSession [.unknown] []).ports.freq = .unknown :: [] := by decide

/-- Each of the three checks of R156 broken. -/
theorem witness_EncodeOfABadFrequencyFails :
    (encSession [.freqOk 1 1 4] []).ports.freq = .freqOk 1 1 4 :: [] ∧
    ¬ ((1 : Word).toNat < (1 : Word).toNat) ∧ ¬ ((5 : Word).toNat ≤ (4 : Word).toNat) ∧
    ¬ ((5 : Word).toNat ≤ (encSession [.freqOk 0 1 5] []).regs.maxtot.toNat) ∧ (encSession [] []).regs.state = .enc := by decide

/-- V-E6: PENDING at its limit, PEND_W = 1, when the E3 step comes. -/
def fullPending : State :=
  { encSession [.freqOk 1 3 4] [] with
    build := { Build.reference with pendW := 1 }
    regs := { encRegs with pending := 1 } }

theorem fullPending_inv : fullPending.Inv where
  build := by decide
  regs := by constructor <;> decide
  quiet := fun h => by cases h

theorem witness_EncodePendingOverflowFails :
    let x := fullPending.interval.narrow 1 3 4
    fullPending.Inv ∧ fullPending.regs.state = .enc ∧ fullPending.ports.freq = .freqOk 1 3 4 :: [] ∧
    regimes fullPending.precision fullPending.precision x = [] ++ .e3 :: [] ∧
    encPending fullPending.regs.pending.toNat [] = pendingLimit fullPending.build ∧
    sinkServes (encBits fullPending.regs.pending.toNat []).length fullPending.ports.sink = true :=
  ⟨fullPending_inv, by decide⟩

/-- V-E7. -/
theorem witness_EncodeSinkErrorFails :
    let s := encSession [.freqOk 0 1 4] [.ok, .error]
    s.Inv ∧ s.regs.state = .enc ∧ s.ports.freq = .freqOk 0 1 4 :: [] ∧
    regimes s.precision s.precision (s.interval.narrow 0 1 4) = [.e1] ++ .e1 :: [] ∧
    pendingFits (pendingLimit s.build) s.regs.pending.toNat [.e1] = true ∧
    (encBits s.regs.pending.toNat [.e1]).length ≤ 1 ∧ 1 < (encBits s.regs.pending.toNat ([.e1] ++ [.e1])).length ∧
    s.ports.sink = List.replicate 1 .ok ++ .error :: [] :=
  ⟨encSession_inv _ _, by decide⟩

theorem witness_FinishWritesTheTermination :
    let s := encSession [] [.ok, .ok, .ok]
    s.regs.state = .enc ∧ s.regs.pending.toNat < pendingLimit s.build ∧ s.build.wf = true ∧
    sinkServes ((false :: List.replicate (s.regs.pending.toNat + 1) true).length + 1) s.ports.sink = true := by decide

theorem witness_FinishPendingOverflowFails :
    fullPending.regs.state = .enc ∧ fullPending.regs.pending.toNat = pendingLimit fullPending.build := by decide

/-- On the first bit and at the FLUSH. -/
theorem witness_FinishSinkErrorFails :
    let s := encSession [] [.error]
    let u := encSession [] [.ok, .ok, .error]
    s.regs.state = .enc ∧ s.regs.pending.toNat < pendingLimit s.build ∧ s.build.wf = true ∧
    s.ports.sink = List.replicate 0 .ok ++ .error :: [] ∧ u.ports.sink = List.replicate 2 .ok ++ .error :: [] ∧
    2 ≤ u.regs.pending.toNat + 2 ∧ (!decide (u.regs.low.toNat < quarter u.precision)) = false := by decide

/-! ## Witnesses: the decoder commands -/

/-- V-D1, last row: an empty source. -/
theorem witness_DecStartFillsCode :
    let s : State := { idleWith 4 with ports := { Ports.none with source := [.endOfInput] } }
    s.regs.state ≠ .enc ∧ s.regs.state ≠ .dec ∧ s.build.wf = true ∧ 8 ≤ s.build.pmax ∧ 1 ≤ s.argL.toNat ∧
    s.argL.toNat ≤ 2 ^ (8 - 2) ∧
    (BitSide.take 8 { exhausted := false, padcnt := 0, bitcnt := 0, answers := s.ports.source, reads := [] }).isSome = true := by
  decide

theorem witness_CodeHoldsTheStream :
    let s : State := { idleWith 4 with ports := { Ports.none with source := [.bit false, .bit true, .endOfInput] } }
    s.regs.state ≠ .enc ∧ s.regs.state ≠ .dec ∧ s.build.wf = true ∧ 8 ≤ s.build.pmax ∧ 1 ≤ s.argL.toNat ∧
    s.argL.toNat ≤ 2 ^ (8 - 2) ∧ s.ports.source = [false, true].map .bit ++ .endOfInput :: [] := by decide

theorem witness_DecStartSourceErrorFails :
    let s : State := { idleWith 4 with ports := { Ports.none with source := [.bit false, .bit true, .error] } }
    s.regs.state ≠ .enc ∧ s.regs.state ≠ .dec ∧ s.build.wf = true ∧ 8 ≤ s.build.pmax ∧ 1 ≤ s.argL.toNat ∧
    s.argL.toNat ≤ 2 ^ (8 - 2) ∧ [false, true].length < 8 ∧ s.ports.source = [false, true].map .bit ++ .error :: [] := by decide

/-- V-L1d, DECODE 1. -/
theorem witness_DecodeResolvesASymbol :
    let a : SymbolAnswer := ⟨0, 0, 1, false⟩
    let s := decSession [4] [a] [.bit false, .bit true]
    let gs := regimes s.precision s.precision (s.interval.narrow 0 1 4)
    s.Inv ∧ s.regs.state = .dec ∧ ¬ (s.regs.exhausted = true ∧ s.precision ≤ s.regs.padcnt.toNat) ∧
    s.ports.total = 4 :: [] ∧ s.interval.value s.regs.code.toNat 4 = 0 ∧ s.ports.symbol = a :: [] ∧
    (s.bitSide.take gs.length).isSome = true := ⟨decSession_inv _ _ _, by decide⟩

/-- The same answers with the terminator's flag. -/
theorem witness_DecodeResolvesASymbol_eos :
    let a : SymbolAnswer := ⟨0, 0, 1, true⟩
    let s := decSession [4] [a] [.bit false, .bit true]
    let gs := regimes s.precision s.precision (s.interval.narrow 0 1 4)
    s.Inv ∧ s.regs.state = .dec ∧ ¬ (s.regs.exhausted = true ∧ s.precision ≤ s.regs.padcnt.toNat) ∧
    s.ports.total = 4 :: [] ∧ s.interval.value s.regs.code.toNat 4 = 0 ∧ s.ports.symbol = a :: [] ∧
    (s.bitSide.take gs.length).isSome = true := ⟨decSession_inv _ _ _, by decide⟩

theorem witness_DecodeReturnsEndAtExhaustion :
    usedUpSession.regs.state = .dec ∧ usedUpSession.regs.exhausted = true ∧
    usedUpSession.precision ≤ usedUpSession.regs.padcnt.toNat := by decide

/-- V-D4: TOTAL 0, TOTAL 5, and a SYMBOL answer with cl > v. -/
theorem witness_DecodeOfABadAnswerFails :
    let a : SymbolAnswer := ⟨1, 1, 2, false⟩
    let s := decSession [4] [a] []
    s.Inv ∧ s.regs.state = .dec ∧ s.regs.exhausted = false ∧ s.ports.total = 4 :: [] ∧ s.ports.symbol = a :: [] ∧
    ¬ (1 ≤ (0 : Word).toNat) ∧ ¬ ((5 : Word).toNat ≤ s.regs.maxtot.toNat) ∧
    ¬ (a.cl.toNat ≤ s.interval.value s.regs.code.toNat 4) := ⟨decSession_inv _ _ _, by decide⟩

theorem witness_DecodeSourceErrorFails :
    let a : SymbolAnswer := ⟨0, 0, 1, false⟩
    let s := decSession [4] [a] [.bit false, .error]
    let gs := regimes s.precision s.precision (s.interval.narrow 0 1 4)
    s.Inv ∧ s.regs.state = .dec ∧ s.regs.exhausted = false ∧ s.ports.total = 4 :: [] ∧ s.ports.symbol = a :: [] ∧
    [false].length < gs.length ∧ s.ports.source = [false].map .bit ++ .error :: [] := ⟨decSession_inv _ _ _, by decide⟩

/-! ## Witnesses: the engine, the adaptors, the host's language -/

theorem witness_NarrowStaysInside : (0 : Nat) ≤ 255 ∧ 0 < 1 ∧ 1 ≤ 4 := by decide

theorem witness_NarrowMakesProgress :
    2 ≤ 8 ∧ Interval.settled 8 ⟨0, 255⟩ = true ∧ 0 < 1 ∧ 64 ≤ quarter 8 ∧ Interval.settled 2 ⟨0, 3⟩ = true := by decide

theorem witness_DecoderChoiceIsExact :
    Interval.lo ⟨64, 191⟩ ≤ 64 ∧ 191 ≤ Interval.hi ⟨64, 191⟩ ∧ 0 < 1 ∧ 3 ≤ Interval.range ⟨64, 191⟩ := by decide

theorem witness_RegimeConditions : (64 : Nat) ≤ 191 ∧ (0 : Nat) ≤ 255 := by decide

theorem witness_TransformsStayWithinPBits :
    2 ≤ 8 ∧ 191 ≤ top 8 ∧ classify 8 ⟨64, 191⟩ = some .e3 ∧ classify 8 ⟨0, 127⟩ = some .e1 ∧
    classify 8 ⟨128, 255⟩ = some .e2 := by decide

theorem witness_RenormalizationEnds : 2 ≤ 5 ∧ (6 : Nat) ≤ 6 ∧ 6 ≤ top 5 := by decide

theorem witness_TerminationSelectsAnInsidePoint :
    (2 ≤ 8 ∧ Interval.settled 8 ⟨63, 191⟩ = true ∧ 63 < quarter 8 ∧ Interval.settled 8 ⟨64, 192⟩ = true ∧ quarter 8 ≤ 64) ∧
    2 ≤ (encSession [] []).precision ∧ (encSession [] []).interval.settled (encSession [] []).precision = true := by
  decide

theorem witness_EmitWritesTheRunInOrder : sinkServes (2 + 1) (encSession [] [.ok, .ok, .ok]).ports.sink = true := by decide

/-- PADCNT at its largest value (R39). -/
def fullPadSession : State := { usedUpSession with regs := { usedUpSession.regs with padcnt := 0xFFFFFFFFFFFFFFFF#64 } }

theorem witness_NextBitCases :
    (usedUpSession.regs.exhausted = true ∧ usedUpSession.regs.padcnt.toNat < 2 ^ 64 - 1) ∧
    (fullPadSession.regs.exhausted = true ∧ fullPadSession.regs.padcnt.toNat = 2 ^ 64 - 1) ∧
    (decSession [] [] []).regs.exhausted = false ∧ (decSession [] [] [.bit true]).ports.source = .bit true :: [] ∧
    (decSession [] [] [.endOfInput]).ports.source = .endOfInput :: [] ∧
    (decSession [] [] [.error]).ports.source = .error :: [] ∧ (decSession [] [] []).ports.source = [] := by decide

/-- V-L1 and V-L1d, symbol A. -/
theorem witness_DecoderFollowsTheEncodersInterval :
    let a : SymbolAnswer := ⟨0, 0, 1, false⟩
    let e := encSession [.freqOk 0 1 4] [.ok, .ok]
    let d := decSession [4] [a] [.bit false, .bit true]
    e.Inv ∧ d.Inv ∧ e.precision = d.precision ∧ e.regs.low = d.regs.low ∧ e.regs.high = d.regs.high ∧
    e.ports.freq = .freqOk a.cl a.ch 4 :: [] ∧ d.ports.total = 4 :: [] ∧ d.ports.symbol = a :: [] ∧
    (∃ e', exec .encode e = .next e' ∧ e'.busy = false ∧ e'.regs.err = .ok) ∧
    (∃ d', exec .decode d = .next d' ∧ d'.busy = false ∧ d'.regs.err = .ok ∧ d'.regs.symcnt = d.regs.symcnt + 1) :=
  ⟨encSession_inv _ _, decSession_inv _ _ _, by decide, by decide, by decide, by decide, by decide, by decide,
    ⟨_, rfl, by decide⟩, ⟨_, rfl, by decide⟩⟩

/-- A host that runs a line, one that has halted, and one with no next line. -/
theorem witness_HostJumps (i : HostInstr) (s : State) :
    let h : State := { hostAt i s with host := { (hostAt i s).host with halted := true } }
    let e : State := { hostAt i s with host := HostAgent.none }
    (∃ u, (hostAt i s).hostMoves u) ∧ (hostAt i s).hostRuns i ∧ (∃ u, (hostAlone (hostAt i s)).hostMoves u) ∧
    (∃ u, h.hostMoves u) ∧ h.host.halted = true ∧ (∃ u, e.hostMoves u) ∧ e.host.prog[e.host.pc]? = none :=
  have w := witness_hostMoves i s
  ⟨w.1, w.2.2.1, w.2.1, ⟨_, .inl ⟨[], rfl, rfl⟩⟩, rfl, ⟨_, .inl ⟨[], rfl, rfl⟩⟩, rfl⟩

/-- The literals at their limits; a program with a label, which is accepted; and one with the first PREC and the first
literal that are refused. -/
theorem witness_PseudoInstructionsExpand :
    127 < 128 ∧ 2 ^ 64 - 1 < 2 ^ 64 ∧
    (∃ prog, assemble ([.finish] ++ .label 0 :: [.halt] ++ [.jmp 0]) = .ok prog) ∧
    (Line.encStart 128 1).keepsRules [.encStart 128 1] = false ∧ (Line.encode (2 ^ 64)).keepsRules [] = false ∧
    ∃ e, assemble [.halt, .encode (2 ^ 64)] = .error e :=
  ⟨by decide, by decide, ⟨_, rfl⟩, by decide, by decide, ⟨_, rfl⟩⟩

end Sys2Proof.Tests
end

section
/-! PROOFS. What a run of a command's body leaves alone, and how it completes (45_host_commands.md R289; 10_state.md R43-R47). -/

namespace Sys2Proof.Machine

/-- The pseudocode of a command. -/
def commandBody : Instr → State → Flow Ending
  | .encStart p => encStartBody p
  | .encode => encodeBody
  | .finish => finishBody
  | .decStart p => decStartBody p
  | .decode => decodeBody
  | .abort => abortBody

theorem exec_eq_runCommand (i : Instr) (s : State) : exec i s = runCommand (commandBody i) s := by cases i <;> rfl

/-- A raised error completes the command, in FAILED if it is fatal (R289, R302). -/
theorem raise_eq (e : ErrCode) (s : State) :
    raise e s =
      complete e false { s with regs := { s.regs with state := if e.fatal then .failed else s.regs.state } } := by
  rw [raise, failIfFatal_eq]

/-- A next state of a command is a completion, an error or a wait, from a state of which the body's facts hold. -/
theorem exec_gives {i : Instr} {s t : State} {G : Ending → State → Prop} {R : ErrCode → State → Prop}
    (hb : (commandBody i (fresh s)).Gives G R) (h : exec i s = .next t) :
    (∃ x u, G x u ∧ t = complete .ok (decide (x = .endOfStream)) u) ∨ (∃ e u, R e u ∧ t = raise e u) ∨
    ∃ q u, t = suspend q u s := by
  rw [exec_eq_runCommand] at h
  rcases runCommand_next h with ⟨x, u, hx, rfl⟩ | ⟨e, u, he, rfl⟩ | ⟨q, u, -, rfl⟩
  · rw [hx] at hb; exact .inl ⟨x, u, hb, rfl⟩
  · rw [he] at hb; exact .inr (.inl ⟨e, u, hb, rfl⟩)
  · exact .inr (.inr ⟨q, u, rfl⟩)

theorem sameOutside_regs (s : State) (r : Regs) : SameOutside s { s with regs := r } :=
  ⟨rfl, rfl, rfl, rfl, rfl, rfl, rfl, rfl, rfl, rfl, rfl⟩

/-- What command `i` leaves alone, over its body and over its whole run (R43, R47). -/
structure CommandFrame (i : Instr) (s t : State) : Prop where
  build : t.build = s.build
  arg0 : t.arg0 = s.arg0
  argL : t.argL = s.argL
  cmd : t.cmd = s.cmd
  host : t.host = s.host
  inputs : t.inputs = s.inputs
  drawn : t.drawn = s.drawn
  abandoned : t.abandoned = s.abandoned
  overrun : i ≠ .abort → t.regs.overrun = s.regs.overrun

theorem SameOutside.frame {i : Instr} {s t : State} (h : SameOutside s t)
    (ho : i ≠ .abort → t.regs.overrun = s.regs.overrun) : CommandFrame i s t :=
  { h with overrun := ho }

theorem EncSide.frame {i : Instr} {s t : State} (h : EncSide s t) : CommandFrame i s t :=
  h.outside.frame fun _ => by rw [h.regs]

theorem DecSide.frame {i : Instr} {s t : State} (h : DecSide s t) : CommandFrame i s t :=
  h.outside.frame fun _ => by rw [h.regs]

theorem CommandFrame.refl (i : Instr) (s : State) : CommandFrame i s s := (SameOutside.refl s).frame fun _ => rfl

theorem CommandFrame.setState {i : Instr} {s t : State} (h : CommandFrame i s t) (x : Session) :
    CommandFrame i s (setState x t) := { h with }

theorem CommandFrame.complete {i : Instr} {s t : State} (h : CommandFrame i s t) (e : ErrCode) (x : Bool) :
    CommandFrame i s (complete e x t) := { h with }

theorem CommandFrame.raise {i : Instr} {s t : State} (h : CommandFrame i s t) (e : ErrCode) :
    CommandFrame i s (raise e t) := by
  rw [raise_eq]; exact { h with }

/-- DEC_START's fill, from the session registers as it begins (R230). -/
theorem DecChange.frame_beginSession {i : Instr} {k : Kind} {p : Nat} {m : Word} {s t : State}
    (h : DecChange (beginSession k p m s) t) : CommandFrame i s t := { h.side.frame (i := i) with }

/-- Every command's body keeps its frame, whatever the agents answer. -/
theorem commandBody_frame (i : Instr) (s : State) :
    (commandBody i s).Gives (fun _ t => CommandFrame i s t) (fun _ t => CommandFrame i s t) := by
  cases i with
  | encStart p =>
    refine (encStart_gives p s).mono ?_ ?_
    · rintro _ _ ⟨-, rfl⟩
      exact (sameOutside_regs s _).frame fun _ => rfl
    · rintro _ _ ⟨-, -, rfl⟩
      exact .refl _ _
  | encode => exact (encode_gives s).mono (fun _ _ h => h.2.frame) (fun _ _ h => h.2.1.frame)
  | finish =>
    refine (finish_gives s).mono ?_ (fun _ _ h => h.2.1.frame)
    rintro _ _ ⟨-, u, hu, -, rfl⟩
    exact hu.frame.setState .done
  | decStart p =>
    refine (decStart_gives p s).mono ?_ ?_
    · rintro _ _ ⟨-, u, hu, rfl⟩
      exact hu.frame_beginSession.setState .dec
    · rintro _ _ ⟨-, ⟨-, hu⟩ | ⟨-, rfl⟩⟩
      · exact hu.frame_beginSession
      · exact .refl _ _
  | decode =>
    refine (decode_gives s).mono ?_ (fun _ _ h => h.2.1.frame)
    rintro _ _ ⟨-, ⟨-, u, hu, rfl⟩ | ⟨-, hu⟩⟩
    · exact hu.frame.setState .done
    · exact hu.frame
  | abort => exact (sameOutside_regs s _).frame fun h => absurd rfl h

/-- A command keeps its frame: at a completion, at an error and at a wait. -/
theorem exec_frame {i : Instr} {s t : State} (h : exec i s = .next t) : CommandFrame i s t := by
  rcases exec_gives (commandBody_frame i (fresh s)) h with ⟨x, u, hu, rfl⟩ | ⟨e, u, hu, rfl⟩ | ⟨q, u, rfl⟩
  · exact { hu.complete .ok _ with }
  · exact { hu.raise e with }
  · exact { CommandFrame.refl i s with }

/-- A body ends the stream exactly as a DECODE that goes to DONE, and raises no error OK (R45, R240, R289). -/
theorem commandBody_ending (i : Instr) (s : State) :
    (commandBody i s).Gives (fun x t => x = .endOfStream ↔ i = .decode ∧ t.regs.state = .done) (fun e _ => e ≠ .ok) := by
  have other : ∀ {x : Ending} {t : State}, i ≠ .decode → x = .normal →
      (x = .endOfStream ↔ i = .decode ∧ t.regs.state = .done) := by
    rintro _ t hi rfl
    simp [hi]
  cases i with
  | encStart p => exact (encStart_gives p s).mono (fun _ _ h => other (by simp) h.1) (fun _ _ h => h.1)
  | encode => exact (encode_gives s).mono (fun _ _ h => other (by simp) h.1) (fun _ _ h => h.1)
  | finish => exact (finish_gives s).mono (fun _ _ h => other (by simp) h.1) (fun _ _ h => h.1)
  | decStart p => exact (decStart_gives p s).mono (fun _ _ h => other (by simp) h.1) (fun _ _ h => h.1)
  | decode =>
    refine (decode_gives s).mono ?_ (fun _ _ h => h.1)
    rintro _ t ⟨hdec, ⟨rfl, u, -, rfl⟩ | ⟨rfl, ht⟩⟩
    · simp
    · have hstate : t.regs.state = .dec := by rw [ht.regs]; exact hdec
      simp [hstate]
  | abort => exact other (by simp) rfl

/-- The encoder's commands before their STATE write keep RESULT (R42). -/
theorem EncSide.result {s t : State} (h : EncSide s t) : t.regs.result = s.regs.result := by rw [h.regs]

/-- ENCODE and FINISH make no RESULT write, whatever the agents answer (R42). -/
theorem commandBody_result {i : Instr} (hi : i = .encode ∨ i = .finish) (s : State) :
    (commandBody i s).Gives (fun _ t => t.regs.result = s.regs.result) (fun _ t => t.regs.result = s.regs.result) := by
  rcases hi with rfl | rfl
  · exact (encode_gives s).mono (fun _ _ h => h.2.result) (fun _ _ h => h.2.1.result)
  · refine (finish_gives s).mono ?_ (fun _ _ h => h.2.1.result)
    rintro _ _ ⟨-, u, hu, -, rfl⟩
    exact hu.result

/-- ENCODE and FINISH keep RESULT at a completion, at an error and at a wait (R42). -/
theorem exec_result {i : Instr} {s t : State} (hi : i = .encode ∨ i = .finish) (h : exec i s = .next t) :
    t.regs.result = s.regs.result := by
  rcases exec_gives (commandBody_result hi (fresh s)) h with ⟨x, u, hu, rfl⟩ | ⟨e, u, hu, rfl⟩ | ⟨q, u, rfl⟩
  · exact hu
  · rw [raise_eq]; exact hu
  · rfl

/-- Every command keeps the invariant, whatever the agents answer. -/
theorem exec_inv {i : Instr} {s t : State} (hs : s.Inv) (h : exec i s = .next t) : t.Inv := by
  cases i with
  | encStart p => exact (encStart_keeps (s := fresh s) hs.build hs.regs p).next hs h
  | encode => exact (encode_keeps (s := fresh s) hs.build hs.regs).next hs h
  | finish => exact (finish_keeps (s := fresh s) hs.build hs.regs).next hs h
  | decStart p => exact (decStart_keeps (s := fresh s) hs.build hs.regs p).next hs h
  | decode => exact (decode_keeps (s := fresh s) hs.build hs.regs).next hs h
  | abort => exact Keeps.next (body := abortBody) hs ⟨rfl, clearSession_inv _ _⟩ h

/-- An illegal word keeps the invariant (R285). -/
theorem execIllegal_inv {s t : State} (hs : s.Inv) (h : execIllegal s = .next t) : t.Inv :=
  Keeps.next (body := fun u => .raised .illegalCmd u) hs ⟨rfl, hs.regs.ended, fun _ => hs.regs⟩ h

end Sys2Proof.Machine
end

section
/-! PROOFS. What each kind of step can do: the next event, the host's line, an access, an agent, the block
(45_host_commands.md R280-R288; 30_encoding.md R129). -/

namespace Sys2Proof.Machine

/-- The event of the next step (log 4). -/
def State.nextInput (s : State) : Input :=
  match s.inputs with
  | x :: _ => x
  | [] => if s.busy then .block else .host

/-- The state in which the next event happens: its input is used up. -/
def State.taken (s : State) : State := { s with inputs := s.inputs.tail }

theorem taken_of_no_inputs {s : State} (h : s.inputs = []) : s.taken = s := by
  cases s
  subst h
  rfl

theorem step_eq_inputStep (s : State) : step s = inputStep s.nextInput s.taken := by
  unfold step State.nextInput
  cases hi : s.inputs with
  | cons x rest => simp only [State.taken, hi, List.tail_cons]
  | nil => rw [taken_of_no_inputs hi]; cases s.busy <;> rfl

/-- The next event is the oldest input, or the one that log 4 names where there is none. -/
theorem nextInput_cases (s : State) :
    s.inputs = s.nextInput :: s.taken.inputs ∨ s.inputs = [] ∧ s.nextInput = if s.busy then .block else .host := by
  unfold State.nextInput State.taken
  cases s.inputs <;> simp

/-- The host moves where the next event is its line. -/
theorem hostMoves_taken {s : State} (h : s.nextInput = .host) : s.hostMoves s.taken := by
  rcases nextInput_cases s with hi | ⟨hi, hx⟩
  · rw [h] at hi
    exact .inl ⟨_, hi, rfl⟩
  · have hb : s.busy = false := by cases hb : s.busy <;> simp [h, hb] at hx ⊢
    exact .inr ⟨hi, hb, taken_of_no_inputs hi⟩

/-- An event other than a move of the block or of the host happens only as the oldest input. -/
theorem inputs_eq_of_nextInput {s : State} {x : Input} (h : s.nextInput = x) (hb : x ≠ .block) (hh : x ≠ .host) :
    s.inputs = x :: s.taken.inputs := by
  subst h
  rcases nextInput_cases s with hi | ⟨-, hx⟩
  · exact hi
  · cases hbusy : s.busy <;> simp [hbusy] at hx <;> contradiction

/-- A host write happens in the state but for the inputs and the host. -/
theorem hostWrites_eq {s u : State} {offset : Nat} {v : Word} (h : s.hostWrites offset v u) :
    u = { s with inputs := u.inputs, host := u.host } := by
  obtain ⟨a, rest, -, -, -, -, -, -, rfl⟩ | ⟨w, reg, hw, -, -, rfl⟩ := h
  · rfl
  · rw [hostMoves_eq hw]; rfl

theorem eq_cmd_of_regAt {offset : Nat} (h : regAt offset = some .cmd) : offset = WinReg.cmd.offset := by
  unfold regAt at h
  split at h <;> cases h
  rfl

/-- A write at an offset changes nothing, stores ARG0, is dropped at CMD, or starts a command there (R280, R282, R287). -/
theorem hostWrite_cases (offset : Nat) (v : Word) (s : State) :
    hostWrite offset v s = s ∨ hostWrite offset v s = { s with arg0 := v } ∨
    (s.busy = true ∧ offset = WinReg.cmd.offset ∧ hostWrite offset v s = dropCommand s) ∨
    hostWrite offset v s = startCommand v s := by
  unfold hostWrite
  split
  · rename_i hreg
    cases hb : s.busy with
    | true => exact .inr (.inr (.inl ⟨rfl, eq_cmd_of_regAt hreg, rfl⟩))
    | false => exact .inr (.inr (.inr rfl))
  · exact .inr (.inl rfl)
  all_goals exact .inl rfl

/-- The registers after a host write: OVERRUN is set at a dropped CMD write, and nothing else changes (R282, R287). -/
theorem hostWrite_regs (offset : Nat) (v : Word) (s : State) :
    (hostWrite offset v s).regs = s.regs ∨
    s.busy = true ∧ offset = WinReg.cmd.offset ∧ (hostWrite offset v s).regs = { s.regs with overrun := true } := by
  rcases hostWrite_cases offset v s with h | h | ⟨hb, ho, h⟩ | h <;> rw [h]
  · exact .inl rfl
  · exact .inl rfl
  · exact .inr ⟨hb, ho, rfl⟩
  · exact .inl rfl

theorem hostWrite_build (offset : Nat) (v : Word) (s : State) : (hostWrite offset v s).build = s.build := by
  rcases hostWrite_cases offset v s with h | h | ⟨-, -, h⟩ | h <;> rw [h] <;> rfl

/-- A line of the host other than `wr` changes the host and the free-value counter only (R129, R288). -/
theorem hostStep_cases (s : State) :
    hostStep s = { s with host := (hostStep s).host, drawn := (hostStep s).drawn } ∨
    ∃ reg v, s.hostRuns (.wr reg v) := by
  by_cases hh : s.host.halted = true
  · left; simp [hostStep, hh]
  · cases hl : s.host.prog[s.host.pc]? with
    | none => left; simp [hostStep, hl]
    | some i =>
      have hr : s.hostRuns i := ⟨by simpa using hh, hl⟩
      cases i with
      | wr reg v => exact .inr ⟨reg, v, hr⟩
      | _ => left; rw [hostStep_runs hr]; rfl

/-- An access that is served is an aligned 8-byte read or write in the window (R83, R84). -/
theorem hostAccess_next {a : Access} {s t : State} (h : hostAccess a s = .next t) :
    (∃ offset, t = hostRead offset s) ∨
    ∃ offset v, a.addr = s.build.windowBase + offset ∧ offset < windowBytes ∧ offset % 8 = 0 ∧ a.bytes = 8 ∧
      a.write = some v := by
  unfold hostAccess at h
  split at h
  · cases h
  · rename_i hin
    dsimp only at h
    split at h
    · rename_i hal
      split at h
      · rename_i v hv
        exact .inr ⟨a.addr - s.build.windowBase, v, by omega, by omega, hal.1, hal.2, hv⟩
      · cases h
        exact .inl ⟨_, rfl⟩
    · cases h

/-- A late answer changes the abandoned requests and the trace only (R340). -/
theorem lateAnswer_eq (tr : Transaction) (s : State) :
    lateAnswer tr s = { s with abandoned := (lateAnswer tr s).abandoned, trace := (lateAnswer tr s).trace } := by
  unfold lateAnswer
  split <;> rfl

/-- The block's move runs the latched command, completes an illegal word, or does nothing (R280, R285, R325). -/
theorem blockStep_next {s t : State} (h : blockStep s = .next t) :
    (s.busy = false ∧ t = s) ∨ (s.busy = true ∧ ((∃ i, exec i s = .next t) ∨ execIllegal s = .next t)) := by
  unfold blockStep at h
  cases hb : s.busy with
  | false => simp only [hb, Bool.false_eq_true, if_false] at h; cases h; exact .inl ⟨rfl, rfl⟩
  | true =>
    simp only [hb, if_true] at h
    split at h
    · exact .inr ⟨rfl, .inl ⟨_, h⟩⟩
    · exact .inr ⟨rfl, .inr h⟩

/-- The kinds of step from `s`, each with the next states it can answer. -/
inductive StepTo (s : State) : State → Prop
  /-- The block moves. -/
  | block {t : State} (event : s.nextInput = .block) (next : blockStep s.taken = .next t) : StepTo s t
  /-- The host reads, jumps, halts or does nothing. -/
  | hostOther (host : HostAgent) (drawn : Nat) : StepTo s { s.taken with host := host, drawn := drawn }
  /-- The host writes at an offset, by an access or by a `wr` line. -/
  | hostWrite {offset : Nat} {v : Word} {u : State} (write : s.hostWrites offset v u) :
      StepTo s (hostWrite offset v u)
  /-- The reset input is asserted. -/
  | reset (event : s.nextInput = .reset) : StepTo s (resetBlock s.taken)
  /-- An agent makes its next answer available. -/
  | answer (a : Answer) : StepTo s (deliver a s.taken)
  /-- The response to an abandoned request arrives. -/
  | late (tr : Transaction) : StepTo s (lateAnswer tr s.taken)

/-- Where the next event is a host write, the next state is that write's. -/
theorem StepTo.of_hostWrites {s t u : State} {offset : Nat} {v : Word} (h : step s = .next t) (hw : s.hostWrites offset v u) :
    StepTo s t := by
  rw [hostWrites_step hw] at h
  cases h
  exact .hostWrite hw

/-- Every step that answers a next state is of one of these kinds. -/
theorem step_next {s t : State} (h : step s = .next t) : StepTo s t := by
  have hx := h
  rw [step_eq_inputStep] at hx
  cases hn : s.nextInput with
  | block => rw [hn] at hx; exact .block hn hx
  | host =>
    have hm := hostMoves_taken hn
    rcases hostStep_cases s.taken with hq | ⟨reg, v, hr⟩
    · rw [hn] at hx
      cases hx
      rw [hq]
      exact .hostOther _ _
    · exact .of_hostWrites h (.inr ⟨s.taken, reg, hm, hr, rfl, rfl⟩)
  | access a =>
    rw [hn] at hx
    rcases hostAccess_next hx with ⟨offset, rfl⟩ | ⟨offset, v, haddr, hlt, hal, hbytes, hv⟩
    · exact .hostOther _ _
    · exact .of_hostWrites h (.inl ⟨a, _, inputs_eq_of_nextInput hn nofun nofun, haddr, hlt, hal, hbytes, hv, rfl⟩)
  | reset => rw [hn] at hx; cases hx; exact .reset hn
  | answer a => rw [hn] at hx; cases hx; exact .answer a
  | late tr => rw [hn] at hx; cases hx; exact .late tr

end Sys2Proof.Machine
end

section
/-! PROOFS. The invariant, the build and the registers over the events that run no command (10_state.md R53-R58). -/

namespace Sys2Proof.Machine

/-- The registers' reset values meet their invariant: they are those of a cleared session (R58, R60). -/
theorem Regs.reset_inv (b : Build) : Regs.reset.Inv b := (clearSession_inv State.reset b).ending .ok false

theorem cleared_overrun (r : Regs) (x : Bool) : Regs.cleared { r with overrun := x } = r.cleared := by
  cases r; simp [Regs.cleared, Regs.reset]

/-- OVERRUN is free (R47). -/
theorem Regs.Inv.overrun {b : Build} {r : Regs} (h : r.Inv b) (x : Bool) : Regs.Inv b { r with overrun := x } :=
  { h with idle := fun k => (cleared_overrun r x).trans (h.idle k) }

theorem hostWrite_inv {s : State} (hs : s.Inv) (offset : Nat) (v : Word) : (hostWrite offset v s).Inv := by
  rcases hostWrite_cases offset v s with h | h | ⟨-, -, h⟩ | h <;> rw [h]
  · exact hs
  · exact ⟨hs.build, hs.regs, hs.quiet⟩
  · exact ⟨hs.build, hs.regs.overrun true, hs.quiet⟩
  · exact ⟨hs.build, hs.regs, fun _ => ⟨rfl, rfl⟩⟩

/-- Between commands no request is outstanding, so an answer starts no port activity. -/
theorem deliver_inv {s : State} (hs : s.Inv) (a : Answer) : (deliver a s).Inv := by
  refine ⟨by simpa using hs.build, by simpa using hs.regs, fun hb => ?_⟩
  obtain ⟨hl, ho⟩ := hs.quiet (by simpa using hb)
  rw [deliver_eq a ho]
  exact ⟨hl, ho⟩

theorem blockStep_inv {s t : State} (hs : s.Inv) (h : blockStep s = .next t) : t.Inv := by
  rcases blockStep_next h with ⟨-, rfl⟩ | ⟨-, ⟨i, hi⟩ | hi⟩
  · exact hs
  · exact exec_inv hs hi
  · exact execIllegal_inv hs hi

/-- No step changes the build parameters (R51). -/
theorem step_build {s t : State} (h : step s = .next t) : t.build = s.build := by
  cases step_next h with
  | block _ next =>
    rcases blockStep_next next with ⟨-, rfl⟩ | ⟨-, ⟨i, hi⟩ | hi⟩
    · rfl
    · exact (exec_frame hi).build
    · cases hi
      rfl
  | hostOther => rfl
  | @hostWrite offset v u write =>
    rw [hostWrite_build, hostWrites_eq write]
  | reset => rfl
  | answer a => exact deliver_build a s.taken
  | late tr => rw [lateAnswer_eq]; rfl

/-- The block moves with no command in progress where the inputs name that move only then. -/
theorem not_busy_of_block {s : State} (h : s.nextInput = .block)
    (hnamed : ∀ rest, s.inputs = .block :: rest → s.busy = false) (hnone : s.inputs = [] → s.busy = false) :
    s.busy = false := by
  rcases nextInput_cases s with hi | ⟨hi, -⟩
  · rw [h] at hi
    exact hnamed _ hi
  · exact hnone hi

/-- A step that neither runs a command nor takes reset leaves the registers, but for OVERRUN at a dropped CMD write (R53). -/
theorem step_regs {s t : State} (h : step s = .next t) (hnamed : ∀ rest, s.inputs = .block :: rest → s.busy = false)
    (hnone : s.inputs = [] → s.busy = false) (hreset : ∀ rest, s.inputs ≠ .reset :: rest) :
    t.regs = s.regs ∨
      (s.busy = true ∧ (∃ v u, s.hostWrites WinReg.cmd.offset v u) ∧ t.regs = { s.regs with overrun := true }) := by
  cases step_next h with
  | block event next =>
    have hidle : s.busy = false := not_busy_of_block event hnamed hnone
    rcases blockStep_next next with ⟨-, rfl⟩ | ⟨hbusy, -⟩
    · exact .inl rfl
    · exact absurd (hidle.symm.trans hbusy) (by decide)
  | hostOther => exact .inl rfl
  | @hostWrite offset v u write =>
    have hr : u.regs = s.regs := by rw [hostWrites_eq write]
    have hb : u.busy = s.busy := by rw [hostWrites_eq write]
    rcases hostWrite_regs offset v u with hw | ⟨hbusy, rfl, hw⟩ <;> rw [hr] at hw
    · exact .inl hw
    · exact .inr ⟨hb ▸ hbusy, ⟨v, u, write⟩, hw⟩
  | reset event => exact absurd (inputs_eq_of_nextInput event nofun nofun) (hreset _)
  | answer a => exact .inl (deliver_regs a s.taken)
  | late tr => rw [lateAnswer_eq]; exact .inl rfl

end Sys2Proof.Machine
end

section
/-! PROOFS. What the window shows: the fields of the STATUS and CAPS words, and the reads between commands
(10_state.md R49-R52). -/

namespace Sys2Proof.Machine

theorem extractLsb'_lowest {v n : Nat} (hi : BitVec v) (f : BitVec n) : (hi ++ f).extractLsb' 0 n = f := by
  rw [BitVec.extractLsb'_append_eq_of_add_le (Nat.zero_add n).le, BitVec.extractLsb'_eq_self]

/-- The fields of the STATUS word, by their codes: with the fields below it dropped, each is the lowest (R50). -/
theorem statusWord_fields (r : Regs) (busy exhausted : Bool) :
    (statusWord r busy exhausted).extractLsb' 0 3 = r.state.toBits ∧
    (statusWord r busy exhausted).extractLsb' 3 1 = BitVec.ofBool busy ∧
    (statusWord r busy exhausted).extractLsb' 4 1 = BitVec.ofBool r.eos ∧
    (statusWord r busy exhausted).extractLsb' 5 1 = r.kind.toBit ∧
    (statusWord r busy exhausted).extractLsb' 6 1 = BitVec.ofBool r.overrun ∧
    (statusWord r busy exhausted).extractLsb' 7 1 = BitVec.ofBool exhausted ∧
    (statusWord r busy exhausted).extractLsb' 8 8 = r.err.toBits ∧
    (statusWord r busy exhausted).extractLsb' 16 7 = r.prec ∧
    (statusWord r busy exhausted).extractLsb' 23 41 = 0 := by
  unfold statusWord
  refine ⟨?_, ?_, ?_, ?_, ?_, ?_, ?_, ?_, ?_⟩ <;> repeat rw [BitVec.extractLsb'_append_eq_of_le (by omega)]
  on_goal 9 => exact BitVec.extractLsb'_eq_self
  all_goals exact extractLsb'_lowest _ _

/-- The fields of the CAPS word (R51). -/
theorem capsWord_fields (b : Build) :
    (capsWord b).extractLsb' 0 7 = BitVec.ofNat 7 b.pmax ∧ (capsWord b).extractLsb' 7 1 = 0 ∧
    (capsWord b).extractLsb' 8 7 = BitVec.ofNat 7 b.pendW ∧ (capsWord b).extractLsb' 15 1 = 0 ∧
    (capsWord b).extractLsb' 16 8 = BitVec.ofNat 8 Config.edition ∧ (capsWord b).extractLsb' 24 40 = 0 := by
  unfold capsWord
  refine ⟨?_, ?_, ?_, ?_, ?_, ?_⟩ <;> repeat rw [BitVec.extractLsb'_append_eq_of_le (by omega)]
  on_goal 6 => exact BitVec.extractLsb'_eq_self
  all_goals exact extractLsb'_lowest _ _

theorem lowBits_of_lt {n : Nat} {w : Word} (h : w.toNat < 2 ^ n) : lowBits n w = w := by
  rw [lowBits, Nat.mod_eq_of_lt h, BitVec.ofNat_toNat, BitVec.setWidth_eq]

theorem lt_of_le_pendingLimit {b : Build} {v : Word} (h : v.toNat ≤ pendingLimit b) : v.toNat < 2 ^ b.pendW :=
  Nat.lt_of_le_pred (Nat.two_pow_pos _) h

theorem exhaustedShown_of_not_busy {s : State} (hb : s.busy = false) : exhaustedShown s = s.regs.exhausted :=
  if_pos (.inl hb)

theorem anyWhileBusy_of_not_busy {s : State} (hb : s.busy = false) (v : Word) : anyWhileBusy s v = v := by
  simp [anyWhileBusy, hb]

end Sys2Proof.Machine
end

section
/-! PROOFS. The statements of 10_state.md. -/

namespace Sys2Proof.Machine

/-- Settles O20: one lemma for each kind of step. -/
theorem everyStepKeepsTheInvariant : Obligations.EveryStepKeepsTheInvariant := by
  intro s t hs h
  have htaken : s.taken.Inv := ⟨hs.build, hs.regs, hs.quiet⟩
  cases step_next h with
  | block _ next => exact blockStep_inv htaken next
  | hostOther => exact ⟨hs.build, hs.regs, hs.quiet⟩
  | @hostWrite offset v u write =>
    have hu : u.Inv := by rw [hostWrites_eq write]; exact ⟨hs.build, hs.regs, hs.quiet⟩
    exact hostWrite_inv hu offset v
  | reset => exact ⟨hs.build, Regs.reset_inv _, fun _ => ⟨rfl, rfl⟩⟩
  | answer a => exact deliver_inv htaken a
  | late tr =>
    rw [lateAnswer_eq]
    exact ⟨hs.build, hs.regs, hs.quiet⟩

/-- Settles O21: the reset registers are those of a cleared session, and no command is in progress. -/
theorem resetStateMeetsTheInvariant : Obligations.ResetStateMeetsTheInvariant :=
  ⟨by decide, Regs.reset_inv _, fun _ => ⟨rfl, rfl⟩⟩

/-- Settles O13: a register of P or of PEND_W bits is within them, so its mask changes nothing; every other register is
shown as it is. -/
theorem windowReadsBetweenCommands : Obligations.WindowReadsBetweenCommands := by
  intro s hs hb
  have hlow := lowBits_of_lt hs.regs.low
  have hhigh := lowBits_of_lt hs.regs.high
  have hcode := lowBits_of_lt hs.regs.code
  have hpending := lowBits_of_lt (lt_of_le_pendingLimit hs.regs.pending)
  simp [readOffset, regAt, readReg, anyWhileBusy_of_not_busy hb, exhaustedShown_of_not_busy hb, hb, hlow, hhigh, hcode,
    hpending]

/-- Settles O14: the codes the statement spells out are those that the word is made of. -/
theorem statusWordFields : Obligations.StatusWordFields := fun r busy exhausted => statusWord_fields r busy exhausted

/-- Settles O19: CAPS is made of the build alone, whose parameters fit their fields where it is legal (R6, R7). -/
theorem capsIsConstant : Obligations.CapsIsConstant := by
  refine ⟨fun s t h => ⟨step_build h, congrArg capsWord (step_build h)⟩, fun s hs => ?_⟩
  obtain ⟨hpmax, hgap, hpendW, hgap', hedition, htop⟩ := capsWord_fields s.build
  simp only [Build.wf, Bool.and_eq_true, decide_eq_true_eq] at hs
  obtain ⟨⟨⟨-, hp⟩, -⟩, hw⟩ := hs
  simp only [readReg, hpmax, hgap, hpendW, hgap', hedition, htop, BitVec.toNat_ofNat, Config.edition, and_true, true_and]
  omega

/-- Settles O23: the commands' frame, the steps that run no command, the block between commands, and an answer. -/
theorem commandsLeaveHostAndOperandsAlone : Obligations.CommandsLeaveHostAndOperandsAlone := by
  refine ⟨fun i s t h => ?_, fun s t h => step_regs h, fun s rest hi hb => ?_, fun s a rest hi => ?_⟩
  · have f := exec_frame h
    exact ⟨f.build, f.arg0, f.argL, f.cmd, f.host, f.inputs, f.drawn, f.abandoned, f.overrun⟩
  · simp [step, hi, inputStep, blockStep, hb]
  · cases hr : s.outstanding.bind ((s.ports.push a).after s.live).answerTo <;>
      simp [step, hi, inputStep, deliver, respond, record, hr]

/-- Settles O26: a body that goes on decides EOS; an error completes with EOS = 0 and ERR other than OK; a wait is no
completion. -/
theorem eosExactlyAtEndOfStream : Obligations.EosExactlyAtEndOfStream := by
  intro i s t h hdone
  rcases exec_gives (commandBody_ending i (fresh s)) h with ⟨x, u, hx, rfl⟩ | ⟨e, u, he, rfl⟩ | ⟨q, u, rfl⟩
  · simpa using hx
  · simp [raise_eq, he]
  · cases hdone

/-- Settles O27: neither body writes RESULT, and completing writes only ERR, EOS and STATE. -/
theorem encodeAndFinishKeepResult : Obligations.EncodeAndFinishKeepResult := by
  rintro s t (h | h)
  · exact exec_result (.inl rfl) h
  · exact exec_result (.inr rfl) h

end Sys2Proof.Machine
end

section
/-! PROOFS. Packing and unpacking, a byte and then a stream, and an access that is not served (20_memory.md R84, R88). -/

namespace Sys2Proof.Machine

/-- Taking from a list no longer than the count gives it, filled up. -/
theorem takeD_of_length_le {α : Type} (a : α) :
    ∀ {n : Nat} {l : List α}, l.length ≤ n → l.takeD n a = l ++ List.replicate (n - l.length) a
  | n, [], _ => List.takeD_nil n a
  | n + 1, x :: l, h => by
    rw [List.takeD, List.headD_cons, List.tail_cons, takeD_of_length_le a (Nat.le_of_succ_le_succ h)]
    simp

/-- A byte gives back the first eight of the bits it is made of, a missing one as 0 (R88). -/
theorem unpackByte_packByte (bits : List Bool) : unpackByte (packByte bits) = bits.takeD 8 false := by
  simp only [unpackByte, packByte, BitVec.getLsbD_append, List.takeD_succ, List.takeD_zero]
  simp [List.head?_eq_getElem?]

/-- Bits that do not begin with a whole byte are fewer than eight. -/
theorem length_lt_eight {bits : List Bool}
    (h : ∀ b0 b1 b2 b3 b4 b5 b6 b7 rest, bits = b0 :: b1 :: b2 :: b3 :: b4 :: b5 :: b6 :: b7 :: rest → False) :
    bits.length < 8 := by
  match bits, h with
  | [], _ | [_], _ | [_, _], _ | [_, _, _], _ | [_, _, _, _], _ | [_, _, _, _, _], _ | [_, _, _, _, _, _], _
  | [_, _, _, _, _, _, _], _ => simp
  | _ :: _ :: _ :: _ :: _ :: _ :: _ :: _ :: _, h => exact (h _ _ _ _ _ _ _ _ _ rfl).elim

theorem unpackBytes_cons (b : Byte) (bytes : List Byte) :
    unpackBytes (b :: bytes) = unpackByte b ++ unpackBytes bytes :=
  List.flatMap_cons

/-- An access in the window that is misaligned or not 8 bytes wide is a bus error (R84). -/
theorem hostAccess_unsupported {a : Access} {s : State} {offset : Nat} (haddr : a.addr = s.build.windowBase + offset)
    (hin : offset < windowBytes) (hform : offset % 8 ≠ 0 ∨ a.bytes ≠ 8) :
    hostAccess a s = .fault (.busError offset a.bytes) := by
  have hwindow : ¬ (a.addr < s.build.windowBase ∨ s.build.windowBase + windowBytes ≤ a.addr) := by omega
  have hoffset : a.addr - s.build.windowBase = offset := by omega
  rw [hostAccess, if_neg hwindow, hoffset]
  exact if_neg (by omega)

end Sys2Proof.Machine
end

section
/-! PROOFS. The statements of 20_memory.md. -/

namespace Sys2Proof.Machine

/-- Settles O60, by the recursion of packing: a whole byte gives its bits back and leaves the fill to the rest; the last
byte is filled up to eight. -/
theorem unpackingUndoesPacking : Obligations.UnpackingUndoesPacking := by
  intro bits
  induction bits using packBits.induct with
  | case1 b0 b1 b2 b3 b4 b5 b6 b7 rest ih =>
    obtain ⟨fill, hfill, hwhole, hrest⟩ := ih
    refine ⟨fill, hfill, by simp only [List.length_cons]; omega, ?_⟩
    rw [packBits, unpackBytes_cons, unpackByte_packByte, hrest]
    rfl
  | case2 => exact ⟨0, by decide, rfl, rfl⟩
  | case3 tail hlast hne =>
    have hlt := length_lt_eight hlast
    have hpos := List.length_pos_iff.mpr hne
    refine ⟨8 - tail.length, by omega, by omega, ?_⟩
    rw [packBits.eq_3 tail hlast hne, unpackBytes_cons, unpackByte_packByte, takeD_of_length_le false hlt.le]
    exact List.append_nil _

/-- Settles O11: the step is the access, and an access of this form is not served. -/
theorem unsupportedAccessIsABusError : Obligations.UnsupportedAccessIsABusError := by
  intro s a offset rest hi haddr hlt hform
  simp only [step, hi, inputStep]
  exact hostAccess_unsupported haddr hlt hform

end Sys2Proof.Machine
end

section
/-! PROOFS. Command words by their fields and by the rows of the table of word patterns (30_encoding.md R120-R126). -/

namespace Sys2Proof

theorem opField_formatS (op : BitVec 8) (p : Nat) : opField (formatS op p) = op :=
  BitVec.extractLsb'_append_eq_right

theorem precField_formatS (op : BitVec 8) (p : Nat) : precField (formatS op p) = BitVec.ofNat 7 p := by
  rw [precField, formatS, BitVec.extractLsb'_append_eq_of_le (le_refl 8)]
  exact BitVec.extractLsb'_append_eq_right

theorem rsvFieldS_formatS (op : BitVec 8) (p : Nat) : rsvFieldS (formatS op p) = 0#49 := by
  rw [rsvFieldS, formatS, BitVec.extractLsb'_append_eq_of_le (by decide)]
  exact BitVec.extractLsb'_append_eq_left

/-- What the PREC field holds is a well-formed operand (R130). -/
theorem precField_wf (w : Word) : decide ((precField w).toNat < 128) = true := decide_eq_true (precField w).isLt

/-- A word with RSV = 0 is the format S word of its other two fields. -/
theorem formatS_fields {w : Word} (h : rsvFieldS w = 0#49) : formatS (opField w) (precField w).toNat = w := by
  rw [formatS, ← h, BitVec.ofNat_toNat, BitVec.setWidth_eq, rsvFieldS, precField, opField,
    BitVec.extractLsb'_append_extractLsb'_eq_extractLsb' (by decide),
    BitVec.extractLsb'_append_extractLsb'_eq_extractLsb' (by decide)]
  exact BitVec.extractLsb'_eq_self

/-- A word with RSV = 0 is the format N word of its OP value. -/
theorem formatN_opField {w : Word} (h : rsvFieldN w = 0#56) : formatN (opField w) = w := by
  rw [formatN, ← h]
  exact BitVec.extractLsb'_append_extractLsb'

/-- A format S word as R132 writes it: PREC shifted over OP. -/
theorem formatS_eq_shift (op : BitVec 8) {p : Nat} (hp : p < 128) :
    formatS op p = (BitVec.ofNat 64 p <<< 8) ||| op.setWidth 64 := by
  have h := BitVec.setWidth_append_append_eq_shiftLeft_setWidth_or (w''' := 64) (b := 0#49) (b' := BitVec.ofNat 7 p)
    (b'' := op)
  simpa [formatS, BitVec.setWidth_ofNat_of_le_of_lt (show 7 ≤ 64 by decide) hp] using h

/-- The decoder reads back the word of a well-formed command (R120, R125): with PREC within its field nothing is dropped. -/
theorem decode_encode {i : Instr} (h : i.wf = true) : decode (encode i) = .ok i := by
  cases i with
  | encStart p | decStart p =>
    have hp : p < 128 := of_decide_eq_true h
    simp [decode, encode, opField_formatS, rsvFieldS_formatS, precField_formatS, hp]
  | encode | finish | decode | abort => decide

/-- Each answer of the decoder is a well-formed command, and the word is its own: the fields tested make up the word. -/
theorem encode_of_decode {w : Word} {i : Instr} (h : decode w = .ok i) : i.wf = true ∧ encode i = w := by
  have hS : ∀ op, opField w = op ∧ rsvFieldS w = 0#49 → formatS op (precField w).toNat = w := by
    rintro _ ⟨rfl, hrsv⟩
    exact formatS_fields hrsv
  have hN : ∀ op, opField w = op ∧ rsvFieldN w = 0#56 → formatN op = w := by
    rintro _ ⟨rfl, hrsv⟩
    exact formatN_opField hrsv
  unfold decode at h
  split_ifs at h with h1 h2 h3 h4 h5 h6 <;> cases h
  · exact ⟨precField_wf w, hS _ h1⟩
  · exact ⟨precField_wf w, hS _ h2⟩
  · exact ⟨rfl, hN _ h3⟩
  · exact ⟨rfl, hN _ h4⟩
  · exact ⟨rfl, hN _ h5⟩
  · exact ⟨rfl, hN _ h6⟩

theorem row_mem (i : Instr) : i.row ∈ opcodeRows := by
  cases i <;> simp [Instr.row, opcodeRows]

/-- The word of a well-formed command fits the command's row (R125). -/
theorem row_fits_encode {i : Instr} (h : i.wf = true) : i.row.fits (encode i) = true := by
  cases i with
  | encStart p => exact Laws.Encoding.encStart p h
  | encode => exact Laws.Encoding.encode h
  | finish => exact Laws.Encoding.finish h
  | decStart p => exact Laws.Encoding.decStart p h
  | decode => exact Laws.Encoding.decode h
  | abort => exact Laws.Encoding.abort h

/-- The mask of the two rows of format S keeps every bit of OP and of RSV. -/
theorem opField_masked (w : Word) : opField (w &&& 0xFFFFFFFFFFFF80FF#64) = opField w := by
  rw [opField, BitVec.extractLsb'_and]
  exact BitVec.and_allOnes

theorem rsvFieldS_masked (w : Word) : rsvFieldS (w &&& 0xFFFFFFFFFFFF80FF#64) = rsvFieldS w := by
  rw [rsvFieldS, BitVec.extractLsb'_and]
  exact BitVec.and_allOnes

/-- That mask leaves out PREC alone, so what fits such a row is the format S word of its OP value and some PREC. -/
theorem eq_formatS_of_masked {w : Word} {op : BitVec 8} (h : w &&& 0xFFFFFFFFFFFF80FF#64 = formatS op 0) :
    w = formatS op (precField w).toNat := by
  have hop : opField w = op := by rw [← opField_masked, h, opField_formatS]
  have hrsv : rsvFieldS w = 0#49 := by rw [← rsvFieldS_masked, h, rsvFieldS_formatS]
  rw [← hop, formatS_fields hrsv]

/-- A row whose mask is all ones fits its own pattern only. -/
theorem eq_pattern_of_fits {r : OpcodeRow} {w : Word} (hmask : r.mask = BitVec.allOnes 64) (h : r.fits w = true) :
    w = r.pattern := by
  have := of_decide_eq_true h
  rwa [hmask, BitVec.and_allOnes] at this

/-- What fits a row of the table is the word of a well-formed command (R125). -/
theorem exists_encode_of_fits {r : OpcodeRow} {w : Word} (hr : r ∈ opcodeRows) (h : r.fits w = true) :
    ∃ i : Instr, i.wf = true ∧ w = encode i := by
  simp only [opcodeRows, List.mem_cons, List.not_mem_nil, or_false] at hr
  obtain rfl | rfl | rfl | rfl | rfl | rfl := hr
  · exact ⟨.encStart _, precField_wf w, eq_formatS_of_masked (of_decide_eq_true h)⟩
  · exact ⟨.encode, rfl, eq_pattern_of_fits (by decide) h⟩
  · exact ⟨.finish, rfl, eq_pattern_of_fits (by decide) h⟩
  · exact ⟨.decStart _, precField_wf w, eq_formatS_of_masked (of_decide_eq_true h)⟩
  · exact ⟨.decode, rfl, eq_pattern_of_fits (by decide) h⟩
  · exact ⟨.abort, rfl, eq_pattern_of_fits (by decide) h⟩

end Sys2Proof
end

section
/-! PROOFS. The expansions of the pseudo-instructions, what the assembler answers, and a host that does not move on
(30_encoding.md R129-R135). -/

namespace Sys2Proof.Machine

theorem immOf_of_lt {n : Nat} (h : n < 2 ^ 64) : immOf n = .ok (BitVec.ofNat 64 n) := if_pos h

theorem precOf_of_lt {p : Nat} (h : p < 128) : precOf p = .ok p := if_pos h

/-- A one-line program is the code of its line from instruction 0 on. -/
theorem assemble_singleton {x : Line} {c : List HostInstr} (h : x.code [x] 0 = .ok c) : assemble [x] = .ok c := by
  simp [assemble, assembleFrom, h]

/-- The line of a format S command expands to its operand write, its word as R132 gives it, and the wait loop. -/
theorem assemble_formatS {x : Line} {i : Instr} {op : BitVec 8} {p : Nat} {arg : Word} (hp : p < 128)
    (hx : x.code [x] 0 = .ok (operandCode 0 arg i)) (hi : encode i = formatS op p) :
    assemble [x] =
      .ok [.wr .arg0 arg, .wr .cmd ((BitVec.ofNat 64 p <<< 8) ||| op.setWidth 64), .rd .status, .jbs 3 2] := by
  rw [assemble_singleton hx, operandCode, commandCode, hi, formatS_eq_shift op hp]
  rfl

theorem assemble_encStart {p m : Nat} (hp : p < 128) (hm : m < 2 ^ 64) :
    assemble [.encStart p m] =
      .ok [.wr .arg0 (BitVec.ofNat 64 m), .wr .cmd ((BitVec.ofNat 64 p <<< 8) ||| 0x01#64), .rd .status, .jbs 3 2] :=
  assemble_formatS hp (i := .encStart p) (op := 0x01#8) (by rw [Line.code, precOf_of_lt hp, immOf_of_lt hm]; rfl) rfl

theorem assemble_decStart {p m : Nat} (hp : p < 128) (hm : m < 2 ^ 64) :
    assemble [.decStart p m] =
      .ok [.wr .arg0 (BitVec.ofNat 64 m), .wr .cmd ((BitVec.ofNat 64 p <<< 8) ||| 0x11#64), .rd .status, .jbs 3 2] :=
  assemble_formatS hp (i := .decStart p) (op := 0x11#8) (by rw [Line.code, precOf_of_lt hp, immOf_of_lt hm]; rfl) rfl

theorem assemble_encode {v : Nat} (hv : v < 2 ^ 64) :
    assemble [.encode v] = .ok [.wr .arg0 (BitVec.ofNat 64 v), .wr .cmd 0x02#64, .rd .status, .jbs 3 2] := by
  refine assemble_singleton ?_
  rw [Line.code, immOf_of_lt hv]
  rfl

theorem assemble_wr (reg : WinReg) {n : Nat} (hn : n < 2 ^ 64) :
    assemble [.wr reg n] = .ok [.wr reg (BitVec.ofNat 64 n)] := by
  refine assemble_singleton ?_
  rw [Line.code, immOf_of_lt hn]
  rfl

theorem definitions_append (l : Nat) (xs ys : List Line) :
    definitions l (xs ++ ys) = definitions l xs + definitions l ys :=
  List.countP_append

theorem definitions_label (l : Nat) (ys : List Line) : definitions l (.label l :: ys) = definitions l ys + 1 :=
  List.countP_cons_of_pos (by simp [Line.defines])

/-- A label defined exactly once is the number of instructions before its definition (R129). -/
theorem targetOf_append {l : Nat} {xs ys : List Line} (h : definitions l (xs ++ .label l :: ys) = 1) :
    targetOf (xs ++ .label l :: ys) l = .ok (xs.map Line.size).sum := by
  have hxs : definitions l xs = 0 := by
    rw [definitions_append, definitions_label] at h
    omega
  rw [targetOf, labelTarget_append l 0 xs ys hxs, Nat.zero_add]
  exact if_pos h

theorem assemble_checkOk (l : Nat) : assemble [.checkOk l, .label l] = .ok [.jbs 8 3, .jbs 9 3, .jbs 10 3] := by
  have hdef : definitions l [.checkOk l, .label l] = 1 := by simp [definitions, Line.defines]
  have htarget : targetOf [.checkOk l, .label l] l = .ok 3 := targetOf_append (xs := [.checkOk l]) (ys := []) hdef
  simp [assemble, assembleFrom, Line.code, hdef, htarget, Except.map]

/-- An accepted program keeps the rules at every line, and its length is its lines' sizes (R130). -/
theorem assemble_ok {lines : List Line} {prog : List HostInstr} (h : assemble lines = .ok prog) :
    (∀ x ∈ lines, x.keepsRules lines = true) ∧ prog.length = (lines.map Line.size).sum := by
  have := assembleFrom_spec lines 0 0 lines
  rw [← assemble, h] at this
  exact this

/-- A refusal names a line that breaks the rules (R130). -/
theorem assemble_error {lines : List Line} {e : AsmError} (h : assemble lines = .error e) :
    ∃ x, lines[e.line]? = some x ∧ x.keepsRules lines = false := by
  have := assembleFrom_spec lines 0 0 lines
  rw [← assemble, h] at this
  obtain ⟨k, x, hk, hx⟩ := this
  rw [Nat.zero_add] at hk
  exact ⟨x, hk ▸ hx⟩

theorem assemble_ok_iff (lines : List Line) :
    (∃ prog, assemble lines = .ok prog) ↔ ∀ x ∈ lines, x.keepsRules lines = true := by
  refine ⟨fun ⟨_, h⟩ => (assemble_ok h).1, fun hkeeps => ?_⟩
  cases h : assemble lines with
  | ok prog => exact ⟨prog, rfl⟩
  | error e =>
    obtain ⟨x, hx, hbreaks⟩ := assemble_error h
    rw [hkeeps x (List.mem_of_getElem? hx)] at hbreaks
    cases hbreaks

/-- A `jmp` on the last line goes to its label, wherever the label stands (R129). -/
theorem assemble_jmp_last {xs ys : List Line} {l : Nat} {prog : List HostInstr}
    (h : assemble (xs ++ .label l :: ys ++ [.jmp l]) = .ok prog) :
    prog.getLast? = some (.jmp (xs.map Line.size).sum) := by
  have hdef : definitions l (xs ++ .label l :: (ys ++ [.jmp l])) = 1 := by
    have := (assemble_ok h).1 (.label l) (by simp)
    simpa [Line.keepsRules] using this
  obtain ⟨before, code, at_, hcode, rfl⟩ := assembleFrom_last h
  obtain ⟨n, hn, rfl⟩ := map_eq_ok.mp hcode
  rw [List.append_assoc, List.cons_append, targetOf_append hdef] at hn
  cases hn
  exact List.getLast?_concat

/-- After `halt`, and with no next line, the host does nothing (R129; log 13). -/
theorem hostStep_idle {s : State} (h : s.host.halted = true ∨ s.host.prog[s.host.pc]? = none) : hostStep s = s := by
  rcases h with hhalted | hline
  · exact if_pos hhalted
  · simp only [hostStep, hline, ite_self]

end Sys2Proof.Machine
end

section
/-! PROOFS. The statements of 30_encoding.md. -/

namespace Sys2Proof.Machine

/-- Settles O1, by the fields of the word. -/
theorem decodingUndoesEncoding : Obligations.DecodingUndoesEncoding := fun _ => decode_encode

/-- Settles O2: the command's own word fits the command's row. -/
theorem decodedWordIsTheCommandsWord : Obligations.DecodedWordIsTheCommandsWord := by
  intro w i h
  obtain ⟨hwf, rfl⟩ := encode_of_decode h
  exact ⟨hwf, rfl, row_mem i, row_fits_encode hwf⟩

/-- Settles O3: a word that decodes fits its command's row, and one that fits a row is the word of a command. -/
theorem illegalWordsFitNoRow : Obligations.IllegalWordsFitNoRow := by
  intro w
  constructor
  · rintro ⟨e, he⟩ r hr
    by_contra hfits
    obtain ⟨i, hwf, rfl⟩ := exists_encode_of_fits hr (eq_true_of_ne_false hfits)
    rw [decode_encode hwf] at he
    cases he
  · intro hnone
    cases hd : decode w with
    | error e => exact ⟨e, rfl⟩
    | ok i =>
      obtain ⟨hwf, rfl⟩ := encode_of_decode hd
      exact absurd (row_fits_encode hwf) (ne_true_of_eq_false (hnone _ (row_mem i)))

/-- Settles O4: each word is a literal. -/
theorem sampleWordsDecode : Obligations.SampleWordsDecode := by
  unfold Obligations.SampleWordsDecode
  decide

/-- Settles O58: one lemma for each expansion with operands, the others by computing; then what the assembler answers. -/
theorem pseudoInstructionsExpand : Obligations.PseudoInstructionsExpand :=
  ⟨fun _ _ hp hm =>
    ⟨assemble_encStart hp hm, assemble_encode hm, rfl, assemble_decStart hp hm, rfl, rfl⟩,
    rfl, rfl, assemble_checkOk,
    fun reg _ hm => ⟨assemble_wr reg hm, Nat.mod_eq_of_lt hm⟩,
    fun lines => ⟨assemble_ok_iff lines, fun _ h => assemble_error h⟩,
    fun _ _ h => (assemble_ok h).2,
    fun _ _ _ _ h => assemble_jmp_last h⟩

/-- Settles O59: where the host moves, the step is its line's, if it has one; each jump is its own equation. -/
theorem hostJumps : Obligations.HostJumps := by
  refine ⟨fun s u i hm hr => ?_, fun s u hm hidle => ?_, fun s => rfl, fun s k n => ⟨rfl, rfl, rfl⟩⟩
  · rw [hostMoves_step hm, hostStep_runs (hostMoves_runs hm hr)]
  · have hhost : u.host = s.host := by rw [hostMoves_eq hm]
    rw [hostMoves_step hm, hostStep_idle (hhost ▸ hidle)]

end Sys2Proof.Machine
end

section
/-! PROOFS. Where a command's run stops at an answer of the model: a broken check of R156 or R157, or a request that is not
answered (40_model_port.md R161). -/

namespace Sys2Proof.Machine

/-- The check of a FREQ_OK answer, in the words of R156. -/
theorem freqOkValid_iff {cl ch t maxtot : Word} :
    freqOkValid cl ch t maxtot = true ↔ cl.toNat < ch.toNat ∧ ch.toNat ≤ t.toNat ∧ t.toNat ≤ maxtot.toNat := by
  simp [freqOkValid, and_assoc]

/-- The check of a TOTAL answer, in the words of R157. -/
theorem totalValid_iff {t maxtot : Word} : totalValid t maxtot = true ↔ 1 ≤ t.toNat ∧ t.toNat ≤ maxtot.toNat := by
  simp [totalValid]

/-- The check of a SYMBOL answer, in the words of R157. -/
theorem symbolValid_iff {a : SymbolAnswer} {v t : Word} :
    symbolValid a v t = true ↔ a.cl.toNat ≤ v.toNat ∧ v.toNat < a.ch.toNat ∧ a.ch.toNat ≤ t.toNat := by
  simp [symbolValid, and_assoc]

theorem streamUsedUp_iff {s : State} :
    streamUsedUp s = true ↔ s.regs.exhausted = true ∧ s.precision ≤ s.regs.padcnt.toNat := by
  simp [streamUsedUp]

/-- In a decode session CODE is where VALUE needs it (R57, R173). -/
theorem State.Inv.code_inside {s : State} (hs : s.Inv) (hd : s.regs.state = .dec) :
    s.regs.low.toNat ≤ s.regs.code.toNat ∧ s.regs.code.toNat ≤ s.regs.high.toNat ∧
      s.regs.high.toNat ≤ top s.precision := by
  obtain ⟨hlow, hhigh⟩ := hs.regs.inside hd
  exact ⟨hlow, hhigh, (hs.regs.within (by rw [hd]; rfl)).2⟩

/-- ENCODE stops at a FREQ_OK answer that breaks its check (R156). -/
theorem encodeBody_bad_freq {s : State} {cl ch t : Word} {fs : List FreqAnswer} (he : s.regs.state = .enc)
    (hf : s.ports.freq = .freqOk cl ch t :: fs) (hv : freqOkValid cl ch t s.regs.maxtot = false) :
    encodeBody s = .raised .modelProtocol
      (record (.freq s.argL (.freqOk cl ch t)) { s with ports := { s.ports with freq := fs } }) := by
  simp [encodeBody, he, askFreq, symbolOperand, hf, hv]

theorem encodeBody_no_freq {s : State} (he : s.regs.state = .enc) (hf : s.ports.freq = []) :
    encodeBody s = .stalled (.freq s.argL) s := by
  simp [encodeBody, he, askFreq, symbolOperand, hf]

/-- DECODE stops at a TOTAL answer that breaks its check (R157). -/
theorem decodeBody_bad_total {s : State} {t : Word} {ts : List Word} (hd : s.regs.state = .dec)
    (hu : streamUsedUp s = false) (ht : s.ports.total = t :: ts) (hv : totalValid t s.regs.maxtot = false) :
    decodeBody s = .raised .modelProtocol (record (.total t) { s with ports := { s.ports with total := ts } }) := by
  simp [decodeBody, hd, hu, askTotal, ht, hv]

theorem decodeBody_no_total {s : State} (hd : s.regs.state = .dec) (hu : streamUsedUp s = false)
    (ht : s.ports.total = []) : decodeBody s = .stalled .total s := by
  simp [decodeBody, hd, hu, askTotal, ht]

/-- What holds where DECODE's TOTAL answer has passed its check: the cumulative value it asks about is `v` (R157, R173). -/
structure AfterTotal (s : State) (t : Word) (ts : List Word) (v : Word) : Prop where
  state : s.regs.state = .dec
  stream : streamUsedUp s = false
  code : s.regs.low.toNat ≤ s.regs.code.toNat ∧ s.regs.code.toNat ≤ s.regs.high.toNat ∧
    s.regs.high.toNat ≤ top s.precision
  total : s.ports.total = t :: ts
  valid : totalValid t s.regs.maxtot = true
  value : v = BitVec.ofNat 64 (s.interval.value s.regs.code.toNat t.toNat)

/-- DECODE from a good TOTAL answer on is its SYMBOL request (R235). -/
theorem AfterTotal.body {s : State} {t : Word} {ts : List Word} {v : Word} (h : AfterTotal s t ts v) :
    decodeBody s = (askSymbol v t (record (.total t) { s with ports := { s.ports with total := ts } })).andThen
      fun a u => resolveSymbol a v t u := by
  obtain ⟨u, rfl, hbody⟩ := decodeBody_total h.state h.stream h.total h.valid h.code
  rw [hbody, ← h.value]

theorem AfterTotal.no_symbol {s : State} {t : Word} {ts : List Word} {v : Word} (h : AfterTotal s t ts v)
    (ha : s.ports.symbol = []) :
    decodeBody s =
      .stalled (.symbol v t) (record (.total t) { s with ports := { s.ports with total := ts } }) := by
  simp [h.body, askSymbol, ha]

theorem AfterTotal.symbol {s : State} {t : Word} {ts : List Word} {v : Word} (h : AfterTotal s t ts v)
    {a : SymbolAnswer} {as : List SymbolAnswer} (ha : s.ports.symbol = a :: as) :
    decodeBody s = resolveSymbol a v t { s with
      ports := { s.ports with total := ts, symbol := as }, live := s.live ++ [.total t] ++ [.symbol v t a] } := by
  simp [h.body, askSymbol, ha, record]

/-- DECODE stops at a SYMBOL answer that breaks its check (R157). -/
theorem resolveSymbol_bad {s : State} {a : SymbolAnswer} {v t : Word} (hv : symbolValid a v t = false) :
    resolveSymbol a v t s = .raised .modelProtocol s := by
  rw [resolveSymbol, hv, require_false, andThen_raised]

end Sys2Proof.Machine
end

section
/-! PROOFS. Where a command's run waits at the sink or the source: the bits served before are written or read, and the next
request is not answered (44_bit_adaptors.md R261, R264, R266, R270; 41_interval_core.md R180-R182). -/

namespace Sys2Proof.Machine

/-- SinkWrite of each bit of a list, in order. -/
def writeAll : List Bool → State → Flow Unit
  | [], s => .go () s
  | b :: bits, s => (sinkWrite b s).andThen fun _ s => writeAll bits s

theorem sinkRepeat_eq_writeAll (b : Bool) (n : Nat) (s : State) : sinkRepeat b n s = writeAll (List.replicate n b) s := by
  induction n generalizing s with
  | zero => rfl
  | succ n ih => simp only [sinkRepeat, List.replicate_succ, writeAll, ih]

theorem emit_eq_writeAll (b : Bool) (n : Nat) (s : State) : emit b n s = writeAll (b :: List.replicate n (!b)) s := by
  simp only [emit, writeAll, sinkRepeat_eq_writeAll]

theorem sinkServes_replicate {m n : Nat} (h : m ≤ n) : sinkServes m (List.replicate n .ok) = true := by
  simp [sinkServes, List.take_replicate, h]

/-- With answers for the first `k` bits only, writing a list waits at bit `k` (R261, R264). -/
theorem writeAll_stalled {bits : List Bool} {k : Nat} (hk : k < bits.length) {s : State}
    (hs : s.ports.sink = List.replicate k .ok) :
    writeAll bits s = .stalled (.writeBit bits[k]) (wroteBits (bits.take k) s) := by
  induction bits generalizing k s with
  | nil => exact absurd hk (Nat.not_lt_zero k)
  | cons b bits ih =>
    cases k with
    | zero => simp [writeAll, sinkWrite, askWriteBit, hs]
    | succ k =>
      have hserves : sinkServes 1 s.ports.sink = true := hs ▸ sinkServes_replicate (Nat.le_add_left 1 k)
      have hrest : (wroteBits [b] s).ports.sink = List.replicate k .ok := by simp [hs]
      rw [writeAll, sinkWrite_ok b hserves, andThen_go, ih (Nat.lt_of_succ_lt_succ hk) hrest, wroteBits_append]
      rfl

/-- The side action of a step that writes waits at the first bit with no answer (R181). -/
theorem sideAction_stalled {g : Regime} {s : State} {k : Nat} (hk : k < (stepBits s.regs.pending.toNat g).length)
    (hs : s.ports.sink = List.replicate k .ok) :
    sideAction g s = .stalled (.writeBit (stepBits s.regs.pending.toNat g)[k])
      (wroteBits ((stepBits s.regs.pending.toNat g).take k) s) := by
  cases g with
  | e1 => rw [sideAction, emit_eq_writeAll]; exact congrArg (Flow.andThen · _) (writeAll_stalled hk hs)
  | e2 => rw [sideAction, emit_eq_writeAll]; exact congrArg (Flow.andThen · _) (writeAll_stalled hk hs)
  | e3 => exact absurd hk (Nat.not_lt_zero k)

/-- A list of regimes that begins with `g`: the interval's regime is `g`, and the others are those of its transform. -/
theorem regimes_eq_cons {p fuel : Nat} {x : Interval} {g : Regime} {gs : List Regime} (h : regimes p fuel x = g :: gs) :
    ∃ n, fuel = n + 1 ∧ classify p x = some g ∧ regimes p n (g.transform p x) = gs := by
  cases fuel with
  | zero => cases h
  | succ n =>
    cases hc : classify p x with
    | none => rw [regimes_none (n + 1) hc] at h; cases h
    | some g' =>
      rw [regimes_some n hc] at h
      cases h
      exact ⟨n, rfl, rfl, rfl⟩

theorem encBits_append (pend : Nat) (gs hs : List Regime) :
    encBits pend (gs ++ hs) = encBits pend gs ++ encBits (encPending pend gs) hs := by
  induction gs generalizing pend with
  | nil => rfl
  | cons g gs ih => rw [List.cons_append, encBits_cons, encBits_cons, encPending_cons, ih, List.append_assoc]

/-- Where RENORM(ENC) can start: what its steps keep, so that no register overflows (R33, R36). -/
structure EncReady (s : State) : Prop where
  precision : 2 ≤ s.precision ∧ s.precision ≤ 64
  build : s.build.wf = true
  within : s.interval.within s.precision
  pending : s.regs.pending.toNat ≤ pendingLimit s.build

/-- The state after RENORM(ENC) has made the steps `gs`, with all their bits accepted (R181, R182). -/
def encSteps (gs : List Regime) (s : State) : State :=
  setInterval (renormalized s.precision s.interval gs)
    (setPending (BitVec.ofNat 64 (encPending s.regs.pending.toNat gs))
      (wroteBits (encBits s.regs.pending.toNat gs) s))

@[simp] theorem encSteps_nil (s : State) : encSteps [] s = s := by simp [encSteps, encBits, encPending]

/-- One step of RENORM(ENC) that is served, and what it keeps (R182). -/
theorem EncReady.step {s : State} (h : EncReady s) {g : Regime} (hg : classify s.precision s.interval = some g)
    (hf : g = .e3 → s.regs.pending.toNat ≠ pendingLimit s.build)
    (hs : sinkServes (stepBits s.regs.pending.toNat g).length s.ports.sink = true) (n : Nat) :
    renormEnc (n + 1) s = renormEnc n (encSteps [g] s) ∧ EncReady (encSteps [g] s) ∧
      (encSteps [g] s).interval = g.transform s.precision s.interval ∧
      (encSteps [g] s).regs.pending.toNat = stepPending s.regs.pending.toNat g := by
  obtain ⟨⟨hp, hp'⟩, hb, hx, hpend⟩ := h
  have hw := (transform_within hp hx hg).1
  obtain ⟨hlo, hhi⟩ := within_lt hp hp' hw
  have hle := stepPending_le hpend hf
  have hlt := pendingLimit_lt hb
  have hstep : encSteps [g] s = setInterval (g.transform s.precision s.interval)
      (setPending (BitVec.ofNat 64 (stepPending s.regs.pending.toNat g))
        (wroteBits (stepBits s.regs.pending.toNat g) s)) := by
    simp [encSteps, encBits_cons, encPending_cons, encBits, encPending]
  have hinterval : (encSteps [g] s).interval = g.transform s.precision s.interval := by
    rw [hstep, interval_setInterval _ hlo hhi]
  have hpending : (encSteps [g] s).regs.pending.toNat = stepPending s.regs.pending.toNat g := by
    rw [hstep]; simp; omega
  refine ⟨?_, ⟨⟨hp, hp'⟩, hb, hinterval ▸ hw, hpending ▸ hle⟩, hinterval, hpending⟩
  have hregime : s.regime = some g := hg
  simp only [renormEnc, hregime]
  rw [sideAction_ok g hf hs, andThen_go, hstep]
  rfl

/-- RENORM(ENC) over the first steps `done`, with a sink that accepts their bits and PENDING that fits: it goes on from
`encSteps done` (R181, R182). -/
theorem EncReady.renormEnc_of_regimes_append {done rest : List Regime} {fuel : Nat} {s : State} (h : EncReady s)
    (hr : regimes s.precision fuel s.interval = done ++ rest)
    (hfit : pendingFits (pendingLimit s.build) s.regs.pending.toNat done = true)
    (hs : sinkServes (encBits s.regs.pending.toNat done).length s.ports.sink = true) :
    ∃ n, renormEnc fuel s = renormEnc n (encSteps done s) ∧ EncReady (encSteps done s) ∧
      regimes s.precision n (encSteps done s).interval = rest ∧
      (encSteps done s).regs.pending.toNat = encPending s.regs.pending.toNat done := by
  induction done generalizing fuel s with
  | nil => exact ⟨fuel, by rw [encSteps_nil], by rwa [encSteps_nil], by rwa [encSteps_nil], by rw [encSteps_nil]; rfl⟩
  | cons g gs ih =>
    obtain ⟨n, rfl, hg, htail⟩ := regimes_eq_cons hr
    rw [pendingFits_cons, Bool.and_eq_true] at hfit
    obtain ⟨hfit1, hfits⟩ := hfit
    rw [encBits_cons, List.length_append] at hs
    obtain ⟨hs1, hs2⟩ := sinkServes_split hs
    obtain ⟨hrun, hready, hinterval, hpending⟩ := h.step hg (by rintro rfl; simpa using hfit1) hs1 n
    have hcons : encSteps gs (encSteps [g] s) = encSteps (g :: gs) s := by
      rw [encSteps, hinterval, hpending]
      rw [show (encSteps [g] s).precision = s.precision from rfl]
      simp only [encSteps, encBits_cons, encPending_cons, encBits, encPending, List.append_nil, renormalized_cons,
        renormalized_nil, encoder_overwrite]
    rw [← hpending] at hfits hs2
    obtain ⟨m, hm, hready', htail', hpending'⟩ := ih hready (by rw [hinterval]; exact htail) hfits
      (by simpa [encSteps, encBits_cons, encBits] using hs2)
    rw [hcons] at hm hready' htail' hpending'
    exact ⟨m, hrun.trans hm, hready', htail', by rw [hpending', hpending, encPending_cons]⟩

/-- RENORM(ENC) waits at the first bit with no answer, which the step `g` writes (R181, R264). -/
theorem EncReady.renormEnc_stalled {done later : List Regime} {g : Regime} {fuel k pend : Nat} {s : State}
    (h : EncReady s) (hpend : s.regs.pending.toNat = pend)
    (hr : regimes s.precision fuel s.interval = done ++ g :: later)
    (hfit : pendingFits (pendingLimit s.build) pend done = true) (hdone : (encBits pend done).length ≤ k)
    (hk : k < (encBits pend (done ++ [g])).length) (hs : s.ports.sink = List.replicate k .ok) :
    ∃ u, renormEnc fuel s = .stalled (.writeBit (encBits pend (done ++ [g]))[k]) u ∧
      u.live = s.live ++ ((encBits pend (done ++ [g])).take k).map fun b => .writeBit b .ok := by
  subst hpend
  obtain ⟨n, hrun, hready, htail, hpending⟩ := h.renormEnc_of_regimes_append hr hfit (hs ▸ sinkServes_replicate hdone)
  obtain ⟨m, rfl, hg, -⟩ := regimes_eq_cons htail
  have hbits : encBits s.regs.pending.toNat (done ++ [g]) = encBits s.regs.pending.toNat done ++
      stepBits (encSteps done s).regs.pending.toNat g := by
    rw [encBits_append, encBits_cons, hpending]
    simp [encBits]
  simp only [hbits, List.length_append] at hk ⊢
  have hsink : (encSteps done s).ports.sink = List.replicate (k - (encBits s.regs.pending.toNat done).length) .ok := by
    simp [encSteps, hs]
  have hwait := sideAction_stalled (g := g) (by omega) hsink
  have hregime : (encSteps done s).regime = some g := hg
  refine ⟨_, by simp only [hrun, renormEnc, hregime, hwait, andThen_stalled, List.getElem_append_right hdone]; rfl, ?_⟩
  rw [List.take_append, List.take_of_length_le hdone, List.map_append, ← List.append_assoc]
  rfl

theorem nextBit_bit {s : State} {b : Bool} {rest : List SourceAnswer} (hx : s.regs.exhausted = false)
    (hr : s.ports.source = .bit b :: rest) :
    nextBit s = .go b (countBit (record (.readBit (.bit b)) { s with ports := { s.ports with source := rest } })) := by
  simp [nextBit, hx, askReadBit, hr]

theorem nextBit_stalled {s : State} (hx : s.regs.exhausted = false) (hr : s.ports.source = []) :
    nextBit s = .stalled .readBit s := by
  simp [nextBit, hx, askReadBit, hr]

/-- The fill of CODE waits after the bits of a source that serves fewer than it needs (R230, R270). -/
theorem fillCode_stalled {stream : List Bool} {n : Nat} {s : State} (hx : s.regs.exhausted = false)
    (hn : stream.length < n) (hr : s.ports.source = stream.map .bit) :
    ∃ u, fillCode n s = .stalled .readBit u ∧ u.live = s.live ++ stream.map fun b => .readBit (.bit b) := by
  induction stream generalizing n s with
  | nil =>
    obtain ⟨m, rfl⟩ := Nat.exists_eq_add_one_of_ne_zero (Nat.ne_zero_of_lt hn)
    exact ⟨s, by rw [fillCode, nextBit_stalled hx hr, andThen_stalled], (List.append_nil _).symm⟩
  | cons b bits ih =>
    obtain ⟨m, rfl⟩ := Nat.exists_eq_add_one_of_ne_zero (Nat.ne_zero_of_lt hn)
    rw [fillCode, nextBit_bit hx hr, andThen_go]
    generalize hv : setCode _ _ = v
    obtain ⟨u, hu, hlive⟩ := ih (s := v) (by rw [← hv]; exact hx) (Nat.lt_of_succ_lt_succ hn) (by rw [← hv]; rfl)
    exact ⟨u, hu, by rw [hlive, ← hv]; simp⟩

/-- RENORM(DEC) waits at READ_BIT after the bits of a source that serves fewer than its steps (R180, R182, R270). -/
theorem renormDec_stalled {stream : List Bool} {fuel : Nat} {s : State} (hp : 2 ≤ s.precision ∧ s.precision ≤ 64)
    (hw : s.interval.within s.precision) (hx : s.regs.exhausted = false)
    (hn : stream.length < (regimes s.precision fuel s.interval).length) (hr : s.ports.source = stream.map .bit) :
    ∃ u, renormDec fuel s = .stalled .readBit u ∧ u.live = s.live ++ stream.map fun b => .readBit (.bit b) := by
  induction stream generalizing fuel s with
  | nil =>
    obtain ⟨g, gs, hgs⟩ := List.exists_cons_of_length_pos hn
    obtain ⟨n, rfl, hg, -⟩ := regimes_eq_cons hgs
    have hregime : s.regime = some g := hg
    refine ⟨applyTransform g s, ?_, (List.append_nil _).symm⟩
    simp only [renormDec, hregime, shiftCode]
    rw [nextBit_stalled (s := applyTransform g s) hx hr, andThen_stalled, andThen_stalled]
  | cons b bits ih =>
    obtain ⟨g, gs, hgs⟩ := List.exists_cons_of_length_pos (Nat.zero_lt_of_lt hn)
    obtain ⟨n, rfl, hg, htail⟩ := regimes_eq_cons hgs
    have hregime : s.regime = some g := hg
    have hwithin := (transform_within hp.1 hw hg).1
    obtain ⟨hlo, hhi⟩ := within_lt hp.1 hp.2 hwithin
    simp only [renormDec, hregime, shiftCode]
    rw [nextBit_bit (s := applyTransform g s) hx hr, andThen_go, andThen_go]
    generalize hv : setCode _ _ = v
    have hinterval : v.interval = g.transform s.precision s.interval := by
      rw [← hv]; exact interval_setInterval s hlo hhi
    have hprecision : v.precision = s.precision := by rw [← hv]; rfl
    rw [hgs, List.length_cons, List.length_cons, ← htail] at hn
    obtain ⟨u, hu, hlive⟩ := ih (s := v) (fuel := n) (by rwa [hprecision]) (by rwa [hprecision, hinterval])
      (by rw [← hv]; exact hx) (by rw [hprecision, hinterval]; omega) (by rw [← hv]; rfl)
    exact ⟨u, hu, by rw [hlive, ← hv]; simp [applyTransform]⟩

/-- FINISH waits at the first bit of the termination with no answer, or at the FLUSH (R215, R264). -/
theorem finishBody_stalled {s : State} {bits : List Bool} {k : Nat} (he : s.regs.state = .enc)
    (hlimit : s.regs.pending.toNat < pendingLimit s.build) (hb : s.build.wf = true)
    (hbits : bits = terminationBit s :: List.replicate (s.regs.pending.toNat + 1) (!terminationBit s))
    (hk : k ≤ bits.length) (hs : s.ports.sink = List.replicate k .ok) :
    ∃ u, finishBody s = .stalled (if h : k < bits.length then .writeBit bits[k] else .flush) u ∧
      u.live = s.live ++ (bits.take k).map fun b => .writeBit b .ok := by
  obtain ⟨u, hu, hbody⟩ := finishBody_ok he hlimit.ne
  have hsink : u.ports.sink = List.replicate k .ok := by rw [hu]; exact hs
  have hlive : u.live = s.live := by rw [hu]; rfl
  have hpending : (s.regs.pending + 1).toNat = s.regs.pending.toNat + 1 := by
    have := pendingLimit_lt hb
    simp; omega
  rw [hpending, emit_eq_writeAll, ← hbits] at hbody
  by_cases hlt : k < bits.length
  · exact ⟨_, by rw [hbody, writeAll_stalled hlt hsink, dif_pos hlt]; rfl, by rw [wroteBits_live, hlive]⟩
  · obtain rfl : k = bits.length := by omega
    have hwrite : writeAll bits u = .go () (wroteBits bits u) := by
      rw [hbits, ← emit_eq_writeAll]
      refine emit_ok _ _ ?_
      rw [hsink, hbits, List.length_cons, List.length_replicate]
      exact sinkServes_replicate (le_refl _)
    have hflush : sinkFlush (setPending 0 (wroteBits bits u)) = .stalled .flush (setPending 0 (wroteBits bits u)) := by
      simp [sinkFlush, askFlush, hsink]
    exact ⟨_, by rw [hbody, hwrite, andThen_go, hflush, dif_neg hlt]; rfl,
      by rw [List.take_length, setPending_live, wroteBits_live, hlive]⟩

end Sys2Proof.Machine
end

section
/-! PROOFS. Commands at a request that is not answered, from their first line (42_encoder.md R205; 43_decoder.md R230, R235;
45_host_commands.md R281). -/

namespace Sys2Proof.Machine

/-- A command whose run comes to an unanswered request waits at it, after the transactions it has made. -/
theorem runCommand_waits {body : State → Flow Ending} {s u : State} {q : Request}
    (h : body (fresh s) = .stalled q u) : runCommand body s = .next (s.waitsAt q u.live) :=
  runCommand_stalled h

/-- A command that waits begins again from the state in which it began. -/
theorem fresh_suspend {s : State} (hb : s.busy = true) (q : Request) (u : State) : fresh (suspend q u s) = fresh s := by
  simp [fresh, suspend, hb]

/-- A command that waits has changed nothing, and running it again changes nothing more (R281, R286; log 3). -/
theorem exec_waiting {i : Instr} {s t : State} (hb : s.busy = true) (h : exec i s = .next t) (ht : t.busy = true) :
    t.regs = s.regs ∧ t.ports = s.ports ∧ t.outstanding ≠ none ∧ exec i t = .next t := by
  rw [exec_eq_runCommand] at h ⊢
  rcases runCommand_next h with ⟨x, u, -, rfl⟩ | ⟨e, u, -, rfl⟩ | ⟨q, u, hbody, rfl⟩
  · cases ht
  · cases ht
  · refine ⟨rfl, rfl, nofun, ?_⟩
    rw [← fresh_suspend hb q u] at hbody
    exact runCommand_waits hbody

/-- NARROW in a live session, in any state with the registers of one that meets the invariant (R172, R175). -/
theorem State.Inv.narrow_live {s : State} (hs : s.Inv) (hl : s.regs.state.live = true) {cl ch t : Word}
    (hlow : cl.toNat < ch.toNat) (hhigh : ch.toNat ≤ t.toNat) (htotal : t.toNat ≤ s.regs.maxtot.toNat) {u : State}
    (hu : u.regs = s.regs) :
    narrow cl ch t u = .go () (setInterval (s.interval.narrow cl.toNat ch.toNat t.toNat) u) ∧
      (2 ≤ s.precision ∧ s.precision ≤ 64) ∧
      (s.interval.narrow cl.toNat ch.toNat t.toNat).within s.precision ∧
      (setInterval (s.interval.narrow cl.toNat ch.toNat t.toNat) u).interval =
        s.interval.narrow cl.toNat ch.toNat t.toNat := by
  obtain ⟨hp, hp', -, hmax⟩ := hs.regs.bounds hs.build hl
  have hinterval : u.interval = s.interval := by rw [State.interval, hu]; rfl
  have hprecision : u.precision = s.precision := by rw [State.precision, hu]; rfl
  obtain ⟨hrun, hw⟩ := narrow_ok (s := u) (hprecision ▸ hp) (by rw [hinterval, hprecision]; exact hs.regs.interval hl)
    hlow hhigh (hprecision ▸ htotal.trans hmax)
  rw [hinterval] at hrun hw
  rw [hprecision] at hw
  obtain ⟨hlo, hhi⟩ := within_lt hp hp' hw
  exact ⟨hrun, ⟨hp, hp'⟩, hw, interval_setInterval u hlo hhi⟩

/-- ENCODE waits at the first WRITE_BIT with no answer (R205, R181, R264). -/
theorem encode_waits_at_writeBit {s : State} {cl ch t : Word} {fs : List FreqAnswer} {done later : List Regime}
    {g : Regime} {k : Nat} (hs : s.Inv) (he : s.regs.state = .enc) (hf : s.ports.freq = .freqOk cl ch t :: fs)
    (hlow : cl.toNat < ch.toNat) (hhigh : ch.toNat ≤ t.toNat) (htotal : t.toNat ≤ s.regs.maxtot.toNat)
    (hr : regimes s.precision s.precision (s.interval.narrow cl.toNat ch.toNat t.toNat) = done ++ g :: later)
    (hfit : pendingFits (pendingLimit s.build) s.regs.pending.toNat done = true)
    (hdone : (encBits s.regs.pending.toNat done).length ≤ k)
    (hk : k < (encBits s.regs.pending.toNat (done ++ [g])).length) (hsink : s.ports.sink = List.replicate k .ok) :
    exec .encode s = .next (s.waitsAt (.writeBit (encBits s.regs.pending.toNat (done ++ [g]))[k])
      (.freq s.argL (.freqOk cl ch t) ::
        ((encBits s.regs.pending.toNat (done ++ [g])).take k).map fun b => .writeBit b .ok)) := by
  obtain ⟨u, hu, hbody⟩ := encodeBody_ok (s := fresh s) he hf (freqOkValid_iff.mpr ⟨hlow, hhigh, htotal⟩)
  obtain ⟨hrun, hp, hw, hinterval⟩ := hs.narrow_live (by rw [he]; rfl) hlow hhigh htotal (u := u) (by rw [hu]; rfl)
  subst hu
  rw [hrun, andThen_go] at hbody
  generalize hv : setInterval _ _ = v at hbody hinterval
  have hprecision : v.precision = s.precision := by rw [← hv]; rfl
  have hpending : v.regs.pending.toNat = s.regs.pending.toNat := by rw [← hv]; rfl
  have hbuild : v.build = s.build := by rw [← hv]; rfl
  have hready : EncReady v := by
    refine ⟨hprecision ▸ hp, hbuild ▸ hs.build, by rwa [hinterval, hprecision], ?_⟩
    rw [hpending, hbuild]
    exact hs.regs.pending
  rw [← hprecision, ← hinterval] at hr
  rw [← hbuild] at hfit
  obtain ⟨w, hwait, hlive⟩ := hready.renormEnc_stalled hpending hr hfit hdone hk (by rw [← hv]; exact hsink)
  rw [hwait, andThen_stalled] at hbody
  have hwaits := runCommand_waits hbody
  rw [hlive, ← hv] at hwaits
  exact hwaits

/-- DEC_START waits after the bits of a source that serves fewer than P (R230, R270). -/
theorem decStart_waits_at_readBit {s : State} {p : Nat} {stream : List Bool} (hne : s.regs.state ≠ .enc)
    (hnd : s.regs.state ≠ .dec) (hp : 2 ≤ p) (hp' : p ≤ s.build.pmax) (hm : 1 ≤ s.argL.toNat)
    (hm' : s.argL.toNat ≤ 2 ^ (p - 2)) (hlt : stream.length < p) (hr : s.ports.source = stream.map .bit) :
    exec (.decStart p) s = .next (s.waitsAt .readBit (stream.map fun b => .readBit (.bit b))) := by
  have hlive : s.regs.state.live = false := by cases h : s.regs.state <;> simp_all [Session.live]
  obtain ⟨u, rfl, hbody⟩ := decStartBody_ok (s := fresh s) hlive (show precisionOk s.build p s.argL = true by
    simp [precisionOk, hp, hp', hm, hm'])
  obtain ⟨v, hfill, hmade⟩ := fillCode_stalled (s := beginSession .decode p (fresh s).argL (fresh s)) rfl hlt hr
  rw [hfill, andThen_stalled] at hbody
  have hwaits := runCommand_waits hbody
  rw [hmade] at hwaits
  exact hwaits

/-- DECODE waits at the first READ_BIT with no answer (R235, R180, R270). -/
theorem decode_waits_at_readBit {s : State} {t v : Word} {ts : List Word} {a : SymbolAnswer} {as : List SymbolAnswer}
    {stream : List Bool} (hs : s.Inv) (h : AfterTotal (fresh s) t ts v)
    (ha : s.ports.symbol = a :: as) (hvalid : symbolValid a v t = true) (hx : s.regs.exhausted = false)
    (hlt : stream.length <
      (regimes s.precision s.precision (s.interval.narrow a.cl.toNat a.ch.toNat t.toNat)).length)
    (hr : s.ports.source = stream.map .bit) :
    exec .decode s = .next (s.waitsAt .readBit
      (.total t :: .symbol v t a :: stream.map fun b => .readBit (.bit b))) := by
  obtain ⟨hcl, hch, hct⟩ := symbolValid_iff.mp hvalid
  obtain ⟨-, hmax⟩ := totalValid_iff.mp h.valid
  have hbody := (h.symbol ha).trans (resolveSymbol_ok hvalid)
  generalize hu : ({ fresh s with ports := _, live := _ } : State) = u at hbody
  obtain ⟨hrun, hp, hw, hinterval⟩ := hs.narrow_live (by rw [show s.regs.state = .dec from h.state]; rfl)
    (hcl.trans_lt hch) hct hmax (u := u) (by rw [← hu]; rfl)
  rw [hrun, andThen_go] at hbody
  generalize hv : setInterval _ _ = v at hbody hinterval
  have hprecision : v.precision = s.precision := by rw [← hv, ← hu]; rfl
  rw [← hprecision] at hp hw hlt
  rw [← hinterval] at hw hlt
  obtain ⟨w, hwait, hlive⟩ :=
    renormDec_stalled hp hw (by rw [← hv, ← hu]; exact hx) hlt (by rw [← hv, ← hu]; exact hr)
  rw [hwait, andThen_stalled] at hbody
  have hwaits := runCommand_waits hbody
  rw [hlive, ← hv, ← hu] at hwaits
  exact hwaits

end Sys2Proof.Machine
end

section
/-! PROOFS. The statements of 40_model_port.md. -/

namespace Sys2Proof.Machine

/-- Settles O33: the check comes before NARROW, and the error is fatal. -/
theorem encodeOfABadFrequencyFails : Obligations.EncodeOfABadFrequencyFails := by
  intro s cl ch t fs he hf hbad
  have hv : freqOkValid cl ch t s.regs.maxtot = false := by rwa [← Bool.not_eq_true, freqOkValid_iff]
  exact runCommand_raised (encodeBody_bad_freq (s := fresh s) he hf hv)

/-- Settles O44: each of the two checks comes before NARROW, and the error is fatal. -/
theorem decodeOfABadAnswerFails : Obligations.DecodeOfABadAnswerFails := by
  intro s t ts hs hd hu ht
  have hused : streamUsedUp (fresh s) = false := by rwa [← Bool.not_eq_true, streamUsedUp_iff]
  refine ⟨fun hbad => ?_, fun hpos hmax v a as hval ha hbad => ?_⟩
  · have hv : totalValid t s.regs.maxtot = false := by rwa [← Bool.not_eq_true, totalValid_iff]
    exact runCommand_raised (decodeBody_bad_total (s := fresh s) hd hused ht hv)
  · have hv : symbolValid a v t = false := by rwa [← Bool.not_eq_true, symbolValid_iff]
    have h : AfterTotal (fresh s) t ts v := ⟨hd, hused, hs.code_inside hd, ht, totalValid_iff.mpr ⟨hpos, hmax⟩, hval⟩
    exact runCommand_raised ((h.symbol ha).trans (resolveSymbol_bad hv))

/-- Settles O16: a command that waits runs again from the state in which it began; and each request has its lemma above. -/
theorem unansweredRequestHangs : Obligations.UnansweredRequestHangs := by
  refine ⟨fun i s t => exec_waiting,
    fun s he hf => runCommand_waits (encodeBody_no_freq (s := fresh s) he hf), ?_, ?_, ?_, ?_⟩
  · rintro s cl ch t fs _ done g later _ k hk hs he hf hlow hhigh htotal rfl hr hfit rfl hdone hsink
    exact encode_waits_at_writeBit hs he hf hlow hhigh htotal hr hfit hdone hk hsink
  · rintro s _ _ k he hlimit hb rfl rfl hk hsink
    obtain ⟨u, hbody, hlive⟩ := finishBody_stalled (s := fresh s) he hlimit hb rfl (by simpa using hk) hsink
    rw [fresh_live, List.nil_append] at hlive
    exact hlive ▸ runCommand_waits hbody
  · exact fun s p stream => decStart_waits_at_readBit
  · intro s hs hd hu
    have hused : streamUsedUp (fresh s) = false := by rwa [← Bool.not_eq_true, streamUsedUp_iff]
    refine ⟨fun ht => runCommand_waits (decodeBody_no_total (s := fresh s) hd hused ht),
      fun t ts v ht hpos hmax hval => ?_⟩
    have h : AfterTotal (fresh s) t ts v := ⟨hd, hused, hs.code_inside hd, ht, totalValid_iff.mpr ⟨hpos, hmax⟩, hval⟩
    refine ⟨fun ha => runCommand_waits (h.no_symbol ha), ?_⟩
    rintro a as _ stream ha hcl hch hct rfl hx hlt hr
    exact decode_waits_at_readBit hs h ha (symbolValid_iff.mpr ⟨hcl, hch, hct⟩) hx hlt hr

end Sys2Proof.Machine
end

section
/-! PROOFS. The integer laws of NARROW, VALUE and RENORM that the statements ask for beyond Laws/Interval.lean
(41_interval_core.md R172-R184). -/

namespace Sys2Proof.Machine

/-- A symbol's bound scales to at most the whole range (R172). -/
theorem range_mul_div_le (x : Interval) {c t : Nat} (ht : 0 < t) (hc : c ≤ t) : x.range * c / t ≤ x.range := by
  calc x.range * c / t ≤ x.range * t / t := Nat.div_le_div_right (Nat.mul_le_mul_left _ hc)
    _ = x.range := Nat.mul_div_cancel _ ht

/-- The symbol [0, 1) leaves a single code point exactly when `range < 2t` (R175). -/
theorem narrow_zero_one_single_iff {x : Interval} {t : Nat} (ht : 0 < t) (hr : t ≤ x.range) :
    (x.narrow 0 1 t).lo = (x.narrow 0 1 t).hi ↔ x.range < 2 * t := by
  have hpos : 0 < x.range / t := Nat.div_pos hr ht
  have hlt : x.range / t < 2 ↔ x.range < 2 * t := Nat.div_lt_iff_lt_mul ht
  rw [← hlt]
  simp only [Interval.narrow, Nat.mul_zero, Nat.zero_div, Nat.mul_one]
  omega

/-- `cl` is at most VALUE(t) exactly when CODE is not below the narrowed interval (R174). -/
theorem le_value_iff {x : Interval} {code t : Nat} (cl ch : Nat) (hlo : x.lo ≤ code) (ht : 0 < t) :
    cl ≤ x.value code t ↔ (x.narrow cl ch t).lo ≤ code := by
  have hrange : 0 < x.range := Nat.succ_pos _
  have hpos : 0 < (code - x.lo + 1) * t := Nat.mul_pos (Nat.succ_pos _) ht
  calc cl ≤ x.value code t ↔ cl * x.range ≤ (code - x.lo + 1) * t - 1 := Nat.le_div_iff_mul_le hrange
    _ ↔ x.range * cl < (code - x.lo + 1) * t := by rw [Nat.mul_comm cl]; omega
    _ ↔ x.range * cl / t < code - x.lo + 1 := (Nat.div_lt_iff_lt_mul ht).symm
    _ ↔ (x.narrow cl ch t).lo ≤ code := by simp only [Interval.narrow]; omega

/-- VALUE(t) is below `ch` exactly when CODE is not above the narrowed interval (R174); `t ≤ range` keeps the new HIGH
from being one below LOW. -/
theorem value_lt_iff {x : Interval} {code t ch : Nat} (cl : Nat) (hlo : x.lo ≤ code) (hch : 0 < ch) (ht : 0 < t)
    (hr : t ≤ x.range) : x.value code t < ch ↔ code ≤ (x.narrow cl ch t).hi := by
  have hrange : 0 < x.range := Nat.succ_pos _
  have hpos : 0 < (code - x.lo + 1) * t := Nat.mul_pos (Nat.succ_pos _) ht
  have hquot : 0 < x.range * ch / t := Nat.div_pos (hr.trans (Nat.le_mul_of_pos_right _ hch)) ht
  calc x.value code t < ch ↔ (code - x.lo + 1) * t - 1 < ch * x.range := Nat.div_lt_iff_lt_mul hrange
    _ ↔ (code - x.lo + 1) * t ≤ x.range * ch := by rw [Nat.mul_comm ch]; omega
    _ ↔ code - x.lo + 1 ≤ x.range * ch / t := (Nat.le_div_iff_mul_le ht).symm
    _ ↔ code ≤ (x.narrow cl ch t).hi := by simp only [Interval.narrow]; omega

/-- A regime applies only to an interval of at most half the code points (R183). -/
theorem range_le_half {p : Nat} (hp : 2 ≤ p) {x : Interval} (hx : x.within p) {g : Regime}
    (hg : classify p x = some g) : x.range ≤ half p := by
  obtain ⟨-, hhalf, hthree, htop, -⟩ := constants p hp
  obtain ⟨hle, hhi⟩ := hx
  simp only [Interval.range]
  obtain ⟨h, hbound⟩ | ⟨h, -, hbound⟩ | ⟨h, -, -, hbound, hbound'⟩ | ⟨h, -⟩ := classify_cases p x
  · omega
  · omega
  · omega
  · rw [hg] at h; cases h

/-- The range of an interval within P bits is at most 2^P. -/
theorem range_le_of_within {p : Nat} (hp : 2 ≤ p) {x : Interval} (hx : x.within p) : x.range ≤ 2 ^ p := by
  obtain ⟨-, -, -, htop, hpow⟩ := constants p hp
  obtain ⟨hle, hhi⟩ := hx
  simp only [Interval.range]
  omega

theorem regimes_length_le (p fuel : Nat) (x : Interval) : (regimes p fuel x).length ≤ fuel := by
  induction fuel generalizing x with
  | zero => exact le_rfl
  | succ n ih =>
    cases h : classify p x with
    | none => rw [regimes_none (n + 1) h]; exact Nat.zero_le _
    | some g => rw [regimes_some n h]; exact Nat.succ_le_succ (ih _)

/-- Every step of RENORM doubles the range (R183). -/
theorem renormalized_range {p : Nat} (hp : 2 ≤ p) (fuel : Nat) {x : Interval} (hx : x.within p) :
    (renormalized p x (regimes p fuel x)).range = x.range * 2 ^ (regimes p fuel x).length := by
  induction fuel generalizing x with
  | zero => simp [regimes]
  | succ n ih =>
    cases h : classify p x with
    | none => simp [regimes_none (n + 1) h]
    | some g =>
      obtain ⟨hw, -, hdouble⟩ := transform_within hp hx h
      rw [regimes_some n h, renormalized_cons, List.length_cons, ih hw, hdouble]
      ring

/-- RENORM takes all of P steps only from a range of 1 (R183): a wider range would double past 2^P. -/
theorem range_eq_one_of_regimes_length {p : Nat} (hp : 2 ≤ p) {x : Interval} (hx : x.within p)
    (hlen : (regimes p p x).length = p) : x.range = 1 := by
  have hbound : x.range * 2 ^ p ≤ 1 * 2 ^ p := by
    calc x.range * 2 ^ p = (renormalized p x (regimes p p x)).range := by rw [renormalized_range hp p hx, hlen]
      _ ≤ 1 * 2 ^ p := by rw [Nat.one_mul]; exact range_le_of_within hp (renormalized_within hp p hx)
  exact le_antisymm (Nat.le_of_mul_le_mul_right hbound (Nat.two_pow_pos p)) (Nat.succ_pos _)

end Sys2Proof.Machine
end

section
/-! PROOFS. ENCODE from NARROW on, and the E3 step that finds PENDING at its limit (42_encoder.md R205; 41_interval_core.md
R181). -/

namespace Sys2Proof.Machine

/-- The accepted bits of one stretch of transactions after another (R262). -/
theorem acceptedBits_append (xs ys : List Transaction) :
    acceptedBits (xs ++ ys) = acceptedBits xs ++ acceptedBits ys := by
  induction xs using acceptedBits.induct with
  | case1 => rfl
  | case2 b ts ih => simp only [List.cons_append, acceptedBits, ih]
  | case3 t ts hne ih => simp only [List.cons_append, acceptedBits, ih]

@[simp] theorem acceptedBits_accepted_writes (bits : List Bool) :
    acceptedBits (bits.map fun b => .writeBit b .ok) = bits := by
  induction bits with
  | nil => rfl
  | cons b bits ih => simp only [List.map_cons, acceptedBits, ih]

@[simp] theorem fresh_trace (s : State) : (fresh s).trace = s.trace := rfl

/-- The state in which ENCODE begins RENORM: the FREQ answer is used, and LOW and HIGH are narrowed (R205). -/
def encodeNarrowed (cl ch t : Word) (fs : List FreqAnswer) (s : State) : State :=
  setInterval (s.interval.narrow cl.toNat ch.toNat t.toNat)
    (record (.freq s.argL (.freqOk cl ch t)) { s with ports := { s.ports with freq := fs } })

/-- ENCODE with a good FREQ_OK answer is RENORM(ENC) from the narrowed interval on (R205). -/
theorem State.Inv.encodeBody_renorm {s : State} (hs : s.Inv) (he : s.regs.state = .enc) {cl ch t : Word}
    {fs : List FreqAnswer} (hf : s.ports.freq = .freqOk cl ch t :: fs) (hlow : cl.toNat < ch.toNat)
    (hhigh : ch.toNat ≤ t.toNat) (htotal : t.toNat ≤ s.regs.maxtot.toNat) :
    encodeBody (fresh s) = ((renormEnc s.precision (encodeNarrowed cl ch t fs (fresh s))).andThen fun _ s =>
        .go .normal (countSymbol s)) ∧
      EncReady (encodeNarrowed cl ch t fs (fresh s)) ∧
      (encodeNarrowed cl ch t fs (fresh s)).interval = s.interval.narrow cl.toNat ch.toNat t.toNat := by
  obtain ⟨u, rfl, hbody⟩ := encodeBody_ok (s := fresh s) he hf (freqOkValid_iff.mpr ⟨hlow, hhigh, htotal⟩)
  obtain ⟨hrun, hp, hw, hinterval⟩ := hs.narrow_live (by rw [he]; rfl) hlow hhigh htotal
    (u := record (.freq s.argL (.freqOk cl ch t)) { fresh s with ports := { s.ports with freq := fs } }) rfl
  refine ⟨hbody.trans (congrArg (Flow.andThen · _) hrun), ⟨hp, hs.build, ?_, hs.regs.pending⟩, hinterval⟩
  exact hinterval.symm ▸ hw

/-- RENORM(ENC) stops at an E3 step that finds PENDING at its limit, after the steps before it (R181). -/
theorem EncReady.renormEnc_overflows {done rest : List Regime} {fuel : Nat} {s : State} (h : EncReady s)
    (hr : regimes s.precision fuel s.interval = done ++ .e3 :: rest)
    (hfit : pendingFits (pendingLimit s.build) s.regs.pending.toNat done = true)
    (hlimit : encPending s.regs.pending.toNat done = pendingLimit s.build)
    (hs : sinkServes (encBits s.regs.pending.toNat done).length s.ports.sink = true) :
    renormEnc fuel s = .raised .pendingOverflow (encSteps done s) := by
  obtain ⟨n, hrun, -, htail, hpending⟩ := h.renormEnc_of_regimes_append hr hfit hs
  obtain ⟨m, rfl, hclass, -⟩ := regimes_eq_cons htail
  have hregime : (encSteps done s).regime = some .e3 := hclass
  have hfull : (encSteps done s).regs.pending.toNat = pendingLimit (encSteps done s).build := hpending.trans hlimit
  have hside : sideAction .e3 (encSteps done s) = .raised .pendingOverflow (encSteps done s) := if_pos hfull
  simp only [hrun, renormEnc, hregime, hside, andThen_raised]

end Sys2Proof.Machine
end

section
/-! PROOFS. The statements of 41_interval_core.md. -/

namespace Sys2Proof.Machine

/-- Settles O34: the steps before the E3 step are made whole, and the failed step changes nothing. -/
theorem encodePendingOverflowFails : Obligations.EncodePendingOverflowFails := by
  rintro s cl ch t fs _ done rest _ hs he hf hlow hhigh htotal rfl hr hfit hlimit rfl hsink
  obtain ⟨hbody, hready, hinterval⟩ := hs.encodeBody_renorm he hf hlow hhigh htotal
  have hover := hready.renormEnc_overflows (fuel := s.precision) (by rw [hinterval]; exact hr) hfit hlimit hsink
  rw [hover, andThen_raised] at hbody
  refine ⟨_, runCommand_raised hbody, rfl, rfl, ?_, ?_⟩
  · simp [raise_eq, encSteps, encodeNarrowed, acceptedBits_append, acceptedBits]
  · rw [← hlimit, raise_eq, complete_regs, encSteps, hinterval]
    rfl

/-- Settles O47: the scaled bounds of the symbol lie between 0 and range. -/
theorem narrowStaysInside : Obligations.NarrowStaysInside := by
  intro x cl ch t hle hlow hhigh
  have hscaled : x.range * ch / t ≤ x.hi - x.lo + 1 :=
    range_mul_div_le x (Nat.zero_lt_of_lt (hlow.trans_le hhigh)) hhigh
  refine ⟨Nat.le_add_right _ _, ?_⟩
  simp only [Interval.narrow]
  omega

/-- Settles O48: R56 gives `range ≥ QUARTER + 2`, which is more than `t`. -/
theorem narrowMakesProgress : Obligations.NarrowMakesProgress := by
  intro p x cl ch t hp hx hlow hhigh htotal
  obtain ⟨⟨hle, -⟩, -, -, hrange⟩ := settled_bounds hp hx
  have ht : t ≤ x.range := by omega
  obtain ⟨hlt, -, hordered, -⟩ := narrow_within hle ht hlow hhigh
  exact ⟨hrange, hlt, hordered, narrow_zero_one_single_iff (Nat.zero_lt_of_lt (hlow.trans_le hhigh)) ht⟩

/-- Settles O49: one equivalence for each bound of the symbol. -/
theorem decoderChoiceIsExact : Obligations.DecoderChoiceIsExact := by
  intro x code cl ch t hlo hhi hlow hhigh hr
  have hch : 0 < ch := Nat.zero_lt_of_lt hlow
  have ht : 0 < t := hch.trans_le hhigh
  exact ⟨le_value_iff cl ch hlo ht, value_lt_iff cl hlo hch ht hr⟩

/-- Settles O50: the conditions of the four cases of CLASSIFY exclude each other on an ordered interval. -/
theorem regimeConditions : Obligations.RegimeConditions := by
  intro p x hle
  obtain ⟨h, hc⟩ | ⟨h, hc⟩ | ⟨h, hc⟩ | ⟨h, hc⟩ := classify_cases p x
  all_goals
    simp only [h, Option.some.injEq, reduceCtorEq, true_iff, false_iff]
    omega

/-- Settles O51: the offset of a regime is at most LOW, so at most CODE. -/
theorem transformsStayWithinPBits : Obligations.TransformsStayWithinPBits := by
  intro p x g hp hle hhi hg
  obtain ⟨⟨hordered, htop⟩, hoffset, -⟩ := transform_within hp ⟨hle, hhi⟩ hg
  exact ⟨hoffset, hordered, htop, fun code bit hlow hhigh =>
    ⟨hoffset.trans hlow, shiftCode_inside hp ⟨hle, hhi⟩ hg hlow hhigh bit⟩⟩

/-- Settles O52: the range doubles at each step and cannot pass 2^P. -/
theorem renormalizationEnds : Obligations.RenormalizationEnds := by
  intro p x hp hle hhi
  have hx : x.within p := ⟨hle, hhi⟩
  refine ⟨fun g hg => ⟨range_le_half hp hx hg, ?_⟩, regimes_length_le p p x, range_eq_one_of_regimes_length hp hx,
    settled_of_none hp (renormalized_within hp p hx) (renormalized_settled hp hx), renormalized_range hp p hx⟩
  obtain ⟨-, -, hdouble⟩ := transform_within hp hx hg
  exact hdouble

end Sys2Proof.Machine
end

section
/-! PROOFS. The start commands: the check of their operands, and a command that stops at a check (42_encoder.md R200, R201). -/

namespace Sys2Proof.Machine

/-- Outside ENC and DEC no session is live (R31). -/
theorem Session.not_live {x : Session} (he : x ≠ .enc) (hd : x ≠ .dec) : x.live = false := by
  cases x with
  | enc => exact absurd rfl he
  | dec => exact absurd rfl hd
  | idle | done | failed => rfl

/-- The precision check, in the words of R201. -/
theorem precisionOk_iff {b : Build} {p : Nat} {m : Word} :
    precisionOk b p m = true ↔ 2 ≤ p ∧ p ≤ b.pmax ∧ 1 ≤ m.toNat ∧ m.toNat ≤ 2 ^ (p - 2) := by
  simp [precisionOk, and_assoc]

/-- A command that raises an error before it has done anything changes only ERR, EOS and, at a fatal error, STATE (R289). -/
theorem runCommand_rejected {body : State → Flow Ending} {s : State} {e : ErrCode}
    (h : body (fresh s) = .raised e (fresh s)) :
    runCommand body s = .next { s with
      busy := false, live := [], outstanding := none
      regs := { s.regs with err := e, eos := false, state := if e.fatal then .failed else s.regs.state } } := by
  rw [runCommand_raised h, raise_eq]
  simp [complete, fresh]

/-- Both start commands stop at operands that break the check (R201). -/
theorem startBody_bad_operands {i : Instr} {p : Nat} (hi : i = .encStart p ∨ i = .decStart p) {s : State}
    (hl : s.regs.state.live = false) (hp : precisionOk s.build p s.argL = false) :
    commandBody i s = .raised .precision s := by
  rcases hi with rfl | rfl
  · simp [commandBody, encStartBody, hl, maxTotalOperand, hp]
  · simp [commandBody, decStartBody, hl, maxTotalOperand, hp]

/-- ENC_START with legal operands (R200). -/
theorem encStartBody_ok {s : State} {p : Nat} (hl : s.regs.state.live = false) (hp : precisionOk s.build p s.argL = true) :
    encStartBody p s = .go .normal (setState .enc (beginSession .encode p s.argL s)) := by
  simp [encStartBody, hl, maxTotalOperand, hp]

/-- FINISH stops where PENDING is at its limit, before any bit (R215, R218). -/
theorem finishBody_overflows {s : State} (he : s.regs.state = .enc)
    (hp : s.regs.pending.toNat = pendingLimit s.build) : finishBody s = .raised .pendingOverflow s := by
  simp [finishBody, he, hp]

/-- ENCODE stops at the answer UNKNOWN (R207). -/
theorem encodeBody_unknown {s : State} {fs : List FreqAnswer} (he : s.regs.state = .enc)
    (hf : s.ports.freq = .unknown :: fs) :
    encodeBody s = .raised .unknownSymbol
      (record (.freq s.argL .unknown) { s with ports := { s.ports with freq := fs } }) := by
  simp [encodeBody, he, askFreq, symbolOperand, hf]

end Sys2Proof.Machine
end

section
/-! PROOFS. The sink over a list of bits and over the steps of RENORM(ENC): all accepted, or an ERROR after the first of them
(44_bit_adaptors.md R261-R263; 42_encoder.md R209). -/

namespace Sys2Proof.Machine

theorem sinkServes_replicate_append {m n : Nat} (h : m ≤ n) (rest : List SinkAnswer) :
    sinkServes m (List.replicate n .ok ++ rest) = true := by
  simp [sinkServes, List.take_append_of_le_length, List.take_replicate, h]

/-- A list of bits on a sink that accepts them (R261). -/
theorem writeAll_ok {bits : List Bool} {s : State} (h : sinkServes bits.length s.ports.sink = true) :
    writeAll bits s = .go () (wroteBits bits s) := by
  induction bits generalizing s with
  | nil => rw [wroteBits_nil]; rfl
  | cons b bits ih =>
    rw [List.length_cons, Nat.add_comm] at h
    obtain ⟨hfirst, hrest⟩ := sinkServes_split h
    rw [writeAll, sinkWrite_ok b hfirst, andThen_go, ih hrest, wroteBits_append]
    rfl

/-- Accepted bits are no FLUSH. -/
@[simp] theorem count_flush_accepted_writes (bits : List Bool) :
    (bits.map fun b => Transaction.writeBit b .ok).count (.flush .ok) = 0 := by
  simp [List.count_eq_zero]

/-- The state after the sink has answered ERROR in the transaction `t`: that answer is used, and no bit is counted (R261). -/
def sinkRefused (t : Transaction) (rest : List SinkAnswer) (s : State) : State :=
  record t { s with ports := { s.ports with sink := rest } }

/-- With ERROR after the answers for the first `k` bits, writing a list fails at bit `k` (R261). -/
theorem writeAll_refused {bits : List Bool} {k : Nat} (hk : k < bits.length) {s : State} {rest : List SinkAnswer}
    (hs : s.ports.sink = List.replicate k .ok ++ .error :: rest) :
    writeAll bits s = .raised .ioError (sinkRefused (.writeBit bits[k] .error) rest (wroteBits (bits.take k) s)) := by
  induction bits generalizing k s with
  | nil => exact absurd hk (Nat.not_lt_zero k)
  | cons b bits ih =>
    cases k with
    | zero => simp [writeAll, sinkWrite, askWriteBit, hs, sinkRefused]
    | succ k =>
      have hserves : sinkServes 1 s.ports.sink = true := hs ▸ sinkServes_replicate_append (Nat.le_add_left 1 k) _
      have hrest : (wroteBits [b] s).ports.sink = List.replicate k .ok ++ .error :: rest := by
        simp [hs, List.replicate_succ]
      rw [writeAll, sinkWrite_ok b hserves, andThen_go, ih (Nat.lt_of_succ_lt_succ hk) hrest, wroteBits_append]
      rfl

theorem sinkFlush_ok {s : State} (h : sinkServes 1 s.ports.sink = true) :
    sinkFlush s = .go () (record (.flush .ok) { s with ports := { s.ports with sink := s.ports.sink.drop 1 } }) := by
  obtain ⟨rest, hr, -⟩ := sinkServes_succ h
  simp [sinkFlush, askFlush, hr]

theorem sinkFlush_refused {s : State} {rest : List SinkAnswer} (h : s.ports.sink = .error :: rest) :
    sinkFlush s = .raised .ioError (sinkRefused (.flush .error) rest s) := by
  simp [sinkFlush, askFlush, h, sinkRefused]

/-- The side action of a step that writes fails at the bit that the sink refuses (R181). -/
theorem sideAction_refused {g : Regime} {s : State} {k : Nat} (hk : k < (stepBits s.regs.pending.toNat g).length)
    {rest : List SinkAnswer} (hs : s.ports.sink = List.replicate k .ok ++ .error :: rest) :
    sideAction g s = .raised .ioError (sinkRefused (.writeBit (stepBits s.regs.pending.toNat g)[k] .error) rest
      (wroteBits ((stepBits s.regs.pending.toNat g).take k) s)) := by
  cases g with
  | e1 => rw [sideAction, emit_eq_writeAll]; exact congrArg (Flow.andThen · _) (writeAll_refused hk hs)
  | e2 => rw [sideAction, emit_eq_writeAll]; exact congrArg (Flow.andThen · _) (writeAll_refused hk hs)
  | e3 => exact absurd hk (Nat.not_lt_zero k)

/-- More bits written after the steps `done` leave the interval and PENDING of those steps. -/
theorem wroteBits_encSteps (bits : List Bool) (done : List Regime) (s : State) :
    wroteBits bits (encSteps done s) = setInterval (renormalized s.precision s.interval done)
      (setPending (BitVec.ofNat 64 (encPending s.regs.pending.toNat done))
        (wroteBits (encBits s.regs.pending.toNat done ++ bits) s)) := by
  rw [← wroteBits_append]; rfl

@[simp] theorem precision_encodeNarrowed (cl ch t : Word) (fs : List FreqAnswer) (s : State) :
    (encodeNarrowed cl ch t fs s).precision = s.precision := rfl

/-- RENORM(ENC) with a sink that accepts and PENDING that fits ends after all its steps (R182, R183). -/
theorem EncReady.renormEnc_ends {s : State} (h : EncReady s) {gs : List Regime}
    (hgs : gs = regimes s.precision s.precision s.interval)
    (hfit : pendingFits (pendingLimit s.build) s.regs.pending.toNat gs = true)
    (hs : sinkServes (encBits s.regs.pending.toNat gs).length s.ports.sink = true) :
    renormEnc s.precision s = .go () (encSteps gs s) := by
  subst hgs
  obtain ⟨⟨hp, hp'⟩, hb, hw, hpend⟩ := h
  exact renormEnc_ok hp hp' _ rfl hb hw hpend (renormalized_settled hp hw) hfit hs

/-- RENORM(ENC) fails at the first bit that the sink refuses, which the step `g` writes: LOW, HIGH and PENDING are those of
the steps before it (R209, R303). -/
theorem EncReady.renormEnc_refused {done later : List Regime} {g : Regime} {fuel k : Nat} {s : State}
    {rest : List SinkAnswer} (h : EncReady s) (hr : regimes s.precision fuel s.interval = done ++ g :: later)
    (hfit : pendingFits (pendingLimit s.build) s.regs.pending.toNat done = true)
    (hdone : (encBits s.regs.pending.toNat done).length ≤ k)
    (hk : k < (encBits s.regs.pending.toNat (done ++ [g])).length)
    (hs : s.ports.sink = List.replicate k .ok ++ .error :: rest) :
    renormEnc fuel s = .raised .ioError
      (sinkRefused (.writeBit (encBits s.regs.pending.toNat (done ++ [g]))[k] .error) rest
        (setInterval (renormalized s.precision s.interval done)
          (setPending (BitVec.ofNat 64 (encPending s.regs.pending.toNat done))
            (wroteBits ((encBits s.regs.pending.toNat (done ++ [g])).take k) s)))) := by
  obtain ⟨n, hrun, -, htail, hpending⟩ :=
    h.renormEnc_of_regimes_append hr hfit (hs ▸ sinkServes_replicate_append hdone _)
  obtain ⟨m, rfl, hg, -⟩ := regimes_eq_cons htail
  have hregime : (encSteps done s).regime = some g := hg
  have hbits : encBits s.regs.pending.toNat (done ++ [g]) = encBits s.regs.pending.toNat done ++
      stepBits (encSteps done s).regs.pending.toNat g := by
    rw [encBits_append, encBits_cons, hpending]
    simp [encBits]
  have hsink : (encSteps done s).ports.sink =
      List.replicate (k - (encBits s.regs.pending.toNat done).length) .ok ++ .error :: rest := by
    simp [encSteps, hs, List.drop_append_of_le_length, hdone]
  simp only [hbits, List.length_append] at hk ⊢
  have hside := sideAction_refused (g := g) (by omega) hsink
  rw [wroteBits_encSteps] at hside
  simp only [hrun, renormEnc, hregime, hside, andThen_raised, List.getElem_append_right hdone, List.take_append,
    List.take_of_length_le hdone]

end Sys2Proof.Machine
end

section
/-! PROOFS. FINISH from its first bit on, and the value that its bits select (42_encoder.md R215, R216). -/

namespace Sys2Proof.Machine

/-- FINISH with PENDING below its limit: the bits of the termination, then the FLUSH (R215, R216). -/
theorem finishBody_writes {s : State} {bits : List Bool} (he : s.regs.state = .enc)
    (hlimit : s.regs.pending.toNat < pendingLimit s.build) (hb : s.build.wf = true)
    (hbits : bits = terminationBit s :: List.replicate (s.regs.pending.toNat + 1) (!terminationBit s)) :
    finishBody s = (writeAll bits (setPending (s.regs.pending + 1) s)).andThen fun _ s =>
      (sinkFlush (setPending 0 s)).andThen fun _ s => .go .normal (setState .done s) := by
  obtain ⟨u, rfl, hbody⟩ := finishBody_ok he hlimit.ne
  have hfits := pendingLimit_lt hb
  have hpending : (s.regs.pending + 1).toNat = s.regs.pending.toNat + 1 := by bv_omega
  rw [hbody, hpending, emit_eq_writeAll, ← hbits]

/-- FINISH with a sink that accepts every bit and the FLUSH (R215). -/
theorem finishBody_ends {s : State} {bits : List Bool} (he : s.regs.state = .enc)
    (hlimit : s.regs.pending.toNat < pendingLimit s.build) (hb : s.build.wf = true)
    (hbits : bits = terminationBit s :: List.replicate (s.regs.pending.toNat + 1) (!terminationBit s))
    (hs : sinkServes (bits.length + 1) s.ports.sink = true) :
    finishBody s = .go .normal { s with
      live := s.live ++ (bits.map fun b => .writeBit b .ok) ++ [.flush .ok]
      ports := { s.ports with sink := s.ports.sink.drop (bits.length + 1) }
      regs := { s.regs with
        state := .done, pending := 0, bitcnt := s.regs.bitcnt + BitVec.ofNat 64 bits.length } } := by
  obtain ⟨hwrites, hflush⟩ := sinkServes_split hs
  rw [finishBody_writes he hlimit hb hbits, writeAll_ok (s := setPending (s.regs.pending + 1) s) hwrites, andThen_go,
    sinkFlush_ok (s := setPending 0 (wroteBits bits (setPending (s.regs.pending + 1) s))) hflush, andThen_go]
  simp [setState, record, setPending, wroteBits]

/-- FINISH with a sink that refuses request `k`: at one of the bits PENDING is the incremented value, at the FLUSH 0
(R218, R303). -/
theorem finishBody_refused {s : State} {bits : List Bool} {k : Nat} {rest : List SinkAnswer} (he : s.regs.state = .enc)
    (hlimit : s.regs.pending.toNat < pendingLimit s.build) (hb : s.build.wf = true)
    (hbits : bits = terminationBit s :: List.replicate (s.regs.pending.toNat + 1) (!terminationBit s))
    (hk : k ≤ bits.length) (hs : s.ports.sink = List.replicate k .ok ++ .error :: rest) :
    finishBody s = .raised .ioError
      (sinkRefused (if h : k < bits.length then .writeBit bits[k] .error else .flush .error) rest
        (setPending (if k = bits.length then 0 else s.regs.pending + 1) (wroteBits (bits.take k) s))) := by
  rw [finishBody_writes he hlimit hb hbits]
  by_cases hlt : k < bits.length
  · rw [writeAll_refused (s := setPending (s.regs.pending + 1) s) hlt hs, dif_pos hlt, if_neg hlt.ne]
    rfl
  · obtain rfl : k = bits.length := by omega
    have hserves : sinkServes bits.length s.ports.sink = true := hs ▸ sinkServes_replicate_append le_rfl _
    rw [writeAll_ok (s := setPending (s.regs.pending + 1) s) hserves, andThen_go,
      sinkFlush_refused (rest := rest) (by simp [hs]), dif_neg hlt, if_pos rfl, List.take_length]
    rfl

/-- Padding bits shift a value up (R216, 20_memory.md R87). -/
theorem bitsValue_append_zeros (bits : List Bool) (n : Nat) :
    bitsValue (bits ++ List.replicate n false) = bitsValue bits * 2 ^ n := by
  induction n with
  | zero => simp
  | succ n ih =>
    rw [List.replicate_succ', ← List.append_assoc, bitsValue, List.foldl_append, ← bitsValue, ih]
    show 2 * (bitsValue bits * 2 ^ n) + 0 = bitsValue bits * 2 ^ (n + 1)
    ring

/-- A bit, its complement and padding up to P bits are QUARTER or HALF (R216). -/
theorem bitsValue_termination {p : Nat} (hp : 2 ≤ p) (b : Bool) :
    bitsValue (b :: (!b) :: List.replicate (p - 2) Config.padBit) = if b then half p else quarter p := by
  obtain ⟨-, hhalf, -⟩ := constants p hp
  have hvalue := bitsValue_append_zeros [b, !b] (p - 2)
  refine hvalue.trans ?_
  cases b <;> simp [bitsValue, hhalf, quarter]

/-- A settled interval holds QUARTER if LOW is below it, and HALF otherwise (R56, R216). -/
theorem settled_holds_point {p : Nat} (hp : 2 ≤ p) {x : Interval} (hx : x.settled p = true) :
    (x.lo < quarter p → x.lo ≤ quarter p ∧ quarter p ≤ x.hi) ∧ (quarter p ≤ x.lo → x.lo ≤ half p ∧ half p ≤ x.hi) := by
  obtain ⟨-, hhalf, -⟩ := constants p hp
  obtain ⟨-, -, hnone, -⟩ := settled_bounds hp hx
  obtain ⟨h, -⟩ | ⟨h, -⟩ | ⟨h, -⟩ | ⟨-, hhi, hlo, -⟩ := classify_cases p x
  case inr.inr.inr => omega
  all_goals rw [hnone] at h; cases h

end Sys2Proof.Machine
end

section
/-! PROOFS. The statements of 42_encoder.md. -/

namespace Sys2Proof.Machine

/-- Settles O29: the check of R201 fails in each of the four ways. -/
theorem badOperandsAreAPrecisionError : Obligations.BadOperandsAreAPrecisionError := by
  intro s p he hd hbad i hi
  have hp : precisionOk s.build p s.argL = false := by
    rw [← Bool.not_eq_true, precisionOk_iff]
    omega
  rw [exec_eq_runCommand]
  exact runCommand_rejected (startBody_bad_operands hi (s := fresh s) (Session.not_live he hd) hp)

/-- Settles O30: the session registers are written whole. -/
theorem encStartBeginsAnEncodeSession : Obligations.EncStartBeginsAnEncodeSession := by
  intro s p he hd hp hp' hm hm'
  have hbody := encStartBody_ok (s := fresh s) (Session.not_live he hd) (precisionOk_iff.mpr ⟨hp, hp', hm, hm'⟩)
  refine (runCommand_go hbody).trans ?_
  simp [complete, setState, beginSession, fresh]

/-- Settles O31: RENORM ends after all its steps, from the narrowed interval on. -/
theorem encodeCodesASymbol : Obligations.EncodeCodesASymbol := by
  rintro s cl ch t fs _ gs _ hs he hf hlow hhigh htotal rfl hgs rfl hfit hsink
  obtain ⟨hbody, hready, hinterval⟩ := hs.encodeBody_renorm he hf hlow hhigh htotal
  have hends := hready.renormEnc_ends (gs := gs) (by simpa [hinterval] using hgs) hfit hsink
  rw [encSteps, hinterval, precision_encodeNarrowed, fresh_precision] at hends
  rw [hends, andThen_go] at hbody
  refine (runCommand_go hbody).trans ?_
  simp [complete, countSymbol, setInterval, setPending, wroteBits, encodeNarrowed, record, fresh]

/-- Settles O32: the error is recoverable, and it comes before NARROW. -/
theorem encodeOfAnUnknownSymbol : Obligations.EncodeOfAnUnknownSymbol := fun s _ he hf =>
  runCommand_raised (encodeBody_unknown (s := fresh s) he hf)

/-- Settles O35: the steps before the failed one are made whole, and of the failed one only its first bits. -/
theorem encodeSinkErrorFails : Obligations.EncodeSinkErrorFails := by
  rintro s cl ch t fs _ done g later k rest hs he hf hlow hhigh htotal rfl hr hfit hdone hk hsink
  obtain ⟨hbody, hready, hinterval⟩ := hs.encodeBody_renorm he hf hlow hhigh htotal
  have hrefused := hready.renormEnc_refused (fuel := s.precision) (by rw [hinterval]; exact hr) hfit hdone hk hsink
  rw [hrefused, andThen_raised, hinterval] at hbody
  refine ⟨_, runCommand_raised hbody, rfl, rfl, ?_, ?_⟩
  · simp [raise_eq, sinkRefused, encodeNarrowed, acceptedBits_append, acceptedBits, -List.map_take]
  · have hcount : ((encBits s.regs.pending.toNat (done ++ [g])).take k).length = k := List.length_take_of_le hk.le
    conv_rhs => rw [← hcount]
    rfl

/-- Settles O36: every bit and the FLUSH are accepted. -/
theorem finishWritesTheTermination : Obligations.FinishWritesTheTermination := by
  rintro s _ bits he hlimit hb rfl hbits hsink
  refine (runCommand_go (finishBody_ends (s := fresh s) he hlimit hb hbits hsink)).trans ?_
  simp [complete, fresh]

/-- Settles O37: the limit is checked before any bit, and the error is fatal. -/
theorem finishPendingOverflowFails : Obligations.FinishPendingOverflowFails := fun s he hp =>
  runCommand_rejected (finishBody_overflows (s := fresh s) he hp)

/-- Settles O38: request `k` is one of the bits, or the FLUSH after all of them. -/
theorem finishSinkErrorFails : Obligations.FinishSinkErrorFails := by
  rintro s _ bits k rest he hlimit hb rfl hbits hk hsink
  have hlength : bits.length = s.regs.pending.toNat + 2 := by simp [hbits]
  rw [← hlength] at hk ⊢
  refine ⟨_, runCommand_raised (finishBody_refused (s := fresh s) he hlimit hb hbits hk hsink), rfl, rfl, ?_, ?_, ?_, ?_⟩
  · simp [raise_eq, sinkRefused]
  · split <;> simp [raise_eq, sinkRefused, acceptedBits_append, acceptedBits, -List.map_take]
  · simp [raise_eq, sinkRefused, ErrCode.fatal, hk]
  · split <;> simp [raise_eq, sinkRefused, State.sinkFlushes, -List.map_take]

/-- Settles O53: the bit is 0 exactly where LOW is below QUARTER, and then the value is QUARTER, otherwise HALF. -/
theorem terminationSelectsAnInsidePoint : Obligations.TerminationSelectsAnInsidePoint := by
  refine ⟨fun p x hp hx => settled_holds_point hp hx, ?_⟩
  rintro s _ _ hp hx rfl rfl
  obtain ⟨hquarter, hhalf⟩ := settled_holds_point hp hx
  rw [bitsValue_termination hp]
  by_cases h : s.regs.low.toNat < quarter s.precision
  · simpa [terminationBit, h, State.interval] using hquarter h
  · simpa [terminationBit, h, State.interval] using hhalf (Nat.le_of_not_lt h)

/-- Settles O56, by induction on the regimes: E1 and E2 write one bit and the pending ones, E3 defers one. -/
theorem eachStepWritesOrDefersOneBit : Obligations.EachStepWritesOrDefersOneBit := by
  intro pend gs
  induction gs generalizing pend with
  | nil => exact Nat.zero_add _
  | cons g gs ih =>
    have hstep : (stepBits pend g).length + stepPending pend g = pend + 1 := by cases g <;> simp [stepBits, stepPending]
    have hrest := ih (stepPending pend g)
    rw [encBits_cons, encPending_cons, List.length_append, List.length_cons]
    omega

end Sys2Proof.Machine
end

section
/-! PROOFS. The source side over several calls of NextBit: the bits that the source supplies, then padding (44_bit_adaptors.md
R266, R267). -/

namespace Sys2Proof.Machine

/-- The source side after the source has supplied the bits and has the answers `rest` left (R266). -/
def BitSide.supplied (bits : List Bool) (rest : List SourceAnswer) (b : BitSide) : BitSide :=
  { b with
    bitcnt := b.bitcnt + BitVec.ofNat 64 bits.length
    answers := rest
    reads := b.reads ++ bits.map fun x => .readBit (.bit x) }

/-- Counting one bit, then `n` more. -/
theorem word_add_one_add_ofNat (v : Word) (n : Nat) : v + 1#64 + BitVec.ofNat 64 n = v + BitVec.ofNat 64 (n + 1) := by
  rw [Nat.add_comm, BitVec.ofNat_add, BitVec.add_assoc]

theorem BitSide.next_supplied {x : Bool} {rest : List SourceAnswer} {b : BitSide} (hx : b.exhausted = false)
    (ha : b.answers = .bit x :: rest) : b.next = some (x, b.supplied [x] rest) := by
  simp [BitSide.next, hx, ha, BitSide.supplied]

/-- Until the source ends, NextBit gives its bits in order (R266). -/
theorem BitSide.take_supplied {bits : List Bool} {rest : List SourceAnswer} {b : BitSide} (hx : b.exhausted = false)
    (ha : b.answers = bits.map .bit ++ rest) : b.take bits.length = some (bits, b.supplied bits rest) := by
  induction bits generalizing b with
  | nil => subst ha; simp [BitSide.take, BitSide.supplied]
  | cons x bits ih =>
    have hnext : b.next = some (x, b.supplied [x] (bits.map .bit ++ rest)) := BitSide.next_supplied hx ha
    rw [List.length_cons, BitSide.take, hnext]
    simp only [ih (b := b.supplied [x] (bits.map .bit ++ rest)) hx rfl]
    simp [BitSide.supplied, word_add_one_add_ofNat]

theorem saturatingSucc_of_lt {v : Word} (h : v.toNat + 1 < 2 ^ 64) : saturatingSucc v = v + 1 := by
  refine if_neg ?_
  rintro rfl
  simp at h

/-- After the source has ended, NextBit pads and counts in PADCNT (R266). -/
theorem BitSide.take_exhausted {n : Nat} {b : BitSide} (hx : b.exhausted = true) (hn : b.padcnt.toNat + n < 2 ^ 64) :
    b.take n = some (List.replicate n false, { b with padcnt := b.padcnt + BitVec.ofNat 64 n }) := by
  induction n generalizing b with
  | zero => simp [BitSide.take]
  | succ n ih =>
    have hpad : saturatingSucc b.padcnt = b.padcnt + 1 := saturatingSucc_of_lt (by omega)
    have hnext : b.next = some (false, { b with padcnt := b.padcnt + 1 }) := by simp [BitSide.next, hx, hpad]
    have hlt : (b.padcnt + 1).toNat + n < 2 ^ 64 := by bv_omega
    rw [BitSide.take, hnext]
    simp only [ih (b := { b with padcnt := b.padcnt + 1 }) hx hlt]
    simp [List.replicate_succ, word_add_one_add_ofNat]

/-- The source side after the source has ended and given `n` padding bits, with the answers `rest` left (R266, R267). -/
def BitSide.padded (n : Nat) (rest : List SourceAnswer) (b : BitSide) : BitSide :=
  { b with
    exhausted := true
    padcnt := BitVec.ofNat 64 n
    answers := rest
    reads := b.reads ++ [.readBit .endOfInput] }

/-- The answer END latches EXHAUSTED with the first padding bit, and the source is not asked again (R266). -/
theorem BitSide.take_padded {n : Nat} {rest : List SourceAnswer} {b : BitSide} (hx : b.exhausted = false)
    (ha : b.answers = .endOfInput :: rest) (hn : n + 1 < 2 ^ 64) :
    b.take (n + 1) = some (List.replicate (n + 1) false, b.padded (n + 1) rest) := by
  have hnext : b.next = some (false, b.padded 1 rest) := by simp [BitSide.next, hx, ha, BitSide.padded]
  have hpad : (b.padded 1 rest).padcnt.toNat + n < 2 ^ 64 := by rw [Nat.add_comm]; exact hn
  rw [BitSide.take, hnext]
  simp only [BitSide.take_exhausted (b := b.padded 1 rest) rfl hpad]
  simp [BitSide.padded, List.replicate_succ, BitVec.ofNat_add, BitVec.add_comm]

/-- One stretch of bits after another. -/
theorem BitSide.take_add {m n : Nat} {b c d : BitSide} {xs ys : List Bool} (hm : b.take m = some (xs, c))
    (hn : c.take n = some (ys, d)) : b.take (m + n) = some (xs ++ ys, d) := by
  induction m generalizing b xs with
  | zero => cases hm; simpa using hn
  | succ m ih =>
    rw [Nat.add_right_comm]
    rw [BitSide.take] at hm ⊢
    split at hm
    · cases hm
    · next x b' hnext =>
      split at hm
      · cases hm
      · next zs c' htake =>
        cases hm
        simp [ih htake]

/-- A source that holds the bits of `stream` and then ends: `n` calls of NextBit give them, then padding (R266). -/
theorem BitSide.take_stream {stream : List Bool} {rest : List SourceAnswer} {n : Nat} {b : BitSide}
    (hx : b.exhausted = false) (hpad : b.padcnt = 0) (ha : b.answers = stream.map .bit ++ .endOfInput :: rest)
    (hn : n < 2 ^ 64) :
    ∃ c, b.take n = some (stream.take n ++ List.replicate (n - stream.length) false, c) ∧
      c.bitcnt = b.bitcnt + BitVec.ofNat 64 (min stream.length n) ∧ c.padcnt = BitVec.ofNat 64 (n - stream.length) ∧
      c.exhausted = decide (stream.length < n) := by
  by_cases hlt : stream.length < n
  · obtain ⟨k, rfl⟩ := Nat.exists_eq_add_of_lt hlt
    have hbits := BitSide.take_supplied hx ha
    have hpads := BitSide.take_padded (n := k) (b := b.supplied stream (.endOfInput :: rest)) hx rfl (by omega)
    have htake := BitSide.take_add hbits hpads
    rw [← Nat.add_assoc] at htake
    have hsub : stream.length + k + 1 - stream.length = k + 1 := by omega
    rw [hsub, List.take_of_length_le hlt.le, Nat.min_eq_left hlt.le]
    exact ⟨_, htake, rfl, rfl, (decide_eq_true hlt).symm⟩
  · have hle : n ≤ stream.length := Nat.le_of_not_lt hlt
    have hsplit : b.answers = (stream.take n).map .bit ++ ((stream.drop n).map .bit ++ .endOfInput :: rest) := by
      rw [← List.append_assoc, ← List.map_append, List.take_append_drop, ha]
    have hbits := BitSide.take_supplied hx hsplit
    rw [List.length_take_of_le hle] at hbits
    rw [Nat.sub_eq_zero_of_le hle, List.replicate_zero, List.append_nil]
    exact ⟨_, hbits, by rw [BitSide.supplied, List.length_take_of_le hle, Nat.min_eq_right hle], hpad,
      hx.trans (decide_eq_false hlt).symm⟩

end Sys2Proof.Machine
end

section
/-! PROOFS. DEC_START's fill: CODE as a number made of bits, and a source that fails during it (43_decoder.md R230, R231). -/

namespace Sys2Proof.Machine

/-- Bit `k` of a list of bits as a number is its bit `k` from the end (20_memory.md R87). -/
theorem testBit_bitsValue (bits : List Bool) (k : Nat) : (bitsValue bits).testBit k = bits.reverse.getD k false := by
  induction bits using List.reverseRecOn generalizing k with
  | nil => simp [bitsValue]
  | append_singleton bits b ih =>
    have hvalue : bitsValue (bits ++ [b]) = 2 * bitsValue bits + b.toNat := by simp [bitsValue]
    rw [hvalue, List.reverse_append]
    cases k with
    | zero => cases b <;> simp [Nat.testBit_zero]
    | succ k =>
      have hhalf : (2 * bitsValue bits + b.toNat) / 2 = bitsValue bits := by
        have := Bool.toNat_lt b
        omega
      rw [Nat.testBit_succ, hhalf, ih]
      rfl

/-- In a list of `p` bits as a number, bit `p - 1 - i` is bit `i` of the list (20_memory.md R87). -/
theorem testBit_bitsValue_of_length {bits : List Bool} {p i : Nat} (hlen : bits.length = p) (hi : i < p) :
    (bitsValue bits).testBit (p - 1 - i) = bits.getD i false := by
  subst hlen
  rw [testBit_bitsValue, List.getD_eq_getElem?_getD, List.getElem?_reverse (by omega), List.getD_eq_getElem?_getD]
  congr 3
  omega

/-- A stream cut or padded with zeros to `p` bits has its bits in their places. -/
theorem getD_take_append_zeros (stream : List Bool) {p i : Nat} (hi : i < p) :
    (stream.take p ++ List.replicate (p - stream.length) false).getD i false = stream.getD i false := by
  by_cases hlt : i < stream.length
  · simp [List.getElem?_append, hlt, hi]
  · have hle : stream.length ≤ i := Nat.le_of_not_lt hlt
    have hend : (stream.take p).length ≤ i := (List.length_take_le' p stream).trans hle
    rw [List.getD_append_right _ _ _ _ hend, List.getD_eq_getElem?_getD, List.getElem?_getD_replicate_default_eq,
      List.getD_eq_default _ _ hle]

theorem andThen_assoc {α β γ : Type} (x : Flow α) (f : α → State → Flow β) (g : β → State → Flow γ) :
    (x.andThen f).andThen g = x.andThen fun a s => (f a s).andThen g := by
  cases x <;> rfl

/-- The fill in two stretches. -/
theorem fillCode_add (m n : Nat) (s : State) : fillCode (m + n) s = (fillCode m s).andThen fun _ s => fillCode n s := by
  induction m generalizing s with
  | zero => rw [Nat.zero_add]; rfl
  | succ m ih => simp only [Nat.succ_add, fillCode, andThen_assoc, ih]

/-- The state after the source has answered ERROR: that answer is used, and no bit is counted (R266). -/
def sourceRefused (rest : List SourceAnswer) (s : State) : State :=
  record (.readBit .error) { s with ports := { s.ports with source := rest } }

theorem nextBit_refused {s : State} {rest : List SourceAnswer} (hx : s.regs.exhausted = false)
    (hr : s.ports.source = .error :: rest) : nextBit s = .raised .ioError (sourceRefused rest s) := by
  simp [nextBit, hx, askReadBit, hr, sourceRefused]

/-- The fill with a source that fails before it has given all the bits: those before are shifted in (R230, R303). -/
theorem fillCode_refused {stream : List Bool} {n : Nat} {s : State} {rest : List SourceAnswer} (hn : n ≤ 64)
    (hlt : stream.length < n) (hc : s.regs.code = 0) (hx : s.regs.exhausted = false)
    (hr : s.ports.source = stream.map .bit ++ .error :: rest) :
    fillCode n s = .raised .ioError (sourceRefused rest
      (setCode (bitsValue stream) (withBitSide (s.bitSide.supplied stream (.error :: rest)) s))) := by
  obtain ⟨k, rfl⟩ := Nat.exists_eq_add_of_lt hlt
  have hroom : s.regs.code.toNat * 2 ^ stream.length + 2 ^ stream.length ≤ 2 ^ 64 := by
    rw [hc]
    simpa using Nat.pow_le_pow_right (n := 2) (by decide) (hlt.le.trans hn)
  have hfill := fillCode_ok stream.length (hlt.le.trans hn) hroom
    (BitSide.take_supplied (b := s.bitSide) (rest := .error :: rest) hx hr)
  rw [hc] at hfill
  rw [Nat.add_assoc, fillCode_add, hfill, andThen_go, fillCode]
  generalize hv : setCode _ _ = v
  rw [nextBit_refused (s := v) (by rw [← hv]; exact hx) (by rw [← hv]; rfl), andThen_raised, ← hv]
  rfl

/-- DEC_START with legal operands and a source that serves the fill (R230). -/
theorem decStartBody_fills {s : State} {p : Nat} {bits : List Bool} {b : BitSide} (hl : s.regs.state.live = false)
    (hb : s.build.wf = true) (hp : precisionOk s.build p s.argL = true)
    (ht : BitSide.take p { exhausted := false, padcnt := 0, bitcnt := 0, answers := s.ports.source, reads := [] } =
      some (bits, b)) :
    decStartBody p s = .go .normal (setState .dec
      (setCode (bitsValue bits) (withBitSide b (beginSession .decode p s.argL s)))) := by
  obtain ⟨u, hu, hbody⟩ := decStartBody_ok hl hp
  obtain ⟨-, hp', -⟩ := precisionOk_bounds hb hp
  have hc : u.regs.code.toNat = 0 := by rw [hu]; rfl
  have hroom : u.regs.code.toNat * 2 ^ p + 2 ^ p ≤ 2 ^ 64 := by
    rw [hc, Nat.zero_mul, Nat.zero_add]
    exact Nat.pow_le_pow_right (by decide) hp'
  rw [hbody, fillCode_ok p hp' hroom (by rw [hu]; exact ht), andThen_go, hc, hu]
  rfl

/-- DEC_START with legal operands and a source that fails during the fill (R230, R244). -/
theorem decStartBody_refused {s : State} {p : Nat} {stream : List Bool} {rest : List SourceAnswer}
    (hl : s.regs.state.live = false) (hb : s.build.wf = true) (hp : precisionOk s.build p s.argL = true)
    (hlt : stream.length < p) (hr : s.ports.source = stream.map .bit ++ .error :: rest) :
    ∃ u, u = beginSession .decode p s.argL s ∧ decStartBody p s = .raised .ioError (sourceRefused rest
      (setCode (bitsValue stream) (withBitSide (u.bitSide.supplied stream (.error :: rest)) u))) := by
  obtain ⟨u, hu, hbody⟩ := decStartBody_ok hl hp
  obtain ⟨-, hp', -⟩ := precisionOk_bounds hb hp
  refine ⟨u, hu, ?_⟩
  rw [hbody, fillCode_refused hp' hlt (by rw [hu]; rfl) (by rw [hu]; rfl) (by rw [hu]; exact hr), andThen_raised]

end Sys2Proof.Machine
end

section
/-! PROOFS. RENORM(DEC): one step that is served, and a source that fails at a step (41_interval_core.md R180, R182;
60_exceptions.md R303). -/

namespace Sys2Proof.Machine

/-- Where RENORM(DEC) can start: what its steps keep, so that no register overflows (R33, R57). -/
structure DecReady (s : State) : Prop where
  precision : 2 ≤ s.precision ∧ s.precision ≤ 64
  inside : codeInside s

/-- One step of RENORM(DEC) that is served the bit (R180, R182). -/
def decStep (g : Regime) (x : Bool) (b : BitSide) (s : State) : State :=
  setCode (g.shiftCode s.precision s.regs.code.toNat x)
    (setInterval (g.transform s.precision s.interval) (withBitSide b s))

/-- RENORM(DEC) goes on from a step that is served, and what the step keeps (R182, R184). -/
theorem DecReady.step {s : State} (h : DecReady s) {g : Regime} (hg : classify s.precision s.interval = some g) {x : Bool}
    {b : BitSide} (hb : s.bitSide.next = some (x, b)) (n : Nat) :
    renormDec (n + 1) s = renormDec n (decStep g x b s) ∧ DecReady (decStep g x b s) ∧
      (decStep g x b s).interval = g.transform s.precision s.interval ∧
      (decStep g x b s).regs.code.toNat = g.shiftCode s.precision s.regs.code.toNat x := by
  obtain ⟨hp, hw, hlow, hhigh⟩ := h
  have hw' := (transform_within hp.1 hw hg).1
  obtain ⟨hlo, hhi⟩ := within_lt hp.1 hp.2 hw'
  have hcode := shiftCode_inside hp.1 hw hg hlow hhigh x
  have hi : (decStep g x b s).interval = g.transform s.precision s.interval :=
    interval_setInterval (withBitSide b s) hlo hhi
  have hc : (decStep g x b s).regs.code.toNat = g.shiftCode s.precision s.regs.code.toNat x :=
    Nat.mod_eq_of_lt (hcode.2.trans_lt hhi)
  refine ⟨?_, ⟨hp, hi.symm ▸ hw', by rw [hi, hc]; exact hcode⟩, hi, hc⟩
  have hregime : s.regime = some g := hg
  simp only [renormDec, hregime, shiftCode]
  rw [nextBit_ok (s := applyTransform g s) hb, andThen_go, andThen_go]
  rfl

/-- RENORM(DEC) fails at the step for which the source has no bit: LOW and HIGH are those after its transform, CODE that
before it (R244, R303). -/
theorem DecReady.renormDec_refused {stream : List Bool} {fuel : Nat} {s : State} {rest : List SourceAnswer}
    (h : DecReady s) (hx : s.regs.exhausted = false) {gs : List Regime}
    (hgs : regimes s.precision fuel s.interval = gs) (hn : stream.length < gs.length)
    (hr : s.ports.source = stream.map .bit ++ .error :: rest) :
    renormDec fuel s = .raised .ioError (sourceRefused rest
      (setCode (shiftedCode s.precision s.regs.code.toNat (gs.zip stream))
        (setInterval (renormalized s.precision s.interval (gs.take (stream.length + 1)))
          (withBitSide (s.bitSide.supplied stream (.error :: rest)) s)))) := by
  induction stream generalizing fuel s gs with
  | nil =>
    obtain ⟨g, gs, rfl⟩ := List.exists_cons_of_length_pos hn
    obtain ⟨n, rfl, hg, -⟩ := regimes_eq_cons hgs
    have hregime : s.regime = some g := hg
    simp only [renormDec, hregime, shiftCode]
    rw [nextBit_refused (s := applyTransform g s) hx hr, andThen_raised, andThen_raised]
    simp [sourceRefused, applyTransform, shiftedCode, setCode, setInterval, withBitSide, BitSide.supplied, State.bitSide]
  | cons x bits ih =>
    obtain ⟨g, gs, rfl⟩ := List.exists_cons_of_length_pos (Nat.zero_lt_of_lt hn)
    obtain ⟨n, rfl, hg, htail⟩ := regimes_eq_cons hgs
    obtain ⟨hrun, hready, hi, hc⟩ := h.step hg (BitSide.next_supplied (b := s.bitSide) hx hr) n
    rw [hrun]
    generalize hu : decStep g x _ s = u at hready hi hc
    have hup : u.precision = s.precision := by rw [← hu]; rfl
    rw [ih hready (by rw [← hu]; exact hx) (by rw [hup, hi]; exact htail)
      (Nat.lt_of_succ_lt_succ hn) (by rw [← hu]; rfl), hup, hi, hc, ← hu]
    simp [sourceRefused, decStep, shiftedCode, setCode, setInterval, withBitSide, BitSide.supplied, State.bitSide,
      word_add_one_add_ofNat, record]

/-- RENORM(DEC) with a source that serves one bit a step ends after all its steps (R182, R183). -/
theorem DecReady.renormDec_ends {s : State} (h : DecReady s) {gs : List Regime}
    (hgs : gs = regimes s.precision s.precision s.interval) {bits : List Bool} {b : BitSide}
    (ht : s.bitSide.take gs.length = some (bits, b)) :
    renormDec s.precision s = .go () (setCode (shiftedCode s.precision s.regs.code.toNat (gs.zip bits))
      (setInterval (renormalized s.precision s.interval gs) (withBitSide b s))) := by
  subst hgs
  obtain ⟨hp, hw, hlow, hhigh⟩ := h
  exact renormDec_ok hp.1 hp.2 _ rfl hw hlow hhigh (renormalized_settled hp.1 hw) ht

end Sys2Proof.Machine
end

section
/-! PROOFS. DECODE from its SYMBOL answer on, and its end by exhaustion (43_decoder.md R235, R238). -/

namespace Sys2Proof.Machine

/-- DECODE outside a decode session (R235). -/
theorem decodeBody_outside {s : State} (hd : s.regs.state ≠ .dec) : decodeBody s = .raised .badState s := by
  simp [decodeBody, hd]

/-- DECODE where no stream bit is left in CODE (R238). -/
theorem decodeBody_used_up {s : State} (hd : s.regs.state = .dec) (hu : streamUsedUp s = true) :
    decodeBody s = .go .endOfStream (setState .done (setResult 0 s)) := by
  simp [decodeBody, hd, hu]

/-- The state in which DECODE begins RENORM: both answers are used, and LOW and HIGH are narrowed (R235). -/
def decodeNarrowed (t : Word) (ts : List Word) (v : Word) (a : SymbolAnswer) (as : List SymbolAnswer) (s : State) : State :=
  setInterval (s.interval.narrow a.cl.toNat a.ch.toNat t.toNat)
    { s with
      ports := { s.ports with total := ts, symbol := as }
      live := s.live ++ [.total t] ++ [.symbol v t a] }

@[simp] theorem precision_decodeNarrowed (t : Word) (ts : List Word) (v : Word) (a : SymbolAnswer)
    (as : List SymbolAnswer) (s : State) : (decodeNarrowed t ts v a as s).precision = s.precision := rfl

/-- What DECODE does after RENORM (R235, R239). -/
def returnSymbol (a : SymbolAnswer) (s : State) : Flow Ending :=
  if a.eos then .go .endOfStream (setState .done (setResult a.symbol (countSymbol s)))
  else .go .normal (setResult a.symbol (countSymbol s))

theorem returnSymbol_eq (a : SymbolAnswer) (s : State) :
    returnSymbol a s = .go (if a.eos then .endOfStream else .normal) { s with
      regs := { s.regs with
        state := if a.eos then .done else s.regs.state, symcnt := s.regs.symcnt + 1, result := a.symbol } } := by
  unfold returnSymbol
  cases a.eos <;> rfl

/-- In a decode session, DECODE gets past a good TOTAL answer (R157, R173). -/
theorem State.Inv.afterTotal {s : State} (hs : s.Inv) (hd : s.regs.state = .dec)
    (hu : ¬ (s.regs.exhausted = true ∧ s.precision ≤ s.regs.padcnt.toNat)) {t v : Word} {ts : List Word}
    (ht : s.ports.total = t :: ts) (hpos : 1 ≤ t.toNat) (hmax : t.toNat ≤ s.regs.maxtot.toNat)
    (hval : v = BitVec.ofNat 64 (s.interval.value s.regs.code.toNat t.toNat)) : AfterTotal (fresh s) t ts v := by
  have hused : streamUsedUp (fresh s) = false := by rwa [← Bool.not_eq_true, streamUsedUp_iff]
  exact ⟨hd, hused, hs.code_inside hd, ht, totalValid_iff.mpr ⟨hpos, hmax⟩, hval⟩

/-- The cumulative value that DECODE asks about is VALUE(t): it is below `t`, so it fits a register (R173). -/
theorem AfterTotal.value_toNat {s : State} {t : Word} {ts : List Word} {v : Word} (h : AfterTotal s t ts v) :
    v.toNat = s.interval.value s.regs.code.toNat t.toNat := by
  obtain ⟨hlow, hhigh, -⟩ := h.code
  have hlt := value_lt (x := s.interval) hlow hhigh (totalValid_iff.mp h.valid).1
  rw [h.value]
  exact Nat.mod_eq_of_lt (hlt.trans t.isLt)

/-- DECODE with good answers is RENORM(DEC) from the narrowed interval on, which holds CODE (R235, R174). -/
theorem State.Inv.decodeBody_renorm {s : State} (hs : s.Inv) {t v : Word} {ts : List Word} {a : SymbolAnswer}
    {as : List SymbolAnswer} (h : AfterTotal (fresh s) t ts v) (ha : s.ports.symbol = a :: as)
    (hv : symbolValid a v t = true) :
    decodeBody (fresh s) = ((renormDec s.precision (decodeNarrowed t ts v a as (fresh s))).andThen fun _ s =>
        returnSymbol a s) ∧
      DecReady (decodeNarrowed t ts v a as (fresh s)) ∧
      (decodeNarrowed t ts v a as (fresh s)).interval = s.interval.narrow a.cl.toNat a.ch.toNat t.toNat := by
  obtain ⟨hcl, hch, hct⟩ := symbolValid_iff.mp hv
  obtain ⟨hpos, hmax⟩ := totalValid_iff.mp h.valid
  obtain ⟨hlow, -⟩ := h.code
  have hbody := (h.symbol ha).trans (resolveSymbol_ok hv)
  obtain ⟨hrun, hp, hw, hinterval⟩ := hs.narrow_live (by rw [show s.regs.state = .dec from h.state]; rfl)
    (hcl.trans_lt hch) hct hmax
    (u := { fresh s with
      ports := { s.ports with total := ts, symbol := as }, live := [] ++ [.total t] ++ [.symbol v t a] }) rfl
  rw [h.value_toNat] at hcl hch
  refine ⟨hbody.trans (congrArg (Flow.andThen · _) hrun), ⟨hp, hinterval.symm ▸ hw, ?_⟩, hinterval⟩
  exact hinterval.symm ▸ narrow_holds_code (x := s.interval) hlow hpos hcl hch

end Sys2Proof.Machine
end

section
/-! PROOFS. The interval that ENCODE and DECODE leave depends on the interval before and on (cl, ch, t) only (43_decoder.md
R236; 41_interval_core.md R171, R182). -/

namespace Sys2Proof.Machine

/-- The interval after RENORM, of enough steps (R182, R183). -/
def Interval.renorm (p : Nat) (x : Interval) : Interval := renormalized p x (regimes p p x)

/-- The side action of an encoder step leaves LOW and HIGH (R181). -/
theorem sideAction_interval (g : Regime) (s : State) :
    (sideAction g s).Gives (fun _ t => t.interval = s.interval ∧ t.precision = s.precision) (fun e _ => e ≠ .ok) :=
  (sideAction_holds g s).gives.mono (fun _ _ h => ⟨h.2, h.1.precision⟩) (fun e _ h => by
    rcases h.1 with rfl | rfl <;> decide)

/-- The CODE update of a decoder step leaves LOW and HIGH (R180). -/
theorem shiftCode_interval (g : Regime) (s : State) :
    (shiftCode g s).Gives (fun _ t => t.interval = s.interval ∧ t.precision = s.precision) (fun e _ => e ≠ .ok) :=
  Flow.Gives.andThen ((nextBit_holds s).gives.mono (fun _ _ h => h) (fun _ _ h => by rw [h.1]; decide)) fun _ t h =>
    ⟨by rw [interval_setCode, State.interval, h.regs]; rfl, h.dec.precision⟩

/-- RENORM(ENC) ends, if it ends, at the interval of its regimes (R182). -/
theorem renormEnc_interval (fuel : Nat) {s : State} (hp : 2 ≤ s.precision ∧ s.precision ≤ 64)
    (hw : s.interval.within s.precision) :
    (renormEnc fuel s).Gives
      (fun _ t => t.interval = renormalized s.precision s.interval (regimes s.precision fuel s.interval))
      (fun e _ => e ≠ .ok) := by
  induction fuel generalizing s with
  | zero =>
    unfold renormEnc
    split
    · rfl
    · trivial
  | succ n ih =>
    unfold renormEnc
    split
    · next hg => rw [regimes_none (n + 1) hg]; rfl
    · next g hg =>
      have hw' := (transform_within hp.1 hw hg).1
      obtain ⟨hlo, hhi⟩ := within_lt hp.1 hp.2 hw'
      rw [regimes_some n hg, renormalized_cons]
      refine (sideAction_interval g s).andThen fun _ t ht => ?_
      obtain ⟨hi, hpt⟩ := ht
      have hu : (applyTransform g t).interval = g.transform s.precision s.interval := by
        rw [applyTransform, hpt, hi, interval_setInterval _ hlo hhi]
      have hup : (applyTransform g t).precision = s.precision := hpt
      have hrest := ih (s := applyTransform g t) (by rwa [hup]) (by rwa [hup, hu])
      rwa [hup, hu] at hrest

/-- RENORM(DEC) ends, if it ends, at the interval of its regimes (R182). -/
theorem renormDec_interval (fuel : Nat) {s : State} (hp : 2 ≤ s.precision ∧ s.precision ≤ 64)
    (hw : s.interval.within s.precision) :
    (renormDec fuel s).Gives
      (fun _ t => t.interval = renormalized s.precision s.interval (regimes s.precision fuel s.interval))
      (fun e _ => e ≠ .ok) := by
  induction fuel generalizing s with
  | zero =>
    unfold renormDec
    split
    · rfl
    · trivial
  | succ n ih =>
    unfold renormDec
    split
    · next hg => rw [regimes_none (n + 1) hg]; rfl
    · next g hg =>
      have hw' := (transform_within hp.1 hw hg).1
      obtain ⟨hlo, hhi⟩ := within_lt hp.1 hp.2 hw'
      have hu : (applyTransform g s).interval = g.transform s.precision s.interval := interval_setInterval _ hlo hhi
      rw [regimes_some n hg, renormalized_cons]
      refine (shiftCode_interval g (applyTransform g s)).andThen fun _ t ht => ?_
      rw [hu] at ht
      obtain ⟨hi, hpt⟩ := ht
      have hup : t.precision = s.precision := hpt
      have hrest := ih (s := t) (by rwa [hup]) (by rwa [hup, hi])
      rwa [hup, hi] at hrest

/-- ENCODE outside an encode session (R205). -/
theorem encodeBody_outside {s : State} (he : s.regs.state ≠ .enc) : encodeBody s = .raised .badState s := by
  simp [encodeBody, he]

/-- An ENCODE that meets no error leaves the narrowed and renormalized interval (R205). -/
theorem State.Inv.encodeBody_interval {s : State} (hs : s.Inv) {cl ch t : Word} {fs : List FreqAnswer}
    (hf : s.ports.freq = .freqOk cl ch t :: fs) :
    (encodeBody (fresh s)).Gives
      (fun _ u => u.interval = (s.interval.narrow cl.toNat ch.toNat t.toNat).renorm s.precision)
      (fun e _ => e ≠ .ok) := by
  by_cases he : s.regs.state = .enc
  case neg => rw [encodeBody_outside (s := fresh s) he]; exact nofun
  by_cases hv : freqOkValid cl ch t s.regs.maxtot = true
  case neg =>
    rw [encodeBody_bad_freq (s := fresh s) he hf (Bool.eq_false_of_not_eq_true hv)]
    exact nofun
  obtain ⟨hlow, hhigh, htotal⟩ := freqOkValid_iff.mp hv
  obtain ⟨hbody, ⟨hp, -, hw, -⟩, hinterval⟩ := hs.encodeBody_renorm he hf hlow hhigh htotal
  have hrenorm := renormEnc_interval s.precision hp hw
  rw [hinterval] at hrenorm
  rw [hbody]
  exact hrenorm.andThen fun _ u hu => hu

/-- A DECODE that resolves a symbol leaves the narrowed and renormalized interval (R235). -/
theorem State.Inv.decodeBody_interval {s : State} (hs : s.Inv) {t : Word} {ts : List Word} {a : SymbolAnswer}
    {as : List SymbolAnswer} (ht : s.ports.total = t :: ts) (ha : s.ports.symbol = a :: as) :
    (decodeBody (fresh s)).Gives
      (fun _ u => u.regs.symcnt = s.regs.symcnt + 1 →
        u.interval = (s.interval.narrow a.cl.toNat a.ch.toNat t.toNat).renorm s.precision)
      (fun e _ => e ≠ .ok) := by
  by_cases hd : s.regs.state = .dec
  case neg => rw [decodeBody_outside (s := fresh s) hd]; exact nofun
  by_cases hused : streamUsedUp (fresh s) = true
  case pos =>
    rw [decodeBody_used_up (s := fresh s) hd hused]
    intro hcount
    exact absurd hcount (by simp)
  have hunused := Bool.eq_false_of_not_eq_true hused
  by_cases hvalid : totalValid t s.regs.maxtot = true
  case neg =>
    rw [decodeBody_bad_total (s := fresh s) hd hunused ht (Bool.eq_false_of_not_eq_true hvalid)]
    exact nofun
  obtain ⟨v, h⟩ : ∃ v, AfterTotal (fresh s) t ts v := ⟨_, hd, hunused, hs.code_inside hd, ht, hvalid, rfl⟩
  by_cases hv : symbolValid a v t = true
  case neg =>
    rw [h.symbol ha, resolveSymbol_bad (Bool.eq_false_of_not_eq_true hv)]
    exact nofun
  obtain ⟨hbody, ⟨hp, hw, -⟩, hinterval⟩ := hs.decodeBody_renorm h ha hv
  have hrenorm := renormDec_interval s.precision hp hw
  rw [hinterval] at hrenorm
  rw [hbody]
  refine hrenorm.andThen fun _ u hu => ?_
  rw [returnSymbol_eq]
  exact fun _ => hu

/-- A command that completes with OK ends a run of its body that met no error (R289). -/
theorem exec_gives_of_ok {i : Instr} {s t : State} {G : Ending → State → Prop}
    (hb : (commandBody i (fresh s)).Gives G (fun e _ => e ≠ .ok)) (h : exec i s = .next t) (hbusy : t.busy = false)
    (hok : t.regs.err = .ok) : ∃ x u, G x u ∧ t = complete .ok (decide (x = .endOfStream)) u := by
  rcases exec_gives hb h with hgo | ⟨e, u, hne, rfl⟩ | ⟨q, u, rfl⟩
  · exact hgo
  · exact absurd (by simpa [raise_eq] using hok) hne
  · cases hbusy

end Sys2Proof.Machine
end

section
/-! PROOFS. The statements of 43_decoder.md. -/

namespace Sys2Proof.Machine

/-- Settles O39: the fill begins from CODE = 0, so CODE is the value of its bits. -/
theorem decStartFillsCode : Obligations.DecStartFillsCode := by
  intro s p bits b he hd hb hp hp' hm hm' ht
  have hbody := decStartBody_fills (s := fresh s) (Session.not_live he hd) hb
    (precisionOk_iff.mpr ⟨hp, hp', hm, hm'⟩) ht
  refine (runCommand_go hbody).trans ?_
  simp [complete, setState, setCode, withBitSide, beginSession, fresh]

/-- Settles O40: the fill takes the bits of the stream, then padding. -/
theorem codeHoldsTheStream : Obligations.CodeHoldsTheStream := by
  intro s p stream rest he hd hb hp hp' hm hm' hr
  obtain ⟨-, hp64, -⟩ := precisionOk_bounds hb (precisionOk_iff.mpr ⟨hp, hp', hm, hm'⟩)
  obtain ⟨c, htake, hbitcnt, hpadcnt, hexhausted⟩ := BitSide.take_stream (n := p)
    (b := { exhausted := false, padcnt := 0, bitcnt := 0, answers := s.ports.source, reads := [] }) rfl rfl hr (by omega)
  refine ⟨_, decStartFillsCode s p _ c he hd hb hp hp' hm hm' htake, rfl, rfl, fun i hi => ?_, ?_, ?_, hexhausted⟩
  · have hbit := testBit_bitsValue_of_length (take_length htake) hi
    rw [getD_take_append_zeros stream hi] at hbit
    rw [BitVec.getLsbD_ofNat, hbit, decide_eq_true (by omega), Bool.true_and]
  · exact (congrArg BitVec.toNat (hbitcnt.trans (BitVec.zero_add _))).trans (Nat.mod_eq_of_lt (by omega))
  · exact (congrArg BitVec.toNat hpadcnt).trans (Nat.mod_eq_of_lt (by omega))

/-- Settles O41: the failed READ_BIT comes after the bits of the stream, and the error is fatal. -/
theorem decStartSourceErrorFails : Obligations.DecStartSourceErrorFails := by
  intro s p stream rest he hd hb hp hp' hm hm' hlt hr
  obtain ⟨u, rfl, hbody⟩ := decStartBody_refused (s := fresh s) (Session.not_live he hd) hb
    (precisionOk_iff.mpr ⟨hp, hp', hm, hm'⟩) hlt hr
  refine ⟨_, runCommand_raised hbody, rfl, rfl, ?_⟩
  simp [raise_eq, sourceRefused, BitSide.supplied, State.bitSide, ErrCode.fatal, beginSession_regs]

/-- Settles O42: RENORM ends after all its steps, from the narrowed interval on, and the terminator ends the session. -/
theorem decodeResolvesASymbol : Obligations.DecodeResolvesASymbol := by
  rintro s t ts a as v _ gs bits b hs hd hu ht hpos hmax hval ha hcl hch hct rfl hgs htake
  have h := hs.afterTotal hd hu ht hpos hmax hval
  obtain ⟨hbody, hready, hinterval⟩ := hs.decodeBody_renorm h ha (symbolValid_iff.mpr ⟨hcl, hch, hct⟩)
  have hends := hready.renormDec_ends (gs := gs) (by rw [hinterval]; exact hgs) htake
  rw [hinterval, precision_decodeNarrowed, fresh_precision] at hends
  rw [hends, andThen_go, returnSymbol_eq] at hbody
  refine (runCommand_go hbody).trans ?_
  cases heos : a.eos <;> simp [complete, setCode, setInterval, withBitSide, decodeNarrowed, fresh, hd]

/-- Settles O45: the failed READ_BIT comes between the transform of its step and the CODE update. -/
theorem decodeSourceErrorFails : Obligations.DecodeSourceErrorFails := by
  rintro s t ts a as v _ gs stream rest hs hd hx ht hpos hmax hval ha hcl hch hct rfl hgs hlt hr
  have h := hs.afterTotal hd (by simp [hx]) ht hpos hmax hval
  obtain ⟨hbody, hready, hinterval⟩ := hs.decodeBody_renorm h ha (symbolValid_iff.mpr ⟨hcl, hch, hct⟩)
  have hrefused := hready.renormDec_refused (fuel := s.precision) hx (by rw [hinterval]; exact hgs.symm) hlt hr
  rw [hrefused, andThen_raised, hinterval] at hbody
  exact ⟨_, runCommand_raised hbody, rfl, rfl, rfl⟩

/-- Settles O57: both commands leave the same interval, narrowed and renormalized. -/
theorem decoderFollowsTheEncodersInterval : Obligations.DecoderFollowsTheEncodersInterval := by
  intro e d e' d' a t fs ts as hse hsd hprecision hlow hhigh hf ht ha hee hbe hoe hed hbd hod hcount
  obtain ⟨x, u, hu, rfl⟩ := exec_gives_of_ok (i := .encode) (hse.encodeBody_interval hf) hee hbe hoe
  obtain ⟨y, w, hw, rfl⟩ := exec_gives_of_ok (i := .decode) (hsd.decodeBody_interval ht ha) hed hbd hod
  have hstart : e.interval = d.interval := by rw [State.interval, hlow, hhigh]; rfl
  have hends : u.interval = w.interval := by rw [hu, hw hcount, hprecision, hstart]
  exact ⟨BitVec.eq_of_toNat_eq (congrArg Interval.lo hends), BitVec.eq_of_toNat_eq (congrArg Interval.hi hends)⟩

/-- Settles O43: the test of R238 comes before any request. -/
theorem decodeReturnsEndAtExhaustion : Obligations.DecodeReturnsEndAtExhaustion := by
  intro s hd hx hp
  have hused : streamUsedUp (fresh s) = true := streamUsedUp_iff.mpr ⟨hx, hp⟩
  refine (runCommand_go (decodeBody_used_up (s := fresh s) hd hused)).trans ?_
  simp [complete, setState, setResult, fresh]

end Sys2Proof.Machine
end

section
/-! PROOFS. Which answers each command may use, and the commands that make no request (44_bit_adaptors.md R265; 40_model_port.md
R154; 70_reset_and_hazards.md R362). -/

namespace Sys2Proof.Machine

/-- The answers that command `i` leaves alone: every port's that is not its own (R154, R265, R362). -/
structure PortFrame (i : Instr) (p q : Ports) : Prop where
  freq : i ≠ .encode → q.freq = p.freq
  model : i ≠ .decode → q.total = p.total ∧ q.symbol = p.symbol
  sink : i ≠ .encode → i ≠ .finish → q.sink = p.sink
  source : (∀ n, i ≠ .decStart n) → i ≠ .decode → q.source = p.source

theorem PortFrame.refl (i : Instr) (p : Ports) : PortFrame i p p :=
  ⟨fun _ => rfl, fun _ => ⟨rfl, rfl⟩, fun _ _ => rfl, fun _ _ => rfl⟩

/-- ENCODE may use FREQ and the sink. -/
theorem EncSide.portFrame_encode {s t : State} (h : EncSide s t) : PortFrame .encode s.ports t.ports := by
  rw [h.ports]
  exact ⟨fun hi => absurd rfl hi, fun _ => ⟨rfl, rfl⟩, fun hi => absurd rfl hi, fun _ _ => rfl⟩

/-- FINISH may use the sink, and makes no FREQ request. -/
theorem EncSide.portFrame_finish {s t : State} (h : EncSide s t) (hf : t.ports.freq = s.ports.freq) :
    PortFrame .finish s.ports t.ports := by
  refine ⟨fun _ => hf, ?_, fun _ hi => absurd rfl hi, ?_⟩ <;> rw [h.ports]
  · exact fun _ => ⟨rfl, rfl⟩
  · exact fun _ _ => rfl

/-- DEC_START may use the source, in its fill. -/
theorem DecChange.portFrame_decStart {k : Kind} {p : Nat} {m : Word} {s t : State}
    (h : DecChange (beginSession k p m s) t) : PortFrame (.decStart p) s.ports t.ports := by
  rw [h.ports]
  exact ⟨fun _ => rfl, fun _ => ⟨rfl, rfl⟩, fun _ _ => rfl, fun hi => absurd rfl (hi p)⟩

/-- DECODE may use TOTAL, SYMBOL and the source. -/
theorem DecSide.portFrame_decode {s t : State} (h : DecSide s t) : PortFrame .decode s.ports t.ports := by
  rw [h.ports]
  exact ⟨fun _ => rfl, fun hi => absurd rfl hi, fun _ _ => rfl, fun _ hi => absurd rfl hi⟩

/-- Every command's body uses only its own ports' answers, whatever the agents answer. -/
theorem commandBody_ports (i : Instr) (s : State) :
    (commandBody i s).Gives (fun _ t => PortFrame i s.ports t.ports) (fun _ t => PortFrame i s.ports t.ports) := by
  cases i with
  | encStart p =>
    refine (encStart_gives p s).mono ?_ ?_
    · rintro _ _ ⟨-, rfl⟩
      exact .refl _ s.ports
    · rintro _ _ ⟨-, -, rfl⟩
      exact .refl _ _
  | encode => exact (encode_gives s).mono (fun _ _ h => h.2.portFrame_encode) (fun _ _ h => h.2.1.portFrame_encode)
  | finish =>
    refine (finish_gives s).mono ?_ (fun _ _ h => h.2.1.portFrame_finish h.2.2.1)
    rintro _ _ ⟨-, u, hu, hf, rfl⟩
    exact hu.portFrame_finish hf
  | decStart p =>
    refine (decStart_gives p s).mono ?_ ?_
    · rintro _ _ ⟨-, u, hu, rfl⟩
      exact hu.portFrame_decStart
    · rintro _ _ ⟨-, ⟨-, hu⟩ | ⟨-, rfl⟩⟩
      · exact hu.portFrame_decStart
      · exact .refl _ _
  | decode =>
    refine (decode_gives s).mono ?_ (fun _ _ h => h.2.1.portFrame_decode)
    rintro _ _ ⟨-, ⟨-, u, hu, rfl⟩ | ⟨-, hu⟩⟩
    · exact hu.portFrame_decode
    · exact hu.portFrame_decode
  | abort => exact .refl _ s.ports

@[simp] theorem raise_ports (e : ErrCode) (s : State) : (raise e s).ports = s.ports := by rw [raise_eq]; rfl
@[simp] theorem raise_trace (e : ErrCode) (s : State) : (raise e s).trace = s.trace ++ s.live := by rw [raise_eq]; rfl
@[simp] theorem raise_live (e : ErrCode) (s : State) : (raise e s).live = [] := rfl

/-- A command uses only its own ports' answers: at a completion, at an error and at a wait. -/
theorem exec_ports {i : Instr} {s t : State} (h : exec i s = .next t) : PortFrame i s.ports t.ports := by
  rcases exec_gives (commandBody_ports i (fresh s)) h with ⟨x, u, hu, rfl⟩ | ⟨e, u, hu, rfl⟩ | ⟨q, u, rfl⟩
  · exact hu
  · rw [raise_ports]; exact hu
  · exact .refl i s.ports

/-- What a command that makes no request leaves alone, besides what every command does. -/
structure NoTransaction (s t : State) : Prop where
  ports : t.ports = s.ports
  trace : t.trace = s.trace
  live : t.live = s.live

theorem NoTransaction.refl (s : State) : NoTransaction s s := ⟨rfl, rfl, rfl⟩

/-- A stretch of pseudocode that ends without a request: it makes no transaction, and neither waits nor faults. -/
def Flow.NoRequest {α : Type} (s : State) : Flow α → Prop
  | .go _ t => NoTransaction s t
  | .raised _ t => NoTransaction s t
  | .stalled _ _ | .fault _ => False

/-- ENC_START only checks and writes registers (R200). -/
theorem encStartBody_noRequest (p : Nat) (s : State) : (encStartBody p s).NoRequest s := by
  cases hl : s.regs.state.live with
  | true =>
    rw [encStartBody, hl, Bool.not_true, require_false, andThen_raised]
    exact .refl s
  | false =>
    cases hp : precisionOk s.build p s.argL with
    | true => rw [encStartBody_ok hl hp]; exact ⟨rfl, rfl, rfl⟩
    | false =>
      have hbody : encStartBody p s = .raised .precision s := startBody_bad_operands (i := .encStart p) (.inl rfl) hl hp
      rw [hbody]
      exact .refl s

/-- A command whose body ends without a request completes with the answers and the history as they were. -/
theorem runCommand_noRequest {body : State → Flow Ending} {s t : State} (hb : (body (fresh s)).NoRequest (fresh s))
    (h : runCommand body s = .next t) : t.ports = s.ports ∧ t.trace = s.trace ∧ t.live = [] := by
  rcases runCommand_next h with ⟨x, u, hx, rfl⟩ | ⟨e, u, he, rfl⟩ | ⟨q, u, hq, rfl⟩
  · rw [hx] at hb
    obtain ⟨hports, htrace, hlive⟩ := hb
    exact ⟨hports, by rw [complete_trace, htrace, hlive]; exact List.append_nil _, rfl⟩
  · rw [he] at hb
    obtain ⟨hports, htrace, hlive⟩ := hb
    exact ⟨(raise_ports e u).trans hports, by rw [raise_trace, htrace, hlive]; exact List.append_nil _, rfl⟩
  · rw [hq] at hb
    exact hb.elim

end Sys2Proof.Machine
end

section
/-! PROOFS. NextBit where the source has ended, and where it ends (44_bit_adaptors.md R266). -/

namespace Sys2Proof.Machine

/-- PADCNT stays at its largest value (R39). -/
theorem saturatingSucc_of_max {v : Word} (h : v.toNat = 2 ^ 64 - 1) : saturatingSucc v = v := by
  have hv : v = BitVec.allOnes 64 := BitVec.eq_of_toNat_eq (by rw [h, BitVec.toNat_allOnes])
  rw [saturatingSucc, if_pos hv, hv]

/-- Once EXHAUSTED is set, NextBit pads and makes no request (R266). -/
theorem nextBit_exhausted {s : State} (hx : s.regs.exhausted = true) : nextBit s = .go false (countPad s) := by
  rw [nextBit, if_pos hx, Config.padBit]

/-- The answer END sets EXHAUSTED and gives the first padding bit (R266). -/
theorem nextBit_endOfInput {s : State} {rest : List SourceAnswer} (hx : s.regs.exhausted = false)
    (hr : s.ports.source = .endOfInput :: rest) :
    nextBit s = .go false
      (latchExhausted (record (.readBit .endOfInput) { s with ports := { s.ports with source := rest } })) := by
  simp [nextBit, hx, askReadBit, hr, Config.padBit]

end Sys2Proof.Machine
end

section
/-! PROOFS. The statements of 44_bit_adaptors.md. -/

namespace Sys2Proof.Machine

/-- Settles O24: each body's frame on the ports; and the bodies of ENC_START and ABORT make no request. -/
theorem commandsUseOnlyTheirPorts : Obligations.CommandsUseOnlyTheirPorts := by
  intro i s t h
  obtain ⟨hfreq, hmodel, hsink, hsource⟩ := exec_ports h
  refine ⟨hfreq, hmodel, hsink, hsource, ?_⟩
  rintro (⟨p, rfl⟩ | rfl)
  · exact runCommand_noRequest (encStartBody_noRequest p (fresh s)) h
  · exact runCommand_noRequest (body := abortBody) ⟨rfl, rfl, rfl⟩ h

/-- Settles O54: the bits the sink accepts are the run of Emit. -/
theorem emitWritesTheRunInOrder : Obligations.EmitWritesTheRunInOrder := by
  intro s b n h
  rw [emit_ok b n h]
  simp [wroteBits]

/-- Settles O55: one lemma for each answer of the source, and padding without one. -/
theorem nextBitCases : Obligations.NextBitCases := by
  intro s
  refine ⟨fun hx hlt => ?_, fun hx hmax => ?_, fun hx => ⟨fun b rest hr => nextBit_bit hx hr,
    fun rest hr => nextBit_endOfInput hx hr, fun rest hr => nextBit_refused hx hr, nextBit_stalled hx⟩⟩
  · rw [nextBit_exhausted hx, countPad, saturatingSucc_of_lt (by omega)]
  · rw [nextBit_exhausted hx, countPad, saturatingSucc_of_max hmax]

end Sys2Proof.Machine
end

section
/-! PROOFS. What a host write, a host read and a move of the block come to, case by case (45_host_commands.md R280-R288). -/

namespace Sys2Proof.Machine

/-- Between commands, with no port activity, a CMD write sets BUSY and latches ARG0 and the word (R280). -/
theorem hostWrite_cmd_between {s : State} (hb : s.busy = false) (hl : s.live = []) (ho : s.outstanding = none) (v : Word) :
    hostWrite WinReg.cmd.offset v s = { s with busy := true, argL := s.arg0, cmd := v } := by
  simp [hostWrite, WinReg.offset, regAt, startCommand, hb, hl, ho]

/-- With a command in progress, a CMD write sets OVERRUN (R282). -/
theorem hostWrite_cmd_dropped {s : State} (hb : s.busy = true) (v : Word) :
    hostWrite WinReg.cmd.offset v s = { s with regs := { s.regs with overrun := true } } :=
  if_pos hb

theorem hostWrite_arg0 (v : Word) (s : State) : hostWrite WinReg.arg0.offset v s = { s with arg0 := v } := rfl

theorem eq_arg0_of_regAt {offset : Nat} (h : regAt offset = some .arg0) : offset = WinReg.arg0.offset := by
  unfold regAt at h
  split at h <;> cases h
  rfl

/-- A write at an offset other than those of CMD and ARG0 is ignored (R287). -/
theorem hostWrite_ignored {offset : Nat} (hcmd : offset ≠ WinReg.cmd.offset) (harg0 : offset ≠ WinReg.arg0.offset)
    (v : Word) (s : State) : hostWrite offset v s = s := by
  unfold hostWrite
  split
  · exact absurd (eq_cmd_of_regAt ‹_›) hcmd
  · exact absurd (eq_arg0_of_regAt ‹_›) harg0
  all_goals rfl

/-- An aligned 8-byte read in the window is served (R83). -/
theorem hostAccess_read {a : Access} {s : State} {offset : Nat} (haddr : a.addr = s.build.windowBase + offset)
    (hin : offset < windowBytes) (hal : offset % 8 = 0) (hbytes : a.bytes = 8) (hread : a.write = none) :
    hostAccess a s = .next (hostRead offset s) := by
  have hwindow : ¬ (a.addr < s.build.windowBase ∨ s.build.windowBase + windowBytes ≤ a.addr) := by omega
  have hoffset : a.addr - s.build.windowBase = offset := by omega
  rw [hostAccess, if_neg hwindow, hoffset, hread]
  exact if_pos ⟨hal, hbytes⟩

/-- A read from a state with other coming inputs gives the same value (R288). -/
theorem hostRead_withInputs (r : List Input) (offset : Nat) (s : State) :
    hostRead offset { s with inputs := r } =
      { s with inputs := r, drawn := s.drawn + 1, host := { s.host with acc := readOffset s offset } } := by
  rw [hostRead, readOffset_withInputs]

theorem step_access {s : State} {a : Access} {rest : List Input} (hi : s.inputs = .access a :: rest) :
    step s = hostAccess a { s with inputs := rest } := by
  simp only [step, hi, inputStep]

/-- The block moves where the oldest input names it. -/
theorem step_block {s : State} {rest : List Input} (hi : s.inputs = .block :: rest) :
    step s = blockStep { s with inputs := rest } := by
  simp only [step, hi, inputStep]

/-- The block moves where no input is left and a command is in progress (log 4). -/
theorem step_block_of_no_inputs {s : State} (hi : s.inputs = []) (hb : s.busy = true) : step s = blockStep s := by
  rw [step, hi]
  exact if_pos hb

/-- The block's move runs the latched word's command (R280). -/
theorem blockStep_command {s : State} {i : Instr} (hb : s.busy = true) (hd : decode s.cmd = .ok i) :
    blockStep s = exec i s := by
  rw [blockStep, if_pos hb, hd]

/-- An illegal word completes with ILLEGAL_CMD at the block's move, and changes nothing but ERR, EOS and BUSY (R285). -/
theorem blockStep_illegal {s : State} {e : DecodeError} (hb : s.busy = true) (hd : decode s.cmd = .error e) :
    blockStep s = .next { s with
      busy := false, live := [], outstanding := none
      regs := { s.regs with err := .illegalCmd, eos := false } } := by
  rw [blockStep, if_pos hb, hd]
  exact runCommand_rejected rfl

theorem decode_of_decodeTableWord {nbits w : Nat} {i : Instr} (h : decodeTableWord nbits w = some i) :
    decode (tableWord nbits w) = .ok i := by
  unfold decodeTableWord at h
  split at h
  · rename_i j hj
    cases h
    exact hj
  · cases h

end Sys2Proof.Machine
end

section
/-! PROOFS. EXHAUSTED as a STATUS read shows it while a command is in progress (45_host_commands.md R286; 10_state.md R39). -/

namespace Sys2Proof.Machine

/-- A move of the block that leaves the command in progress shows no register update (R286, R289). -/
theorem blockStep_waiting {s t : State} (hb : s.busy = true) (h : blockStep s = .next t) (ht : t.busy = true) :
    t.regs = s.regs := by
  cases hd : decode s.cmd with
  | ok i =>
    rw [blockStep_command hb hd] at h
    exact (exec_waiting hb h ht).1
  | error e =>
    rw [blockStep_illegal hb hd] at h
    cases h
    cases ht

theorem exhaustedAtCompletion_of_next {s t : State} (h : blockStep s = .next t) :
    exhaustedAtCompletion s = t.regs.exhausted := by
  rw [exhaustedAtCompletion, h]

/-- The value at completion is the old one, or that of the state in which the command now completes (log 7). -/
theorem exhaustedAtCompletion_cases {s : State} (hb : s.busy = true) :
    exhaustedAtCompletion s = s.regs.exhausted ∨
      ∃ t, blockStep s = .next t ∧ t.busy = false ∧ exhaustedAtCompletion s = t.regs.exhausted := by
  cases h : blockStep s with
  | next t =>
    have hx := exhaustedAtCompletion_of_next h
    cases ht : t.busy with
    | false => exact .inr ⟨t, rfl, ht, hx⟩
    | true => exact .inl (hx.trans (congrArg Regs.exhausted (blockStep_waiting hb h ht)))
  | fault f => left; rw [exhaustedAtCompletion, h]
  | refused r => left; rw [exhaustedAtCompletion, h]

/-- EXHAUSTED as read is the old value or the value at completion (R286). -/
theorem exhaustedShown_cases (s : State) :
    exhaustedShown s = s.regs.exhausted ∨ exhaustedShown s = exhaustedAtCompletion s := by
  unfold exhaustedShown
  split
  · exact .inl rfl
  · exact .inr rfl

/-- DECODE keeps EXHAUSTED set, at a completion, at an error and at a wait (R39). -/
theorem exec_decode_latched {s t : State} (h : exec .decode s = .next t) (hx : s.regs.exhausted = true) :
    t.regs.exhausted = true := by
  have hbody : (commandBody .decode (fresh s)).Gives (fun _ u => u.regs.exhausted = true)
      (fun _ u => u.regs.exhausted = true) := by
    refine (decode_gives (fresh s)).mono ?_ (fun _ _ hu => hu.2.1.latched hx)
    rintro _ _ ⟨-, ⟨-, u, hu, rfl⟩ | ⟨-, hu⟩⟩ <;> exact hu.latched hx
  rcases exec_gives hbody h with ⟨x, u, hu, rfl⟩ | ⟨e, u, hu, rfl⟩ | ⟨q, u, rfl⟩
  · exact hu
  · rw [raise_eq]; exact hu
  · exact hx

/-- A STATUS read in a DECODE with EXHAUSTED set shows it set (R39). -/
theorem exhaustedShown_decode {s : State} (hb : s.busy = true) (hd : decode s.cmd = .ok .decode)
    (hx : s.regs.exhausted = true) : exhaustedShown s = true := by
  rcases exhaustedShown_cases s with h | h
  · exact h.trans hx
  rcases exhaustedAtCompletion_cases hb with hold | ⟨t, ht, -, hnew⟩
  · exact h.trans (hold.trans hx)
  · rw [blockStep_command hb hd] at ht
    exact h.trans (hnew.trans (exec_decode_latched ht hx))

end Sys2Proof.Machine
end

section
/-! PROOFS. Commands that their STATE does not allow (45_host_commands.md R283). -/

namespace Sys2Proof.Machine

/-- A start command in a live session (R200, R230). -/
theorem startBody_outside {i : Instr} {p : Nat} (hi : i = .encStart p ∨ i = .decStart p) {s : State}
    (hl : s.regs.state.live = true) : commandBody i s = .raised .badState s := by
  rcases hi with rfl | rfl
  · simp [commandBody, encStartBody, hl]
  · simp [commandBody, decStartBody, hl]

/-- FINISH outside an encode session (R215). -/
theorem finishBody_outside {s : State} (he : s.regs.state ≠ .enc) : finishBody s = .raised .badState s := by
  simp [finishBody, he]

end Sys2Proof.Machine
end

section
/-! PROOFS. The statements of 45_host_commands.md. -/

namespace Sys2Proof.Machine

/-- Settles O10: ARG0 takes the value, every other offset ignores it, and a step that is a host write is that write. -/
theorem otherHostWritesChangeOnlyArg0 : Obligations.OtherHostWritesChangeOnlyArg0 := by
  refine fun s v => ⟨⟨hostWrite_arg0 v s, fun t ht => hostWrites_step ht⟩, fun offset hcmd harg0 =>
    ⟨hostWrite_ignored hcmd harg0 v s, fun t ht => ?_⟩⟩
  rw [hostWrites_step ht, hostWrite_ignored hcmd harg0]

/-- Settles O15: EXHAUSTED has its two allowed values, and in a DECODE both are 1 where the old one is. -/
theorem readsWhileBusy : Obligations.ReadsWhileBusy := by
  intro s hb
  have hstatus : readReg s .status = statusWord s.regs true (exhaustedShown s) := by rw [readReg, hb]
  refine ⟨rfl, rfl, rfl, rfl, rfl, rfl, rfl, ⟨_, hstatus, ?_⟩, fun hd hx => ?_⟩
  · rcases exhaustedShown_cases s with h | h <;> rw [h]
    · exact .inl rfl
    · exact exhaustedAtCompletion_cases hb
  · rw [hstatus, exhaustedShown_decode hb hd hx]

/-- Settles O28: the check of STATE is the first line of every body that has one, and BAD_STATE is recoverable. -/
theorem commandsOutsideTheirStateAreRejected : Obligations.CommandsOutsideTheirStateAreRejected := by
  intro s i hcase
  have hbody : commandBody i (fresh s) = .raised .badState (fresh s) := by
    rcases hcase with ⟨⟨p, hi⟩, hstate⟩ | ⟨rfl | rfl, he⟩ | ⟨rfl, hd⟩
    · refine startBody_outside hi ?_
      rcases hstate with h | h <;> rw [fresh_regs, h] <;> rfl
    · exact encodeBody_outside he
    · exact finishBody_outside he
    · exact decodeBody_outside hd
  rw [exec_eq_runCommand]
  exact runCommand_rejected hbody

/-- Settles O5: the step is the block's move, which runs the latched word. -/
theorem stepRunsTheLatchedCommand : Obligations.StepRunsTheLatchedCommand :=
  fun _ _ hb hd =>
    ⟨fun _ hi => (step_block hi).trans (blockStep_command hb hd),
      fun hi => (step_block_of_no_inputs hi hb).trans (blockStep_command hb hd)⟩

/-- Settles O6: the CMD write leaves the word latched and the block next. -/
theorem stepRunsAFetchedWord : Obligations.StepRunsAFetchedWord :=
  fun _ _ _ _ h => (step_block rfl).trans (blockStep_command rfl (decode_of_decodeTableWord h))

/-- Settles O7: the step is the block's move, which completes the illegal word. -/
theorem illegalWordCompletesWithIllegalCmd : Obligations.IllegalWordCompletesWithIllegalCmd :=
  fun _ _ hb hd =>
    ⟨fun _ hi => (step_block hi).trans (blockStep_illegal hb hd),
      fun hi => (step_block_of_no_inputs hi hb).trans (blockStep_illegal hb hd)⟩

/-- Settles O8: the host's move before the write changes only the host and the inputs. -/
theorem cmdWriteStartsACommand : Obligations.CmdWriteStartsACommand := by
  refine fun s v hb hl ho => ⟨hostWrite_cmd_between hb hl ho v, fun t ht => ?_⟩
  obtain ⟨inputs, host, rfl⟩ : ∃ inputs host, t = { s with inputs := inputs, host := host } := ⟨_, _, hostWrites_eq ht⟩
  rw [hostWrites_step ht, hostWrite_cmd_between (s := { s with inputs := inputs, host := host }) hb hl ho]

/-- Settles O9: the host's move before the write changes only the host and the inputs. -/
theorem cmdWriteWhileBusyIsDropped : Obligations.CmdWriteWhileBusyIsDropped := by
  refine fun s v hb => ⟨hostWrite_cmd_dropped hb v, fun t ht => ?_⟩
  obtain ⟨inputs, host, rfl⟩ : ∃ inputs host, t = { s with inputs := inputs, host := host } := ⟨_, _, hostWrites_eq ht⟩
  rw [hostWrites_step ht, hostWrite_cmd_dropped (s := { s with inputs := inputs, host := host }) hb]

/-- Settles O12: the step is the read, and what it reads does not depend on the coming inputs. -/
theorem readsHaveNoSideEffects : Obligations.ReadsHaveNoSideEffects := by
  refine ⟨fun s a offset rest hi haddr hin hal hbytes hread => ?_, fun s u reg hm hr => ?_⟩
  · rw [step_access hi, hostAccess_read (s := { s with inputs := rest }) haddr hin hal hbytes hread, hostRead_withInputs]
  · rw [hostMoves_step hm, hostStep_runs (hostMoves_runs hm hr)]
    obtain ⟨inputs, rfl⟩ : ∃ inputs, u = { s with inputs := inputs } := ⟨_, hostMoves_eq hm⟩
    rw [hostInstr, hostRead_withInputs]
    rfl

/-- Settles O46: ABORT clears the session in every STATE and completes with OK. -/
theorem abortReturnsToIdle : Obligations.AbortReturnsToIdle := by
  intro s
  rw [exec_eq_runCommand, runCommand_go (x := .normal) (t := clearSession (fresh s)) rfl]
  simp [complete, clearSession, fresh]

end Sys2Proof.Machine
end

section
/-! PROOFS. What a command's body promises of its errors: under the invariant it never faults, and in every state a recoverable
error leaves the registers as they were (60_exceptions.md R302, R307). -/

namespace Sys2Proof.Machine

/-- Every command's body keeps the registers' invariant and never faults, whatever the agents answer (R307). -/
theorem commandBody_keeps (i : Instr) {s : State} (hb : s.build.wf = true) (h : s.regs.Inv s.build) :
    Keeps s.build (commandBody i s) := by
  cases i with
  | encStart p => exact encStart_keeps hb h p
  | encode => exact encode_keeps hb h
  | finish => exact finish_keeps hb h
  | decStart p => exact decStart_keeps hb h p
  | decode => exact decode_keeps hb h
  | abort => exact ⟨rfl, clearSession_inv s s.build⟩

/-- Where a body raises a recoverable error, no register has changed (R302). -/
theorem commandBody_recoverable (i : Instr) (s : State) :
    (commandBody i s).Gives (fun _ _ => True) (fun e t => e.fatal = false → t.regs = s.regs) := by
  cases i with
  | encStart p => exact (encStart_gives p s).mono (fun _ _ _ => trivial) (fun _ _ ⟨_, _, ht⟩ _ => by rw [ht])
  | encode => exact (encode_gives s).mono (fun _ _ _ => trivial) (fun _ _ ⟨_, _, hregs⟩ => hregs)
  | finish => exact (finish_gives s).mono (fun _ _ _ => trivial) (fun _ _ ⟨_, _, _, hregs⟩ => hregs)
  | decStart p =>
    refine (decStart_gives p s).mono (fun _ _ _ => trivial) ?_
    rintro e t ⟨-, ⟨hfatal, -⟩ | ⟨-, rfl⟩⟩ hrec
    · rw [hfatal] at hrec; cases hrec
    · rfl
  | decode => exact (decode_gives s).mono (fun _ _ _ => trivial) (fun _ _ ⟨_, _, hregs⟩ => hregs)
  | abort => trivial

@[simp] theorem raise_regs (e : ErrCode) (s : State) :
    (raise e s).regs =
      { s.regs with state := if e.fatal then .failed else s.regs.state, err := e, eos := false } := by
  rw [raise_eq]; rfl

end Sys2Proof.Machine
end

section
/-! PROOFS. The statements of 60_exceptions.md. -/

namespace Sys2Proof.Machine

/-- Settles O22: the invariant keeps every body within the bounds of NARROW, VALUE and RENORM, and a body that does not fault
answers a next state. -/
theorem commandsNeverFault : Obligations.CommandsNeverFault := by
  intro s i hs
  rw [exec_eq_runCommand]
  exact (commandBody_keeps i (s := fresh s) hs.build hs.regs).answers

/-- Settles O25: of the ways a command answers, only a raised error completes with ERR other than OK. -/
theorem errorsAreRecoverableOrFatal : Obligations.ErrorsAreRecoverableOrFatal := by
  intro i s t h hdone herr
  rcases exec_gives (commandBody_recoverable i (fresh s)) h with ⟨x, u, -, rfl⟩ | ⟨e, u, hrec, rfl⟩ | ⟨q, u, rfl⟩
  · exact absurd rfl herr
  · rw [raise_regs]
    refine ⟨rfl, fun (hf : e.fatal = false) => ?_, fun (hf : e.fatal = true) => if_pos hf⟩
    simp [hf, hrec hf]
  · cases hdone

end Sys2Proof.Machine
end

section
/-! PROOFS. An answer that comes for a waiting request, against the answers that the command's transactions have used
(20_memory.md R93; 70_reset_and_hazards.md R340, R341). -/

namespace Sys2Proof.Machine

/-- The answers left after two lists of transactions are those left after the one and then the other. -/
theorem Ports.after_append (p : Ports) (ts us : List Transaction) : p.after (ts ++ us) = (p.after ts).after us := by
  simp [after, usedFreq, usedTotal, usedSymbol, usedSink, usedSource, List.countP_append, List.drop_drop]

theorem drop_concat_cases {α : Type} (n : Nat) (xs : List α) (x : α) :
    (xs ++ [x]).drop n = xs.drop n ++ [x] ∨ (xs ++ [x]).drop n = xs.drop n := by
  rw [List.drop_append]
  cases n - xs.length with
  | zero => exact .inl rfl
  | succ k => exact .inr (by simp)

/-- A new answer joins those that the transactions `ts` left; it does not where they used more than had come. -/
theorem Ports.push_after (p : Ports) (a : Answer) (ts : List Transaction) :
    (p.push a).after ts = (p.after ts).push a ∨ (p.push a).after ts = p.after ts := by
  cases a with
  | freq b => rcases drop_concat_cases (usedFreq ts) p.freq b with h | h <;> simp [push, after, h]
  | total b => rcases drop_concat_cases (usedTotal ts) p.total b with h | h <;> simp [push, after, h]
  | symbol b => rcases drop_concat_cases (usedSymbol ts) p.symbol b with h | h <;> simp [push, after, h]
  | sink b => rcases drop_concat_cases (usedSink ts) p.sink b with h | h <;> simp [push, after, h]
  | source b => rcases drop_concat_cases (usedSource ts) p.source b with h | h <;> simp [push, after, h]

theorem eq_nil_of_no_transaction {α : Type} {xs : List α} {f : α → Transaction} (h : xs.head?.map f = Option.none) :
    xs = [] :=
  List.head?_eq_none_iff.mp (Option.map_eq_none_iff.mp h)

/-- The first answer to a request is used up by the transaction it finishes: it is the only one on the request's port. -/
theorem Ports.push_after_response {p : Ports} {a : Answer} {q : Request} {tr : Transaction}
    (hwaits : p.answerTo q = Option.none) (hresponse : (p.push a).answerTo q = some tr) : (p.push a).after [tr] = p := by
  obtain ⟨freq, total, symbol, sink, source⟩ := p
  cases q with
  | freq x =>
    obtain rfl : freq = [] := eq_nil_of_no_transaction hwaits
    cases a <;> cases hresponse
    rfl
  | total =>
    obtain rfl : total = [] := eq_nil_of_no_transaction hwaits
    cases a <;> cases hresponse
    rfl
  | symbol v t =>
    obtain rfl : symbol = [] := eq_nil_of_no_transaction hwaits
    cases a <;> cases hresponse
    rfl
  | writeBit b =>
    obtain rfl : sink = [] := eq_nil_of_no_transaction hwaits
    cases a <;> cases hresponse
    rfl
  | flush =>
    obtain rfl : sink = [] := eq_nil_of_no_transaction hwaits
    cases a <;> cases hresponse
    rfl
  | readBit =>
    obtain rfl : source = [] := eq_nil_of_no_transaction hwaits
    cases a <;> cases hresponse
    rfl

/-- The response to the request at which a command waits leaves no answer behind: with its transaction counted, the answers
left are those left before it came (R340). -/
theorem Ports.push_after_concat {p : Ports} {a : Answer} {q : Request} {tr : Transaction} {ts : List Transaction}
    (hwaits : (p.after ts).answerTo q = Option.none) (hresponse : ((p.push a).after ts).answerTo q = some tr) :
    (p.push a).after (ts ++ [tr]) = p.after ts := by
  rw [after_append]
  rcases push_after p a ts with h | h <;> rw [h] at hresponse ⊢
  · exact push_after_response hwaits hresponse
  · rw [hwaits] at hresponse
    cases hresponse

end Sys2Proof.Machine
end

section
/-! PROOFS. Reset: the step that takes it, what the window then shows, and the late response to an abandoned request
(70_reset_and_hazards.md R340, R341; 10_state.md R60). -/

namespace Sys2Proof.Machine

theorem step_reset {s : State} {rest : List Input} (hi : s.inputs = .reset :: rest) :
    step s = .next (resetBlock { s with inputs := rest }) := by
  simp only [step, hi, inputStep]

theorem step_answer {s : State} {a : Answer} {rest : List Input} (hi : s.inputs = .answer a :: rest) :
    step s = .next (deliver a { s with inputs := rest }) := by
  simp only [step, hi, inputStep]

theorem step_late {s : State} {tr : Transaction} {rest : List Input} (hi : s.inputs = .late tr :: rest) :
    step s = .next (lateAnswer tr { s with inputs := rest }) := by
  simp only [step, hi, inputStep]

theorem lateAnswer_abandoned {tr : Transaction} {s : State} (h : tr.request ∈ s.abandoned) :
    lateAnswer tr s = { s with abandoned := s.abandoned.erase tr.request, trace := s.trace ++ [tr] } :=
  if_pos h

theorem lateAnswer_ignored {tr : Transaction} {s : State} (h : tr.request ∉ s.abandoned) : lateAnswer tr s = s :=
  if_neg h

@[simp] theorem lowBits_zero (n : Nat) : lowBits n 0 = 0 := lowBits_of_lt (Nat.two_pow_pos n)

/-- Every window register but CAPS reads 0 after reset (R60). -/
theorem readReg_resetBlock (s : State) {r : WinReg} (hr : r ≠ .caps) : readReg (resetBlock s) r = 0 := by
  have hb : (resetBlock s).busy = false := rfl
  cases r with
  | caps => exact absurd rfl hr
  | status =>
    rw [readReg, exhaustedShown_of_not_busy hb]
    exact (by decide : statusWord Regs.reset false false = 0)
  | cmd | arg0 | maxtot => rfl
  | result | bitcnt | symcnt | padcnt => exact anyWhileBusy_of_not_busy hb 0
  | low | high | code | pending => exact (anyWhileBusy_of_not_busy hb _).trans (lowBits_zero _)

/-- What the sink and the source have done is read off the finished transactions, and reset keeps those (R55, R341). -/
theorem resetBlock_finished (s : State) : (resetBlock s).trace ++ (resetBlock s).live = s.trace ++ s.live :=
  List.append_nil _

theorem resetBlock_sinkBits (s : State) : (resetBlock s).sinkBits = s.sinkBits :=
  congrArg acceptedBits (resetBlock_finished s)

theorem resetBlock_sinkFlushes (s : State) : (resetBlock s).sinkFlushes = s.sinkFlushes := by
  rw [State.sinkFlushes, resetBlock_finished, State.sinkFlushes]

theorem resetBlock_sourceBits (s : State) : (resetBlock s).sourceBits = s.sourceBits :=
  congrArg suppliedBits (resetBlock_finished s)

/-- After the response to the outstanding request, reset finds its transaction finished and abandons no request
(R340, R341). -/
theorem resetBlock_after_response {s : State} {q : Request} {a : Answer} {tr : Transaction}
    (hwaits : (s.ports.after s.live).answerTo q = none)
    (hresponse : ((s.ports.push a).after s.live).answerTo q = some tr) :
    resetBlock { s with ports := s.ports.push a, live := s.live ++ [tr], outstanding := none } =
      { resetBlock s with trace := s.trace ++ s.live ++ [tr], abandoned := s.abandoned } := by
  simp [resetBlock, Ports.push_after_concat hwaits hresponse]

end Sys2Proof.Machine
end

section
/-! PROOFS. The statements of 70_reset_and_hazards.md. -/

namespace Sys2Proof.Machine

/-- Settles O17: the step is the reset, and no command is in progress after it, so the window shows the registers of R60. -/
theorem resetInputSetsEveryRegister : Obligations.ResetInputSetsEveryRegister :=
  fun _ _ hi => ⟨_, step_reset hi, rfl, rfl, rfl, rfl, rfl, rfl, rfl, fun _ hr => readReg_resetBlock _ hr, rfl⟩

/-- Settles O18: reset keeps the finished transactions; a response before it is one of them and leaves no answer behind; a
response after it is a late one. -/
theorem resetLeavesTheAgents : Obligations.ResetLeavesTheAgents := by
  refine ⟨fun s rest hi => ?_, fun s q a tr rest hi hout hwaits hresponse => ?_,
    fun s tr rest hi => ⟨fun h => ?_, fun h => ?_⟩⟩
  · exact ⟨_, step_reset hi, resetBlock_sinkBits _, resetBlock_sinkFlushes _, resetBlock_sourceBits _, rfl,
      resetBlock_finished _, rfl, rfl, rfl, rfl, rfl⟩
  · refine ⟨_, step_answer hi, ?_⟩
    rw [deliver_response (s := { s with inputs := .reset :: rest }) hout hresponse, step_reset rfl]
    exact congrArg _ (resetBlock_after_response (s := { s with inputs := rest }) hwaits hresponse)
  · rw [step_late hi, lateAnswer_abandoned (s := { s with inputs := rest }) h]
  · rw [step_late hi, lateAnswer_ignored (s := { s with inputs := rest }) h]

end Sys2Proof.Machine
end
